-- ==== Sys2Proof/Word.lean ====
section
/-! DEFINITION. The words of the machine: bytes, 16-bit words, and their plainest arithmetic
(spec 00_scope.md R7, R8). -/

namespace Sys2Proof

/-- A byte: 8 bits (00 R7). -/
abbrev Byte := BitVec 8

/-- A word: 16 bits (00 R7). -/
abbrev Word := BitVec 16

/-- `word(h, l) = h ++ l` (00 R7). -/
def word (h l : Byte) : Word := h ++ l

/-- `lo(w) = w[7:0]` (00 R7). -/
def lo (w : Word) : Byte := w.extractLsb' 0 8

/-- `hi(w) = w[15:8]` (00 R7). -/
def hi (w : Word) : Byte := w.extractLsb' 8 8

/-- `zext_16(b)` (00 R8). -/
def zext16 (b : Byte) : Word := b.setWidth 16

/-- `sext_16(b)` (00 R8). -/
def sext16 (b : Byte) : Word := b.signExtend 16

end Sys2Proof
end

