-- ==== Sys2Proof/Config.lean ====
section
/-! DEFINITION. The parameters of the machine (spec 00_scope.md R6). A machine carries its parameters
in `State.cfg`, so a statement about every state holds for every value of them; `Config.standard`
holds the spec's defaults. -/

namespace Sys2Proof

/-- `RC`, the cycle of a 7-cycle interrupt sequence at which the vector is chosen: one of 5, 6, 7
(00 R6, 60 R278). -/
inductive VectorCycle where
  | five
  | six
  | seven
deriving DecidableEq, Repr

/-- The value `8 - RC` that `skip` holds, after the decrement, at cycle `RC` (50 R241). -/
def VectorCycle.skipLeft : VectorCycle → Nat
  | .five => 3
  | .six => 2
  | .seven => 1

/-- `SAMPLE_RATE`: OPEN in the spec (00 R6, D37). No value is chosen: log entry 2. -/
opaque Config.sampleRateOpen : Nat

/-- `SAVE_MAGIC`: OPEN in the spec (00 R6, D39). No value is chosen: log entry 2. -/
opaque Config.saveMagicOpen : BitVec 32

/-- `SAVE_VERSION`: OPEN in the spec (00 R6, D39). No value is chosen: log entry 2. -/
opaque Config.saveVersionOpen : BitVec 32

/-- The parameters of 00 R6 that a model takes as configuration. No step changes them. -/
structure Config where
  /-- `RESET_A` (D3) -/
  resetA : Byte
  /-- `RESET_X` (D3) -/
  resetX : Byte
  /-- `RESET_Y` (D3) -/
  resetY : Byte
  /-- `RC` (D7) -/
  rc : VectorCycle
  /-- `UNMAPPED_READ` (D16) -/
  unmappedRead : Byte
  /-- `FRAME_SEQ_STEP` (D36) -/
  frameSeqStep : Nat
  /-- `MMC3_HOOK_DOT` (D34) -/
  mmc3HookDot : Nat
  /-- `SAMPLE_RATE` (D37) -/
  sampleRate : Nat
  /-- `CPU_HZ` (D37) -/
  cpuHz : Nat
  /-- `SAVE_MAGIC` (D39) -/
  saveMagic : BitVec 32
  /-- `SAVE_VERSION` (D39) -/
  saveVersion : BitVec 32
deriving DecidableEq, Repr

/-- The spec's defaults (00 R6); DESIGN CHOICE of the spec, unsafe: log entries 1 and 2. -/
def Config.standard : Config :=
  { resetA := 0x00
    resetX := 0x00
    resetY := 0x00
    rc := .six
    unmappedRead := 0x00
    frameSeqStep := 7457
    mmc3HookDot := 260
    sampleRate := Config.sampleRateOpen
    cpuHz := 1789773
    saveMagic := Config.saveMagicOpen
    saveVersion := Config.saveVersionOpen }

end Sys2Proof
end

