-- ==== Sys2Proof/Machine/State.lean ====
section
/-! DEFINITION. The state of the machine as plain data, the reasons a step can stop, and the state after
power-on and `Reset()` (spec 10_state.md, 61_bus_dma_io.md R313, 62_ppu.md R330, 63_apu.md R391, R392,
64_mapper.md, 70_reset_and_hazards.md R520 to R522). INVENTORY.md lists every field with its rule. -/

namespace Sys2Proof.Machine

/-- A memory as (index, byte) pairs, indexes strictly rising, no byte 0; an unlisted index reads 0: every
RAM is zero at power-on (D22), log entry 6. -/
abbrev Memory := List Host.Cell

/-! ## Cartridge -/

/-- The four nametable mirroring modes (62 R346). -/
inductive Mirroring where
  | horizontal
  | vertical
  | singleLower
  | singleUpper
deriving DecidableEq, Repr

/-- The cartridge image: configuration, changed by no step (61 R321, 64 R451). -/
structure Cartridge where
  /-- PRG ROM size in 16 KB units -/
  prgUnits : Nat
  /-- CHR ROM size in 8 KB units; 0: the cartridge has 8 KB of CHR RAM -/
  chrUnits : Nat
  /-- PRG ROM bytes by offset in the image -/
  prg : Memory
  /-- CHR ROM bytes by offset in the image -/
  chr : Memory
  /-- flags6 bit 0 -/
  mirroring : Mirroring
  /-- flags6 bit 1; no access depends on it (61 R305) -/
  battery : Bool
  /-- flags6 bit 2; the trainer's bytes are skipped (D43) -/
  trainer : Bool
deriving DecidableEq, Repr

/-- Mapper 1 registers (64 R463). -/
structure Mmc1 where
  shift : BitVec 5
  control : BitVec 5
  chr0 : BitVec 5
  chr1 : BitVec 5
  prg : BitVec 5
deriving DecidableEq, Repr

/-- Mapper 4 registers (64 R475). -/
structure Mmc3 where
  select : Byte
  r : Vector Byte 8
  irqLatch : Byte
  irqCounter : Byte
  irqReload : Bool
  irqEnable : Bool
  irqFlag : Bool
deriving DecidableEq, Repr

/-- Mapper 65 registers (64 R484). -/
structure Mapper65 where
  p0 : Byte
  p1 : Byte
  p2 : Byte
  layout : Bool
  c : Vector Byte 8
  irqEnable : Bool
  irqCounter : Word
  irqReloadVal : Word
  irqFlag : Bool
deriving DecidableEq, Repr

/-- The installed mapper with its registers (64 R490). -/
inductive Mapper where
  /-- mapper 0 -/
  | nrom
  /-- mapper 1 -/
  | mmc1 (m : Mmc1)
  /-- mapper 2: `bank` -/
  | uxrom (bank : Byte)
  /-- mapper 3: `chr_bank` -/
  | cnrom (chrBank : Byte)
  /-- mapper 4 -/
  | mmc3 (m : Mmc3)
  /-- mapper 65 -/
  | m65 (m : Mapper65)
deriving DecidableEq, Repr

/-! ## CPU -/

/-- The three interrupt kinds (60 R271). -/
inductive IntKind where
  | nmi
  | irq
  | brk
deriving DecidableEq, Repr

/-- The interrupt latch, bits 0, 1, 2 of the mask of 10 R28. -/
structure Latch where
  nmi : Bool
  irq : Bool
  brk : Bool
deriving DecidableEq, Repr

/-- The CPU (10 R20 to R34). -/
structure Cpu where
  pc : Word
  a : Byte
  x : Byte
  y : Byte
  sp : Byte
  p : Byte
  latch : Latch
  skip : BitVec 32
  pageCross : Bool
  inInterrupt : Bool
  intKind : Option IntKind
  cyclesTotal : BitVec 64
deriving DecidableEq, Repr

/-! ## Controllers -/

/-- The controller port; the two button bytes are host inputs (61 R310 to R312). -/
structure Pad where
  strobe : Bool
  shift0 : Byte
  shift1 : Byte
  buttons0 : Byte
  buttons1 : Byte
deriving DecidableEq, Repr

/-! ## Picture unit -/

/-- The picture unit (62 R330). -/
structure Ppu where
  ctrl : Byte
  mask : Byte
  status : Byte
  oamAddr : Byte
  v : BitVec 15
  t : BitVec 15
  w : Bool
  x : BitVec 3
  buffer : Byte
  ioLatch : Byte
  vram : Memory
  pal : Memory
  oam : Memory
  spriteList : Vector (BitVec 6) 8
  spriteCount : BitVec 4
  scanline : Nat
  dot : Nat
  frame : BitVec 32
  ntLatch : Byte
  atLatch : BitVec 2
  plLatch : Byte
  phLatch : Byte
  bgLo : Word
  bgHi : Word
  atCur : BitVec 2
  atNext : BitVec 2
  nmiSent : Bool
  suppressVbl : Bool
  mirroring : Mirroring
  /-- the frame being drawn: pixel (line, px) at index `256 * line + px` -/
  frameDraw : Memory
  /-- the frame published to the host (61 R322) -/
  frameShown : Memory
  /-- PPUMASK's greyscale bit as handed over with the published frame (62 R337; log entry 21) -/
  shownGreyscale : Bool
  /-- PPUMASK's emphasis bits as handed over with the published frame (62 R337; log entry 21) -/
  shownEmphasis : BitVec 3
deriving DecidableEq, Repr

/-! ## Audio unit -/

/-- An envelope (63 R391). -/
structure Envelope where
  const : Bool
  vol : BitVec 4
  start : Bool
  div : BitVec 4
  decay : BitVec 4
deriving DecidableEq, Repr

/-- A pulse channel (63 R391). -/
structure Pulse where
  enabled : Bool
  duty : BitVec 2
  seq : BitVec 3
  timerPeriod : BitVec 11
  timer : BitVec 11
  length : Byte
  halt : Bool
  env : Envelope
  swEnable : Bool
  swPeriod : BitVec 3
  swNegate : Bool
  swShift : BitVec 3
  swDiv : BitVec 3
  swReload : Bool
deriving DecidableEq, Repr

/-- The triangle channel (63 R392). -/
structure Triangle where
  enabled : Bool
  timerPeriod : BitVec 11
  timer : BitVec 11
  seq : BitVec 5
  length : Byte
  control : Bool
  linReloadVal : BitVec 7
  lin : BitVec 7
  linReload : Bool
deriving DecidableEq, Repr

/-- The noise channel (63 R392). -/
structure Noise where
  enabled : Bool
  mode : Bool
  periodIdx : BitVec 4
  timer : BitVec 12
  lfsr : BitVec 15
  length : Byte
  halt : Bool
  env : Envelope
deriving DecidableEq, Repr

/-- The delta-modulation channel (63 R392). -/
structure Dmc where
  irqEnable : Bool
  loop : Bool
  rateIdx : BitVec 4
  timer : BitVec 9
  level : BitVec 7
  sampleAddr : Word
  sampleLen : BitVec 12
  curAddr : Word
  bytesLeft : BitVec 12
  shift : Byte
  bitsLeft : BitVec 4
  silence : Bool
deriving DecidableEq, Repr

/-- The audio unit (63 R390 to R392). -/
structure Apu where
  pulse1 : Pulse
  pulse2 : Pulse
  triangle : Triangle
  noise : Noise
  dmc : Dmc
  fsMode : Bool
  fsInhibit : Bool
  fsCount : BitVec 13
  fsStep : BitVec 3
  frameIrq : Bool
  dmcIrq : Bool
  half : Bool
  /-- resampler accumulator; 64 bits: log entry 11 -/
  acc : BitVec 64
deriving DecidableEq, Repr

/-- An emitted mixer sample, as the two indexes into `PULSE_TABLE` and `TND_TABLE` (63 R430); `mixValue`
is its value. -/
structure MixSample where
  pulse : Nat
  tnd : Nat
deriving DecidableEq, Repr

/-! ## The machine -/

/-- The whole state: configuration (`cfg`, `cart`), the CPU, the bus's RAM and controllers, the
cartridge's RAMs and mapper, the picture unit, the audio unit and the audio queue. -/
structure State where
  cfg : Config
  cart : Cartridge
  cpu : Cpu
  ram : Memory
  prgRam : Memory
  chrRam : Memory
  mapper : Mapper
  pad : Pad
  ppu : Ppu
  apu : Apu
  audio : List MixSample
deriving DecidableEq, Repr

/-- The hardware has no fault: no step and no instruction raises one (00 R13, 60 R270). -/
inductive Fault where
deriving DecidableEq, Repr

/-- The refusals of the model. -/
inductive Refusal where
  /-- Raised by `exec`'s arm of an instruction that has no meaning yet. Safe: nothing is claimed of it. -/
  | notModelled (mnemonic : String)
deriving DecidableEq, Repr

/-! ## Reset values -/

/-- A silent envelope (63 R393). -/
def Envelope.zero : Envelope := { const := false, vol := 0, start := false, div := 0, decay := 0 }

/-- Pulse channel after reset (63 R393). -/
def Pulse.zero : Pulse :=
  { enabled := false, duty := 0, seq := 0, timerPeriod := 0, timer := 0, length := 0, halt := false
    env := Envelope.zero
    swEnable := false, swPeriod := 0, swNegate := false, swShift := 0, swDiv := 0, swReload := false }

/-- The audio unit after reset (63 R393). -/
def Apu.initial : Apu :=
  { pulse1 := Pulse.zero
    pulse2 := Pulse.zero
    triangle :=
      { enabled := false, timerPeriod := 0, timer := 0, seq := 0, length := 0, control := false
        linReloadVal := 0, lin := 0, linReload := false }
    noise :=
      { enabled := false, mode := false, periodIdx := 0, timer := 0, lfsr := 1, length := 0
        halt := false, env := Envelope.zero }
    dmc :=
      { irqEnable := false, loop := false, rateIdx := 0, timer := 0, level := 0
        sampleAddr := 0xC000, sampleLen := 1, curAddr := 0, bytesLeft := 0
        shift := 0, bitsLeft := 8, silence := true }
    fsMode := false, fsInhibit := false, fsCount := 0, fsStep := 0
    frameIrq := false, dmcIrq := false, half := false, acc := 0 }

/-- The picture unit after power-on and reset, with the cartridge's mirroring (62 R334, R346). The sprite
list and the frames: log entry 12. -/
def Ppu.initial (m : Mirroring) : Ppu :=
  { ctrl := 0, mask := 0, status := 0, oamAddr := 0, v := 0, t := 0, w := false, x := 0
    buffer := 0, ioLatch := 0, vram := [], pal := [], oam := []
    spriteList := Vector.replicate 8 0, spriteCount := 0
    scanline := 261, dot := 0, frame := 0
    ntLatch := 0, atLatch := 0, plLatch := 0, phLatch := 0
    bgLo := 0, bgHi := 0, atCur := 0, atNext := 0
    nmiSent := false, suppressVbl := false, mirroring := m
    frameDraw := [], frameShown := [], shownGreyscale := false, shownEmphasis := 0 }

/-- The cartridge of `State.reset`: one PRG unit and one CHR unit of zero bytes, header flags 0. DESIGN
CHOICE, log entry 3: the spec's `Reset()` needs an installed cartridge and names none. -/
def Cartridge.empty : Cartridge :=
  { prgUnits := 1, chrUnits := 1, prg := [], chr := [], mirroring := .horizontal
    battery := false, trainer := false }

/-- The CPU after `Reset()` with the vector's value (10 R40). -/
def Cpu.initial (cfg : Config) (vector : Word) : Cpu :=
  { pc := vector, a := cfg.resetA, x := cfg.resetX, y := cfg.resetY, sp := 0xFD, p := 0x24
    latch := { nmi := false, irq := false, brk := false }
    skip := 0, pageCross := false, inInterrupt := false, intKind := none, cyclesTotal := 0 }

/-- The machine right after power-on and `Reset()` with the empty cartridge on mapper 0 and the spec's
parameters (70 R520 to R522). The reset vector is read from the empty image: 0x0000. -/
def State.reset : State :=
  { cfg := Config.standard
    cart := Cartridge.empty
    cpu := Cpu.initial Config.standard 0x0000
    ram := [], prgRam := [], chrRam := []
    mapper := .nrom
    pad := { strobe := false, shift0 := 0, shift1 := 0, buttons0 := 0, buttons1 := 0 }
    ppu := Ppu.initial .horizontal
    apu := Apu.initial
    audio := [] }

end Sys2Proof.Machine
end

