-- ==== Sys2Proof/Machine/Memory.lean ====
section
/-! DEFINITION. Memories in canonical form and small bit helpers (log entry 6). -/

namespace Sys2Proof.Machine

/-- What an unlisted index reads as (D22: memories are zero at power-on). -/
def unlistedByte : Byte := 0

/-- The byte at an index. -/
def Memory.read : Memory → Nat → Byte
  | [], _ => unlistedByte
  | (i, b) :: m, n => if n = i then b else Memory.read m n

/-- Store a byte at an index, keeping the canonical form: a byte equal to what an unlisted index reads
as is not listed. -/
def Memory.write : Memory → Nat → Byte → Memory
  | [], n, v => if v = unlistedByte then [] else [(n, v)]
  | (i, b) :: m, n, v =>
    if n < i then (if v = unlistedByte then (i, b) :: m else (n, v) :: (i, b) :: m)
    else if n = i then (if v = unlistedByte then m else (n, v) :: m)
    else (i, b) :: Memory.write m n v

/-- Indexes from `low` on strictly rise and no listed byte is the unlisted one. -/
def Memory.wfFrom (low : Nat) : Memory → Bool
  | [] => true
  | (i, b) :: m => decide (low ≤ i) && b != unlistedByte && Memory.wfFrom (i + 1) m

/-- The canonical form. -/
def Memory.wf (m : Memory) : Bool := Memory.wfFrom 0 m

/-- Every listed index is below `size`. -/
def Memory.below (size : Nat) (m : Memory) : Bool := m.all fun c => decide (c.1 < size)

/-- The memory that holds the bytes of a list at indexes from `start` on. -/
def Memory.ofBytes (start : Nat) : List Byte → Memory
  | [] => []
  | b :: bs =>
    if b = unlistedByte then Memory.ofBytes (start + 1) bs
    else (start, b) :: Memory.ofBytes (start + 1) bs

/-- The first `n` bytes in index order. -/
def Memory.toBytes (m : Memory) (n : Nat) : List Byte := (List.range n).map m.read

/-- Bit `i` as a Boolean. -/
def bitOf {n : Nat} (v : BitVec n) (i : Nat) : Bool := v.getLsbD i

/-- A Boolean as a byte 0 or 1. -/
def boolByte (b : Bool) : Byte := if b then 1 else 0

/-- `v` with bit `i` set to `b`. -/
def putBit {n : Nat} (v : BitVec n) (i : Nat) (b : Bool) : BitVec n :=
  if b then v ||| BitVec.twoPow n i else v &&& ~~~(BitVec.twoPow n i)

/-- Element `i` of eight. -/
def get8 {α : Type} (v : Vector α 8) (i : BitVec 3) : α := v[i.toNat]'i.isLt

/-- Eight elements with element `i` replaced. -/
def set8 {α : Type} (v : Vector α 8) (i : BitVec 3) (a : α) : Vector α 8 := v.set i.toNat a i.isLt

end Sys2Proof.Machine
end

