-- ==== Sys2Proof/Machine/Audio.lean ====
section
/-! DEFINITION. The audio unit without its bus reads: channel units, registers, frame sequencer, mixer
and resampler (spec 63_apu.md). The tick, which may read the bus, is in Machine/Bus.lean. -/

namespace Sys2Proof.Machine

/-! ## Tables -/

/-- `LEN` (63 R403). -/
def lenTable : List Nat :=
  [10, 254, 20, 2, 40, 4, 80, 6, 160, 8, 60, 10, 14, 12, 26, 14] ++
  [12, 16, 24, 18, 48, 20, 96, 22, 192, 24, 72, 26, 16, 28, 32, 30]

/-- `LEN[d[7:3]]` (63 R395, R403). -/
def lengthLoad (d : Byte) : Byte := BitVec.ofNat 8 (lenTable.getD (d >>> 3).toNat 0)

/-- `DUTY` (63 R408). -/
def dutyTable : List (List Nat) :=
  [[0, 1, 0, 0, 0, 0, 0, 0], [0, 1, 1, 0, 0, 0, 0, 0], [0, 1, 1, 1, 1, 0, 0, 0], [1, 0, 0, 1, 1, 1, 1, 1]]

/-- `TRI` (63 R410): 15 down to 0, then 0 up to 15. -/
def triTable (n : Nat) : Nat := if n < 16 then 15 - n else n - 16

/-- `NOISE_PERIOD` (63 R397). -/
def noisePeriod : List Nat :=
  [4, 8, 16, 32, 64, 96, 128, 160, 202, 254, 380, 508, 762, 1016, 2034, 4068]

/-- `DMC_RATE` (63 R398). -/
def dmcRate : List Nat := [428, 380, 340, 320, 286, 254, 226, 214, 190, 160, 142, 128, 106, 84, 72, 54]

/-! ## Units -/

/-- `ClockEnvelope` for a channel with loop flag `halt` (63 R405). -/
def Envelope.clock (e : Envelope) (halt : Bool) : Envelope :=
  if e.start then { e with start := false, decay := 15, div := e.vol }
  else if e.div = 0 then
    { e with div := e.vol, decay := if e.decay ≠ 0 then e.decay - 1 else if halt then 15 else 0 }
  else { e with div := e.div - 1 }

/-- `EnvelopeOut` (63 R405). -/
def Envelope.out (e : Envelope) : Nat := if e.const then e.vol.toNat else e.decay.toNat

/-- A length counter after `ClockLength` (63 R404). -/
def clockLength (enabled halt : Bool) (length : Byte) : Byte :=
  if enabled && !halt && length != 0 then length - 1 else length

/-- `Target(p)` (63 R406); `first` says the channel is pulse 1. -/
def Pulse.target (p : Pulse) (first : Bool) : Int :=
  let period : Int := p.timerPeriod.toNat
  let change : Int := (p.timerPeriod >>> p.swShift.toNat).toNat
  if p.swNegate then (if first then period - change - 1 else period - change) else period + change

/-- `Muted(p)` (63 R406). -/
def Pulse.muted (p : Pulse) (first : Bool) : Bool :=
  decide (p.target first < 8) || decide (p.target first > 0x7FF)

/-- `ClockSweep(p)` (63 R406). -/
def Pulse.clockSweep (p : Pulse) (first : Bool) : Pulse :=
  { p with
    timerPeriod :=
      if p.swDiv = 0 && p.swEnable && p.swShift != 0 && !p.muted first then
        BitVec.ofInt 11 (p.target first)
      else p.timerPeriod
    swDiv := if p.swDiv = 0 || p.swReload then p.swPeriod else p.swDiv - 1
    swReload := if p.swDiv = 0 || p.swReload then false else p.swReload }

/-- `PulseTimer(p)` (63 R407). -/
def Pulse.clockTimer (p : Pulse) : Pulse :=
  if p.timer = 0 then { p with timer := p.timerPeriod, seq := p.seq + 1 }
  else { p with timer := p.timer - 1 }

/-- `PulseOut(p)` (63 R407). -/
def Pulse.out (p : Pulse) (first : Bool) : Nat :=
  if (dutyTable.getD p.duty.toNat []).getD p.seq.toNat 0 = 0 || p.length = 0 || p.muted first then 0
  else p.env.out

/-- `ClockEnvelope` of a pulse channel (63 R421). -/
def Pulse.clockEnvelope (p : Pulse) : Pulse := { p with env := p.env.clock p.halt }

/-- `ClockLength` of a pulse channel (63 R421). -/
def Pulse.clockLength (p : Pulse) : Pulse :=
  { p with length := Machine.clockLength p.enabled p.halt p.length }

/-- `ClockLinear()` (63 R409). -/
def Triangle.clockLinear (t : Triangle) : Triangle :=
  { t with
    lin := if t.linReload then t.linReloadVal else if t.lin ≠ 0 then t.lin - 1 else 0
    linReload := if t.control then t.linReload else false }

/-- `TriangleTimer()` (63 R410). -/
def Triangle.clockTimer (t : Triangle) : Triangle :=
  if t.timer = 0 then
    { t with timer := t.timerPeriod, seq := if t.length ≠ 0 ∧ t.lin ≠ 0 then t.seq + 1 else t.seq }
  else { t with timer := t.timer - 1 }

/-- `ClockLength` of the triangle, whose halt flag is `control` (63 R404). -/
def Triangle.clockLength (t : Triangle) : Triangle :=
  { t with length := Machine.clockLength t.enabled t.control t.length }

/-- The shift register after one step (63 R411). -/
def Noise.nextLfsr (n : Noise) : BitVec 15 :=
  let fb := bitOf n.lfsr 0 ^^ (if n.mode then bitOf n.lfsr 6 else bitOf n.lfsr 1)
  (n.lfsr >>> 1) ||| (if fb then 0x4000 else 0)

/-- `NoiseTimer()` (63 R411). -/
def Noise.clockTimer (n : Noise) : Noise :=
  if n.timer = 0 then
    { n with timer := BitVec.ofNat 12 (noisePeriod.getD n.periodIdx.toNat 0 - 1), lfsr := n.nextLfsr }
  else { n with timer := n.timer - 1 }

/-- `NoiseOut` (63 R411). -/
def Noise.out (n : Noise) : Nat := if bitOf n.lfsr 0 || n.length = 0 then 0 else n.env.out

/-- `ClockEnvelope` of the noise channel (63 R421). -/
def Noise.clockEnvelope (n : Noise) : Noise := { n with env := n.env.clock n.halt }

/-- `ClockLength` of the noise channel (63 R421). -/
def Noise.clockLength (n : Noise) : Noise :=
  { n with length := Machine.clockLength n.enabled n.halt n.length }

/-- The output level after one output bit (63 R425, the first block of `OutputBit`). -/
def Dmc.nextLevel (d : Dmc) : BitVec 7 :=
  if d.silence then d.level
  else if bitOf d.shift 0 then (if d.level ≤ 125 then d.level + 2 else d.level)
  else if 2 ≤ d.level then d.level - 2
  else d.level

/-! ## Frame sequencer -/

/-- `QuarterFrame()` (63 R421). -/
def Apu.quarterFrame (a : Apu) : Apu :=
  { a with
    pulse1 := a.pulse1.clockEnvelope
    pulse2 := a.pulse2.clockEnvelope
    noise := a.noise.clockEnvelope
    triangle := a.triangle.clockLinear }

/-- `HalfFrame()` (63 R421). -/
def Apu.halfFrame (a : Apu) : Apu :=
  { a with
    pulse1 := a.pulse1.clockLength.clockSweep true
    pulse2 := a.pulse2.clockLength.clockSweep false
    triangle := a.triangle.clockLength
    noise := a.noise.clockLength }

/-- `DoStep(s)` (63 R419, R420). -/
def Apu.doStep (a : Apu) (step : Nat) : Apu :=
  if a.fsMode then
    let a := if step ≠ 3 then a.quarterFrame else a
    if step = 1 ∨ step = 4 then a.halfFrame else a
  else
    let a := a.quarterFrame
    let a := if step = 1 ∨ step = 3 then a.halfFrame else a
    { a with frameIrq := a.frameIrq || (step == 3 && !a.fsInhibit) }

/-- `FrameSequencer()` with `FRAME_SEQ_STEP = period` (63 R418). -/
def Apu.frameSequencer (a : Apu) (period : Nat) : Apu :=
  let count := a.fsCount + 1
  if count.toNat = period then
    { a.doStep a.fsStep.toNat with
      fsCount := 0
      fsStep := BitVec.ofNat 3 ((a.fsStep.toNat + 1) % (if a.fsMode then 5 else 4)) }
  else { a with fsCount := count }

/-! ## Registers -/

/-- A pulse register write at offset 0 to 3 (63 R395). -/
def Pulse.write (p : Pulse) (offset : Nat) (d : Byte) : Pulse :=
  match offset with
  | 0 =>
    { p with
      duty := d.extractLsb' 6 2
      halt := bitOf d 5
      env := { p.env with const := bitOf d 4, vol := d.extractLsb' 0 4 } }
  | 1 =>
    { p with
      swEnable := bitOf d 7
      swPeriod := d.extractLsb' 4 3
      swNegate := bitOf d 3
      swShift := d.extractLsb' 0 3
      swReload := true }
  | 2 => { p with timerPeriod := p.timerPeriod.extractLsb' 8 3 ++ d }
  | 3 =>
    { p with
      timerPeriod := d.extractLsb' 0 3 ++ p.timerPeriod.extractLsb' 0 8
      length := if p.enabled then lengthLoad d else p.length
      seq := 0
      env := { p.env with start := true } }
  | _ => p

/-- A triangle register write at offset 0 to 3 from `$4008` (63 R396). -/
def Triangle.write (t : Triangle) (offset : Nat) (d : Byte) : Triangle :=
  match offset with
  | 0 => { t with control := bitOf d 7, linReloadVal := d.extractLsb' 0 7 }
  | 2 => { t with timerPeriod := t.timerPeriod.extractLsb' 8 3 ++ d }
  | 3 =>
    { t with
      timerPeriod := d.extractLsb' 0 3 ++ t.timerPeriod.extractLsb' 0 8
      length := if t.enabled then lengthLoad d else t.length
      linReload := true }
  | _ => t

/-- A noise register write at offset 0 to 3 from `$400C` (63 R397). -/
def Noise.write (n : Noise) (offset : Nat) (d : Byte) : Noise :=
  match offset with
  | 0 =>
    { n with halt := bitOf d 5, env := { n.env with const := bitOf d 4, vol := d.extractLsb' 0 4 } }
  | 2 => { n with mode := bitOf d 7, periodIdx := d.extractLsb' 0 4 }
  | 3 =>
    { n with
      length := if n.enabled then lengthLoad d else n.length
      env := { n.env with start := true } }
  | _ => n

/-- A DMC register write at offset 0 to 3 from `$4010` (63 R398). -/
def Dmc.write (c : Dmc) (offset : Nat) (d : Byte) : Dmc :=
  match offset with
  | 0 => { c with irqEnable := bitOf d 7, loop := bitOf d 6, rateIdx := d.extractLsb' 0 4 }
  | 1 => { c with level := d.extractLsb' 0 7 }
  | 2 => { c with sampleAddr := 0xC000 + 64 * zext16 d }
  | 3 => { c with sampleLen := 16 * d.setWidth 12 + 1 }
  | _ => c

/-- The DMC restarts or stops at a `$4015` write (63 R399). -/
def Dmc.enable (c : Dmc) (on : Bool) : Dmc :=
  if !on then { c with bytesLeft := 0 }
  else if c.bytesLeft = 0 then { c with curAddr := c.sampleAddr, bytesLeft := c.sampleLen }
  else c

/-- A `$4015` write (63 R399). -/
def Apu.writeEnables (a : Apu) (d : Byte) : Apu :=
  { a with
    pulse1 := { a.pulse1 with
      enabled := bitOf d 0, length := if bitOf d 0 then a.pulse1.length else 0 }
    pulse2 := { a.pulse2 with
      enabled := bitOf d 1, length := if bitOf d 1 then a.pulse2.length else 0 }
    triangle := { a.triangle with
      enabled := bitOf d 2, length := if bitOf d 2 then a.triangle.length else 0 }
    noise := { a.noise with
      enabled := bitOf d 3, length := if bitOf d 3 then a.noise.length else 0 }
    dmc := a.dmc.enable (bitOf d 4)
    dmcIrq := false }

/-- A `$4017` write (63 R401). -/
def Apu.writeSequencer (a : Apu) (d : Byte) : Apu :=
  let a :=
    { a with
      fsMode := bitOf d 7
      fsInhibit := bitOf d 6
      frameIrq := if bitOf d 6 then false else a.frameIrq
      fsCount := 0
      fsStep := 0 }
  if bitOf d 7 then a.quarterFrame.halfFrame else a

/-- `ApuRegWrite(0x4000 + r, d)` (61 R301, 63 R395 to R401). -/
def Apu.writeReg (a : Apu) (r : Nat) (d : Byte) : Apu :=
  if r < 0x04 then { a with pulse1 := a.pulse1.write r d }
  else if r < 0x08 then { a with pulse2 := a.pulse2.write (r - 0x04) d }
  else if r < 0x0C then { a with triangle := a.triangle.write (r - 0x08) d }
  else if r < 0x10 then { a with noise := a.noise.write (r - 0x0C) d }
  else if r < 0x14 then
    { a with
      dmc := a.dmc.write (r - 0x10) d
      dmcIrq := if r = 0x10 ∧ bitOf d 7 = false then false else a.dmcIrq }
  else if r = 0x15 then a.writeEnables d
  else if r = 0x17 then a.writeSequencer d
  else a

/-- The value of a `$4015` read (63 R400). -/
def Apu.statusByte (a : Apu) : Byte :=
  boolByte (a.pulse1.length != 0) ||| (boolByte (a.pulse2.length != 0) <<< 1) |||
  (boolByte (a.triangle.length != 0) <<< 2) ||| (boolByte (a.noise.length != 0) <<< 3) |||
  (boolByte (a.dmc.bytesLeft != 0) <<< 4) ||| (boolByte a.frameIrq <<< 6) ||| (boolByte a.dmcIrq <<< 7)

/-! ## Mixer and resampler -/

/-- The mixer's two table indexes (63 R430). -/
def Apu.mix (a : Apu) : MixSample :=
  { pulse := a.pulse1.out true + a.pulse2.out false
    tnd := 3 * triTable a.triangle.seq.toNat + 2 * a.noise.out + a.dmc.level.toNat }

/-- `PULSE_TABLE[n] = 95.52 / (8128 / n + 100)`, and 0 at 0 (63 R430), as an exact rational. -/
def pulseTable (n : Nat) : Rat := if n = 0 then 0 else (9552 / 100) / (8128 / n + 100)

/-- `TND_TABLE[n] = 163.67 / (24329 / n + 100)`, and 0 at 0 (63 R430), as an exact rational. -/
def tndTable (n : Nat) : Rat := if n = 0 then 0 else (16367 / 100) / (24329 / n + 100)

/-- The value of a sample, `Mix` (63 R430). -/
def mixValue (m : MixSample) : Rat := pulseTable m.pulse + tndTable m.tnd

/-- The accumulator reaches `CPU_HZ` in this tick, so a sample is emitted (63 R432). -/
def resampleFires (cfg : Config) (acc : BitVec 64) : Bool :=
  decide (cfg.cpuHz ≤ acc.toNat + cfg.sampleRate)

/-- The accumulator after `Resample()` (63 R432). -/
def resampleAcc (cfg : Config) (acc : BitVec 64) : BitVec 64 :=
  BitVec.ofNat 64 (acc.toNat + cfg.sampleRate - (if resampleFires cfg acc then cfg.cpuHz else 0))

/-- `Resample()` (63 R432): the emitted sample goes to the end of the host's queue. -/
def resample (s : State) : State :=
  { s with
    audio := s.audio ++ (if resampleFires s.cfg s.apu.acc then [s.apu.mix] else [])
    apu := { s.apu with acc := resampleAcc s.cfg s.apu.acc } }

end Sys2Proof.Machine
end

