-- ==== Sys2Proof/Machine/Cartridge.lean ====
section
/-! DEFINITION. The cartridge and mapper layer, mappers 0, 1, 2, 3, 4 and 65 (spec 64_mapper.md). Bank
numbers are reduced modulo the image (64 R452 to R454). -/

namespace Sys2Proof.Machine

/-- `prg_size` (64 R451). -/
def Cartridge.prgSize (c : Cartridge) : Nat := 16384 * c.prgUnits

/-- The cartridge has CHR RAM: it ships no CHR ROM (64 R451), or the mapper is number 2, whose CHR is
always RAM (64 R470). -/
def usesChrRam (c : Cartridge) (m : Mapper) : Bool :=
  c.chrUnits == 0 || (match m with | .uxrom _ => true | _ => false)

/-- Size of the memory behind the pattern tables (64 R451, R454). -/
def chrMemSize (c : Cartridge) (m : Mapper) : Nat :=
  if usesChrRam c m then 8192 else 8192 * c.chrUnits

/-! ## Windows -/

/-- Mapper 1, 16 KB PRG windows `k` = 0, 1 over `banks` banks (64 R465). -/
def mmc1PrgBank (r : Mmc1) (banks k : Nat) : Nat :=
  match (r.control.extractLsb' 2 2).toNat with
  | 2 => if k = 0 then 0 else (r.prg.extractLsb' 0 4).toNat
  | 3 => if k = 0 then (r.prg.extractLsb' 0 4).toNat else banks - 1
  | _ => (r.prg.extractLsb' 1 3).toNat * 2 + k

/-- Mapper 1, 4 KB CHR windows `k` = 0, 1 (64 R465). -/
def mmc1ChrBank (r : Mmc1) (k : Nat) : Nat :=
  if bitOf r.control 4 then (if k = 0 then r.chr0.toNat else r.chr1.toNat)
  else (r.chr0.extractLsb' 1 4).toNat * 2 + k

/-- Mapper 4, 8 KB PRG windows `k` = 0 to 3 over `banks` banks (64 R476). -/
def mmc3PrgBank (r : Mmc3) (banks k : Nat) : Nat :=
  match k with
  | 0 => if bitOf r.select 6 then banks - 2 else (get8 r.r 6).toNat
  | 1 => (get8 r.r 7).toNat
  | 2 => if bitOf r.select 6 then (get8 r.r 6).toNat else banks - 2
  | _ => banks - 1

/-- Mapper 4, 1 KB CHR windows `k` = 0 to 7 (64 R478). -/
def mmc3ChrBank (r : Mmc3) (k : Nat) : Nat :=
  let j := if bitOf r.select 7 then (k + 4) % 8 else k
  match j with
  | 0 => (get8 r.r 0 &&& 0xFE).toNat
  | 1 => (get8 r.r 0 ||| 1).toNat
  | 2 => (get8 r.r 1 &&& 0xFE).toNat
  | 3 => (get8 r.r 1 ||| 1).toNat
  | 4 => (get8 r.r 2).toNat
  | 5 => (get8 r.r 3).toNat
  | 6 => (get8 r.r 4).toNat
  | _ => (get8 r.r 5).toNat

/-- Mapper 65, 8 KB PRG windows `k` = 0 to 3 over `banks` banks (64 R486). -/
def m65PrgBank (r : Mapper65) (banks k : Nat) : Nat :=
  match k with
  | 0 => if r.layout then r.p2.toNat else r.p0.toNat
  | 1 => r.p1.toNat
  | 2 => if r.layout then r.p0.toNat else r.p2.toNat
  | _ => banks - 1

/-- Window size and bank shown at offset `o` = `addr - 0x8000`, for a PRG image of `size` bytes
(64 R460, R465, R470, R473, R476, R486). -/
def prgWindow (m : Mapper) (size o : Nat) : Nat × Nat :=
  match m with
  | .nrom => (32768, 0)
  | .mmc1 r => (16384, mmc1PrgBank r (size / 16384) (o / 16384))
  | .uxrom bank => (16384, if o / 16384 = 0 then bank.toNat else size / 16384 - 1)
  | .cnrom _ => (32768, 0)
  | .mmc3 r => (8192, mmc3PrgBank r (size / 8192) (o / 8192))
  | .m65 r => (8192, m65PrgBank r (size / 8192) (o / 8192))

/-- Window size and bank shown at picture-unit address `a` below 0x2000 (64 R461, R465, R470, R473, R478,
R487). -/
def chrWindow (m : Mapper) (a : Nat) : Nat × Nat :=
  match m with
  | .nrom => (8192, 0)
  | .mmc1 r => (4096, mmc1ChrBank r (a / 4096))
  | .uxrom _ => (8192, 0)
  | .cnrom bank => (8192, bank.toNat)
  | .mmc3 r => (1024, mmc3ChrBank r (a / 1024))
  | .m65 r => (1024, (get8 r.c (BitVec.ofNat 3 (a / 1024))).toNat)

/-- Offset in the PRG image of CPU address `addr` in `$8000-$FFFF` (64 R453). -/
def prgOffset (c : Cartridge) (m : Mapper) (addr : Word) : Nat :=
  let o := addr.toNat - 0x8000
  let sb := prgWindow m c.prgSize o
  (sb.2 * sb.1 + o % sb.1) % c.prgSize

/-- Index in the CHR memory of picture-unit address `a` below 0x2000 (64 R454). -/
def chrIndex (c : Cartridge) (m : Mapper) (a : Nat) : Nat :=
  let sb := chrWindow m a
  (sb.2 * sb.1 + a % sb.1) % chrMemSize c m

/-- `ReadPRG(addr)` (64 R453). -/
def readPrg (s : State) (addr : Word) : Byte := s.cart.prg.read (prgOffset s.cart s.mapper addr)

/-- `ReadCHR(a)` (64 R454). -/
def readChr (s : State) (a : Nat) : Byte :=
  let i := chrIndex s.cart s.mapper a
  if usesChrRam s.cart s.mapper then s.chrRam.read i else s.cart.chr.read i

/-- `WriteCHR(a, d)`: stores in CHR RAM, does nothing with CHR ROM (64 R454). -/
def writeChr (s : State) (a : Nat) (d : Byte) : State :=
  if usesChrRam s.cart s.mapper then
    { s with chrRam := s.chrRam.write (chrIndex s.cart s.mapper a) d }
  else s

/-! ## Register writes -/

/-- Mapper 1's mirroring by `control` bits 1:0 (64 R464). -/
def mmc1Mirroring (control : BitVec 5) : Mirroring :=
  match (control.extractLsb' 0 2).toNat with
  | 0 => .singleLower
  | 1 => .singleUpper
  | 2 => .vertical
  | _ => .horizontal

/-- Mapper 1's registers after a write (64 R463). -/
def mmc1Write (r : Mmc1) (addr : Word) (d : Byte) : Mmc1 :=
  if bitOf d 7 then { r with shift := 0x10, control := r.control ||| 0x0C }
  else
    let sh := (r.shift >>> 1) ||| (if bitOf d 0 then 0x10 else 0)
    if bitOf r.shift 0 then
      match (addr.extractLsb' 13 2).toNat with
      | 0 => { r with shift := 0x10, control := sh }
      | 1 => { r with shift := 0x10, chr0 := sh }
      | 2 => { r with shift := 0x10, chr1 := sh }
      | _ => { r with shift := 0x10, prg := sh }
    else { r with shift := sh }

/-- The write is the fifth of a sequence and selects `control`, so mirroring is notified (64 R463). -/
def mmc1Notifies (r : Mmc1) (addr : Word) (d : Byte) : Bool :=
  !bitOf d 7 && bitOf r.shift 0 && (addr.extractLsb' 13 2).toNat == 0

/-- Mapper 4's registers after a write, by `addr & 0xE001` (64 R475). -/
def mmc3Write (r : Mmc3) (addr : Word) (d : Byte) : Mmc3 :=
  match (addr &&& 0xE001).toNat with
  | 0x8000 => { r with select := d }
  | 0x8001 => { r with r := set8 r.r (r.select.extractLsb' 0 3) d }
  | 0xC000 => { r with irqLatch := d }
  | 0xC001 => { r with irqReload := true }
  | 0xE000 => { r with irqEnable := false, irqFlag := false }
  | 0xE001 => { r with irqEnable := true }
  | _ => r

/-- Mapper 65's registers after a write, by exact address (64 R484). -/
def m65Write (r : Mapper65) (addr : Word) (d : Byte) : Mapper65 :=
  match addr.toNat with
  | 0x8000 => { r with p0 := d }
  | 0x9000 => { r with layout := bitOf d 7 }
  | 0x9003 => { r with irqEnable := bitOf d 7, irqFlag := false }
  | 0x9004 => { r with irqCounter := r.irqReloadVal, irqFlag := false }
  | 0x9005 => { r with irqReloadVal := word d (lo r.irqReloadVal) }
  | 0x9006 => { r with irqReloadVal := word (hi r.irqReloadVal) d }
  | 0xA000 => { r with p1 := d }
  | 0xC000 => { r with p2 := d }
  | n =>
    if 0xB000 ≤ n ∧ n ≤ 0xB007 then { r with c := set8 r.c (BitVec.ofNat 3 (n - 0xB000)) d } else r

/-- The mapper's registers after a write to `$8000-$FFFF` (64 R460, R463, R470, R473, R475, R484). -/
def mapperWrite (m : Mapper) (addr : Word) (d : Byte) : Mapper :=
  match m with
  | .nrom => .nrom
  | .mmc1 r => .mmc1 (mmc1Write r addr d)
  | .uxrom _ => .uxrom d
  | .cnrom _ => .cnrom d
  | .mmc3 r => .mmc3 (mmc3Write r addr d)
  | .m65 r => .m65 (m65Write r addr d)

/-- The mirroring mode a register write notifies, if it notifies one (64 R455, R463, R475, R484). -/
def mapperNotifies (m : Mapper) (addr : Word) (d : Byte) : Option Mirroring :=
  match m with
  | .mmc1 r => if mmc1Notifies r addr d then some (mmc1Mirroring (mmc1Write r addr d).control) else none
  | .mmc3 _ =>
    if addr &&& 0xE001 = 0xA000 then some (if bitOf d 0 then .horizontal else .vertical) else none
  | .m65 _ => if addr = 0x9001 then some (if bitOf d 7 then .horizontal else .vertical) else none
  | .nrom | .uxrom _ | .cnrom _ => none

/-- `WritePRG(addr, d)`: mapper registers, never ROM (64 R450, R453, R456). -/
def writePrg (s : State) (addr : Word) (d : Byte) : State :=
  { s with
    mapper := mapperWrite s.mapper addr d
    ppu := { s.ppu with mirroring := (mapperNotifies s.mapper addr d).getD s.ppu.mirroring } }

/-! ## Hooks, interrupt flag, reset -/

/-- `irq_flag`; constant 0 on the mappers without an interrupt (64 R450). -/
def Mapper.irqFlag : Mapper → Bool
  | .mmc3 r => r.irqFlag
  | .m65 r => r.irqFlag
  | .nrom | .mmc1 _ | .uxrom _ | .cnrom _ => false

/-- Mapper 4's counter at the scanline hook (64 R481). -/
def mmc3Count (r : Mmc3) : Mmc3 :=
  let counter := if r.irqCounter = 0 || r.irqReload then r.irqLatch else r.irqCounter - 1
  { r with
    irqCounter := counter
    irqReload := if r.irqCounter = 0 || r.irqReload then false else r.irqReload
    irqFlag := r.irqFlag || (counter == 0 && r.irqEnable) }

/-- `ScanlineHook()`: only mapper 4 does anything (64 R450, R481). -/
def Mapper.scanlineHook : Mapper → Mapper
  | .mmc3 r => .mmc3 (mmc3Count r)
  | .nrom => .nrom
  | .mmc1 r => .mmc1 r
  | .uxrom b => .uxrom b
  | .cnrom b => .cnrom b
  | .m65 r => .m65 r

/-- Mapper 65's timer at the cycle hook (64 R489). -/
def m65Count (r : Mapper65) : Mapper65 :=
  if r.irqEnable && r.irqCounter != 0 then
    { r with irqCounter := r.irqCounter - 1, irqFlag := r.irqFlag || r.irqCounter == 1 }
  else r

/-- `CycleHook()`: only mapper 65 does anything (64 R450, R489). -/
def Mapper.cycleHook : Mapper → Mapper
  | .m65 r => .m65 (m65Count r)
  | .nrom => .nrom
  | .mmc1 r => .mmc1 r
  | .uxrom b => .uxrom b
  | .cnrom b => .cnrom b
  | .mmc3 r => .mmc3 r

/-- The mapper's registers after reset, for a cartridge (64 R462, R466, R471, R474, R477, R485). Mapper
65's `p[2]` is the low byte of the bank number: log entry 13. -/
def Mapper.afterReset (c : Cartridge) : Mapper → Mapper
  | .nrom => .nrom
  | .mmc1 _ => .mmc1 { shift := 0x10, control := 0x0C, chr0 := 0, chr1 := 0, prg := 0 }
  | .uxrom _ => .uxrom 0
  | .cnrom _ => .cnrom 0
  | .mmc3 _ =>
    .mmc3
      { select := 0, r := #v[0, 2, 4, 5, 6, 7, 0, 1], irqLatch := 0, irqCounter := 0
        irqReload := false, irqEnable := false, irqFlag := false }
  | .m65 _ =>
    .m65
      { p0 := 0, p1 := 1, p2 := BitVec.ofNat 8 (c.prgSize / 8192 - 2), layout := false
        c := #v[0, 1, 2, 3, 4, 5, 6, 7], irqEnable := false, irqCounter := 0, irqReloadVal := 0
        irqFlag := false }

/-- The mirroring mode a mapper's reset notifies: mapper 1 alone, one-screen-lower (64 R466, R477). -/
def Mapper.resetMirroring : Mapper → Option Mirroring
  | .mmc1 _ => some .singleLower
  | .nrom | .uxrom _ | .cnrom _ | .mmc3 _ | .m65 _ => none

end Sys2Proof.Machine
end

