-- ==== Sys2Proof/Machine/Picture.lean ====
section
/-! DEFINITION. The picture unit: its eight registers, its address space, and the dot state machine
(spec 62_ppu.md). -/

namespace Sys2Proof.Machine

/-! ## Address space -/

/-- `NtIndex(a)` (62 R346). -/
def ntIndex (m : Mirroring) (a : Nat) : Nat :=
  let n := a / 1024 % 4
  let page := match m with
    | .horizontal => n / 2
    | .vertical => n % 2
    | .singleLower => 0
    | .singleUpper => 1
  1024 * page + a % 1024

/-- `PalIndex(i)` (62 R347). -/
def palIndex (i : Nat) : Nat := if i &&& 0x13 = 0x10 then i &&& 0x0F else i

/-- `PpuRead(a)` for a 14-bit `a` (62 R345); no side effect. -/
def ppuRead (s : State) (a : Nat) : Byte :=
  if a < 0x2000 then readChr s a
  else if a < 0x3F00 then s.ppu.vram.read (ntIndex s.ppu.mirroring a)
  else s.ppu.pal.read (palIndex (a &&& 0x1F))

/-- `PpuWrite(a, d)` for a 14-bit `a` (62 R345). -/
def ppuWrite (s : State) (a : Nat) (d : Byte) : State :=
  if a < 0x2000 then writeChr s a d
  else if a < 0x3F00 then
    { s with ppu := { s.ppu with vram := s.ppu.vram.write (ntIndex s.ppu.mirroring a) d } }
  else
    { s with ppu := { s.ppu with pal := s.ppu.pal.write (palIndex (a &&& 0x1F)) (d &&& 0x3F) } }

/-! ## Registers -/

/-- `rendering_enabled` (62 R349). -/
def Ppu.rendering (p : Ppu) : Bool := bitOf p.mask 3 || bitOf p.mask 4

/-- The position is on a line the unit renders: 0 to 239 or 261 (62 R340, R348). -/
def Ppu.onRenderLine (p : Ppu) : Bool := decide (p.scanline ≤ 239) || p.scanline == 261

/-- `v` after the increment of a PPUDATA access (62 R343, R344). -/
def Ppu.stepAddress (p : Ppu) : BitVec 15 := p.v + (if bitOf p.ctrl 2 then 32 else 1)

/-- A read of `$2002` (62 R338). -/
def readStatus (s : State) : Byte × State :=
  let p := s.ppu
  let result := (p.status &&& 0xE0) ||| (p.ioLatch &&& 0x1F)
  (result,
    { s with ppu := { p with
        status := p.status &&& 0x7F
        w := false
        suppressVbl := p.suppressVbl || (p.scanline == 241 && p.dot == 1)
        ioLatch := result } })

/-- A read of `$2004` (62 R340). -/
def readOamData (s : State) : Byte × State :=
  let p := s.ppu
  let result := if p.rendering && p.onRenderLine then 0xFF else p.oam.read p.oamAddr.toNat
  (result, { s with ppu := { p with ioLatch := result } })

/-- A read of `$2007` (62 R344). -/
def readPpuData (s : State) : Byte × State :=
  let p := s.ppu
  let a := p.v.toNat % 0x4000
  let result := if a < 0x3F00 then p.buffer else ppuRead s a
  let buffer := if a < 0x3F00 then ppuRead s a else ppuRead s (a - 0x1000)
  (result, { s with ppu := { p with buffer := buffer, v := p.stepAddress, ioLatch := result } })

/-- `PpuRegRead(r)` (62 R335, R338, R340, R344); a write-only register reads the I/O latch. -/
def ppuRegRead (s : State) (r : Nat) : Byte × State :=
  match r with
  | 2 => readStatus s
  | 4 => readOamData s
  | 7 => readPpuData s
  | _ => (s.ppu.ioLatch, s)

/-- A write of `$2000` newly enables NMI while the vblank flag is set, the first time in this vblank
period (62 R363). -/
def Ppu.ctrlFiresNmi (p : Ppu) (d : Byte) : Bool :=
  !bitOf p.ctrl 7 && bitOf d 7 && bitOf p.status 7 && !p.nmiSent

/-- A write of `$2000` (62 R336, R363). -/
def writeCtrl (s : State) (d : Byte) : State :=
  let p := s.ppu
  let fire := p.ctrlFiresNmi d
  { s with
    ppu := { p with
      ctrl := d
      t := (p.t &&& 0x73FF) ||| ((d &&& 3).setWidth 15 <<< 10)
      nmiSent := p.nmiSent || fire }
    cpu := { s.cpu with latch := { s.cpu.latch with nmi := s.cpu.latch.nmi || fire } } }

/-- A write of `$2005` (62 R341). -/
def Ppu.writeScroll (p : Ppu) (d : Byte) : Ppu :=
  if p.w then
    { p with
      t := (p.t &&& 0x0C1F) ||| ((d &&& 7).setWidth 15 <<< 12) ||| ((d >>> 3).setWidth 15 <<< 5)
      w := false }
  else
    { p with t := (p.t &&& 0x7FE0) ||| (d >>> 3).setWidth 15, x := d.extractLsb' 0 3, w := true }

/-- A write of `$2006` (62 R342). -/
def Ppu.writeAddr (p : Ppu) (d : Byte) : Ppu :=
  if p.w then
    let t := (p.t &&& 0x7F00) ||| d.setWidth 15
    { p with t := t, v := t, w := false }
  else
    { p with t := (p.t &&& 0x00FF) ||| ((d &&& 0x3F).setWidth 15 <<< 8), w := true }

/-- A write of `$2004` (62 R340). -/
def Ppu.writeOamData (p : Ppu) (d : Byte) : Ppu :=
  { p with oam := p.oam.write p.oamAddr.toNat d, oamAddr := p.oamAddr + 1 }

/-- A write of `$2007` (62 R343). -/
def writePpuData (s : State) (d : Byte) : State :=
  let s' := ppuWrite s (s.ppu.v.toNat % 0x4000) d
  { s' with ppu := { s'.ppu with v := s'.ppu.stepAddress } }

/-- The I/O latch takes every byte written to the register port (62 R335). -/
def setIoLatch (s : State) (d : Byte) : State := { s with ppu := { s.ppu with ioLatch := d } }

/-- `PpuRegWrite(r, d)` (62 R335 to R343). -/
def ppuRegWrite (s : State) (r : Nat) (d : Byte) : State :=
  let s := setIoLatch s d
  match r with
  | 0 => writeCtrl s d
  | 1 => { s with ppu := { s.ppu with mask := d } }
  | 3 => { s with ppu := { s.ppu with oamAddr := d } }
  | 4 => { s with ppu := s.ppu.writeOamData d }
  | 5 => { s with ppu := s.ppu.writeScroll d }
  | 6 => { s with ppu := s.ppu.writeAddr d }
  | 7 => writePpuData s d
  | _ => s

/-! ## Background -/

/-- `IncrementCoarseX()` (62 R355). -/
def incCoarseX (v : BitVec 15) : BitVec 15 :=
  if v &&& 0x001F = 0x001F then (v &&& 0x7FE0) ^^^ 0x0400 else v + 1

/-- `IncrementY()` (62 R356). -/
def incY (v : BitVec 15) : BitVec 15 :=
  if v &&& 0x7000 ≠ 0x7000 then v + 0x1000
  else
    let v := v &&& 0x0FFF
    if v &&& 0x03E0 = 0x03A0 then (v &&& 0x7C1F) ^^^ 0x0800
    else if v &&& 0x03E0 = 0x03E0 then v &&& 0x7C1F
    else v + 0x0020

/-- `v` with the horizontal bits of `t` (62 R357). -/
def reloadX (v t : BitVec 15) : BitVec 15 := (v &&& 0x7BE0) ||| (t &&& 0x041F)

/-- `v` with the vertical bits of `t` (62 R351). -/
def reloadY (v t : BitVec 15) : BitVec 15 := (v &&& 0x041F) ||| (t &&& 0x7BE0)

/-- The attribute byte's address (62 R353, k = 3). -/
def attrAddress (v : Nat) : Nat :=
  0x23C0 ||| (v &&& 0x0C00) ||| ((v >>> 4) &&& 0x38) ||| ((v >>> 2) &&& 0x07)

/-- The two attribute bits of the tile at `v` (62 R353, k = 3). -/
def attrBits (v : Nat) (b : Byte) : BitVec 2 :=
  (b >>> (((v >>> 4) &&& 4) ||| (v &&& 2))).extractLsb' 0 2

/-- The background pattern address (62 R353, k = 5). -/
def Ppu.patternAddress (p : Ppu) : Nat :=
  (if bitOf p.ctrl 4 then 0x1000 else 0) + p.ntLatch.toNat * 16 + (p.v.extractLsb' 12 3).toNat

/-- `ShiftTile()` (62 R354). -/
def Ppu.shiftTile (p : Ppu) : Ppu :=
  { p with
    bgLo := word (lo p.bgLo) p.plLatch
    bgHi := word (lo p.bgHi) p.phLatch
    atCur := p.atNext
    atNext := p.atLatch }

/-- `BackgroundDot()` (62 R353). -/
def backgroundDot (s : State) : Ppu :=
  let p := s.ppu
  match p.dot % 8 with
  | 1 => { p with ntLatch := ppuRead s (0x2000 ||| (p.v.toNat &&& 0x0FFF)) }
  | 3 => { p with atLatch := attrBits p.v.toNat (ppuRead s (attrAddress p.v.toNat)) }
  | 5 => { p with plLatch := ppuRead s p.patternAddress }
  | 7 => { p with phLatch := ppuRead s (p.patternAddress ||| 8) }
  | 0 => { p.shiftTile with v := incCoarseX p.v }
  | _ => p

/-! ## Sprites -/

/-- Sprite height by PPUCTRL bit 5 (62 R359). -/
def Ppu.spriteHeight (p : Ppu) : Nat := if bitOf p.ctrl 5 then 16 else 8

/-- The scan of 62 R359 over the sprites `is`, from the list and count so far: the list, the count, and
whether a ninth sprite matched. -/
def scanSprites (oam : Memory) (line h : Nat) :
    List Nat → Vector (BitVec 6) 8 → Nat → Vector (BitVec 6) 8 × Nat × Bool
  | [], list, count => (list, count, false)
  | i :: is, list, count =>
    let y := (oam.read (4 * i)).toNat
    if y ≤ line ∧ line < y + h then
      if count < 8 then
        scanSprites oam line h is (set8 list (BitVec.ofNat 3 count) (BitVec.ofNat 6 i)) (count + 1)
      else (list, count, true)
    else scanSprites oam line h is list count

/-- `EvaluateSprites()` (62 R359). -/
def Ppu.evaluateSprites (p : Ppu) : Ppu :=
  if p.scanline = 261 || !p.rendering then { p with spriteCount := 0 }
  else
    let r := scanSprites p.oam p.scanline p.spriteHeight (List.range 64) p.spriteList 0
    { p with
      spriteList := r.1
      spriteCount := BitVec.ofNat 4 r.2.1
      status := if r.2.2 then p.status ||| 0x20 else p.status }

/-- A sprite pixel: colour, palette, in front of the background, of sprite 0 (62 R360). -/
structure SpritePixel where
  color : Nat
  palette : Nat
  front : Bool
  isZero : Bool
deriving DecidableEq, Repr

/-- No sprite pixel. -/
def noSprite : SpritePixel := { color := 0, palette := 0, front := false, isZero := false }

/-- The two pattern bits of a tile row in a column (62 R358, R360): bit `i` of the high and low byte. -/
def twoBits (hiByte loByte : Byte) (i : Nat) : Nat :=
  (if bitOf hiByte i then 2 else 0) + (if bitOf loByte i then 1 else 0)

/-- The pattern address of row `r` of tile `t` (62 R360). -/
def Ppu.spriteAddress (p : Ppu) (t : Byte) (r : Nat) : Nat :=
  if bitOf p.ctrl 5 then
    (if bitOf t 0 then 0x1000 else 0) + ((t &&& 0xFE).toNat + r / 8) * 16 + r % 8
  else (if bitOf p.ctrl 3 then 0x1000 else 0) + t.toNat * 16 + r

/-- The pixel of sprite `i` at (`px`, `line`), if the sprite covers it with a non-zero colour (62 R360). -/
def spriteAt (s : State) (i px line : Nat) : Option SpritePixel :=
  let p := s.ppu
  let y := (p.oam.read (4 * i)).toNat
  let tile := p.oam.read (4 * i + 1)
  let attr := p.oam.read (4 * i + 2)
  let x := (p.oam.read (4 * i + 3)).toNat
  let h := p.spriteHeight
  if px < x ∨ x + 7 < px ∨ line < y + 1 ∨ y + h < line then none
  else
    let c := if bitOf attr 6 then 7 - (px - x) else px - x
    let r := if bitOf attr 7 then h - 1 - (line - 1 - y) else line - 1 - y
    let addr := p.spriteAddress tile r
    let color := twoBits (ppuRead s (addr ||| 8)) (ppuRead s addr) (7 - c)
    if color = 0 then none
    else some
      { color := color, palette := (attr.extractLsb' 0 2).toNat, front := !bitOf attr 5
        isZero := i == 0 }

/-- The sprite indexes in the list, in order (62 R359, R360). -/
def Ppu.sprites (p : Ppu) : List Nat := (p.spriteList.toList.take p.spriteCount.toNat).map BitVec.toNat

/-- `SpritePixel(px, line)` (62 R360). -/
def spritePixel (s : State) (px line : Nat) : SpritePixel :=
  (s.ppu.sprites.findSome? fun i => spriteAt s i px line).getD noSprite

/-! ## Pixel output -/

/-- The background pattern value at column `px` before masking (62 R358). -/
def Ppu.backgroundBits (p : Ppu) (px : Nat) : Nat :=
  let i := 15 - (px % 8 + p.x.toNat)
  (if bitOf p.bgHi i then 2 else 0) + (if bitOf p.bgLo i then 1 else 0)

/-- The palette select of the background at column `px` (62 R358). -/
def Ppu.backgroundPalette (p : Ppu) (px : Nat) : Nat :=
  if px % 8 + p.x.toNat < 8 then p.atCur.toNat else p.atNext.toNat

/-- `OutputPixel(px, line)` (62 R358). -/
def outputPixel (s : State) (px line : Nat) : Ppu :=
  let p := s.ppu
  let bgOn := bitOf p.mask 3 && (decide (8 ≤ px) || bitOf p.mask 1)
  let bp := if bgOn then p.backgroundBits px else 0
  let sprite := spritePixel s px line
  let spOn := bitOf p.mask 4 && (decide (8 ≤ px) || bitOf p.mask 2)
  let sp := if spOn then sprite.color else 0
  let hit := sp != 0 && bp != 0 && sprite.isZero && bitOf p.mask 3
  let idx :=
    if sp ≠ 0 ∧ (bp = 0 ∨ sprite.front = true) then 0x10 + sprite.palette * 4 + sp
    else if bp ≠ 0 then p.backgroundPalette px * 4 + bp
    else 0
  { p with
    status := if hit then p.status ||| 0x40 else p.status
    frameDraw := p.frameDraw.write (256 * line + px) (p.pal.read (palIndex idx) &&& 0x3F) }

/-! ## The dot state machine -/

/-- `PreRenderClear()` (62 R350). -/
def Ppu.preRenderClear (p : Ppu) : Ppu := { p with status := p.status &&& 0x1F, nmiSent := false }

/-- The finished frame is published and the other buffer is drawn into (61 R322, 62 R361), whether or not
the flag's set is suppressed (log entry 10). PPUMASK's greyscale and emphasis bits go with it (62 R337), as they
stand at that dot (log entry 21). -/
def Ppu.publishFrame (p : Ppu) : Ppu :=
  { p with
    frameShown := p.frameDraw
    frameDraw := p.frameShown
    shownGreyscale := bitOf p.mask 0
    shownEmphasis := p.mask.extractLsb' 5 3 }

/-- `VblankSet()` (62 R361, R362). -/
def vblankSet (s : State) : State :=
  let p := s.ppu.publishFrame
  if p.suppressVbl then { s with ppu := { p with suppressVbl := false } }
  else
    let fire := bitOf p.ctrl 7
    { s with
      ppu := { p with status := p.status ||| 0x80, nmiSent := p.nmiSent || fire }
      cpu := { s.cpu with latch := { s.cpu.latch with nmi := s.cpu.latch.nmi || fire } } }

/-- The work of a dot on a visible or pre-render line (62 R348, the inner block). -/
def renderLineDot (s : State) : State :=
  let line := s.ppu.scanline
  let dot := s.ppu.dot
  let fetchDot := decide (1 ≤ dot ∧ dot ≤ 256) || decide (321 ≤ dot ∧ dot ≤ 336)
  let bg := bitOf s.ppu.mask 3
  let p := if fetchDot && bg then backgroundDot s else s.ppu
  let p := if dot = 256 && bg then { p with v := incY p.v } else p
  let p := if dot = 256 then p.evaluateSprites else p
  let p := if dot = 257 && p.rendering then { p with v := reloadX p.v p.t } else p
  let p :=
    if line = 261 && decide (280 ≤ dot ∧ dot ≤ 304) && p.rendering then
      { p with v := reloadY p.v p.t }
    else p
  { s with ppu := p }

/-- The work of the dot at the position, in the order of 62 R348. -/
def ppuDot (s : State) : State :=
  let line := s.ppu.scanline
  let dot := s.ppu.dot
  let s := if line = 261 ∧ dot = 1 then { s with ppu := s.ppu.preRenderClear } else s
  let s := if line = 241 ∧ dot = 1 then vblankSet s else s
  let s := if line ≤ 239 ∧ 1 ≤ dot ∧ dot ≤ 256 then { s with ppu := outputPixel s (dot - 1) line } else s
  let s := if line ≤ 239 ∨ line = 261 then renderLineDot s else s
  if line ≤ 239 ∧ dot = s.cfg.mmc3HookDot ∧ s.ppu.rendering = true then
    { s with mapper := s.mapper.scanlineHook }
  else s

/-- The position advance (62 R332, R352). A position outside the frame, which only `Load` gives, is counted up
without a bound and meets no boundary: DESIGN CHOICE, log entry 19. -/
def Ppu.advance (p : Ppu) : Ppu :=
  if p.scanline = 261 ∧ p.dot = 339 ∧ bitOf p.frame 0 = true ∧ p.rendering = true then
    { p with dot := 0, scanline := 0, frame := p.frame + 1 }
  else if p.dot = 340 then
    if p.scanline = 261 then { p with dot := 0, scanline := 0, frame := p.frame + 1 }
    else { p with dot := 0, scanline := p.scanline + 1 }
  else { p with dot := p.dot + 1 }

/-- `Ppu.Step()`: one dot (62 R348). -/
def ppuStep (s : State) : State :=
  let s := ppuDot s
  { s with ppu := s.ppu.advance }

/-- `Ppu.Step(); Ppu.Step(); Ppu.Step()` (61 R316). -/
def ppuTicks (s : State) : State := ppuStep (ppuStep (ppuStep s))

/-- The picture unit after `Reset()`: its memories, mirroring and frames stay (62 R334). -/
def Ppu.afterReset (p : Ppu) : Ppu :=
  { Ppu.initial p.mirroring with
    vram := p.vram, pal := p.pal, oam := p.oam, frameDraw := p.frameDraw, frameShown := p.frameShown
    shownGreyscale := p.shownGreyscale, shownEmphasis := p.shownEmphasis }

end Sys2Proof.Machine
end

