-- ==== Sys2Proof/Machine/Bus.lean ====
section
/-! DEFINITION. The system bus: address decoder, work RAM, controllers, OAM DMA, and the audio unit's
tick with its bus reads (spec 61_bus_dma_io.md, 63_apu.md R402, R425 to R428). -/

namespace Sys2Proof.Machine

/-- `ControllerRead(0)` (61 R311). -/
def controllerRead0 (s : State) : Byte × State :=
  let sh := if s.pad.strobe then s.pad.buttons0 else s.pad.shift0
  (0x40 ||| (sh &&& 1), { s with pad := { s.pad with shift0 := sh >>> 1 } })

/-- `ControllerRead(1)` (61 R311). -/
def controllerRead1 (s : State) : Byte × State :=
  let sh := if s.pad.strobe then s.pad.buttons1 else s.pad.shift1
  (0x40 ||| (sh &&& 1), { s with pad := { s.pad with shift1 := sh >>> 1 } })

/-- `ControllerStrobe(v)` (61 R310). -/
def Pad.strobeWrite (p : Pad) (v : Byte) : Pad :=
  if bitOf v 0 then { p with strobe := true, shift0 := p.buttons0, shift1 := p.buttons1 }
  else { p with strobe := false }

/-- `ApuStatusRead()` (63 R400). -/
def apuStatusRead (s : State) : Byte × State :=
  (s.apu.statusByte, { s with apu := { s.apu with frameIrq := false } })

/-- `BusRead(addr)` (61 R300): the byte and the state after its side effects (20 R66). -/
def busRead (s : State) (addr : Word) : Byte × State :=
  let n := addr.toNat
  if n < 0x2000 then (s.ram.read (n &&& 0x07FF), s)
  else if n < 0x4000 then ppuRegRead s (n &&& 0x0007)
  else if n = 0x4015 then apuStatusRead s
  else if n = 0x4016 then controllerRead0 s
  else if n = 0x4017 then controllerRead1 s
  else if n < 0x6000 then (s.cfg.unmappedRead, s)
  else if n < 0x8000 then (s.prgRam.read (n - 0x6000), s)
  else (readPrg s addr, s)

/-- The copy of `OamDma(v)` for the indexes `is`, in order (61 R308): each byte is read through the full
decoder and stored at `(OAMADDR + i) mod 256`. -/
def dmaCopy (v : Byte) : List Nat → State → State
  | [], s => s
  | i :: is, s =>
    let r := busRead s (word v (BitVec.ofNat 8 i))
    let s := r.2
    dmaCopy v is
      { s with
        ppu := { s.ppu with oam := s.ppu.oam.write ((s.ppu.oamAddr.toNat + i) % 256) r.1 } }

/-- The stall of an OAM DMA: 513 cycles, 514 on an odd CPU cycle (50 R250). -/
def dmaStall (cycles : BitVec 64) : BitVec 32 := 513 + (if bitOf cycles 0 then 1 else 0)

/-- `OamDma(v)` (61 R308): the copy, then the stall added to `skip`. -/
def oamDma (s : State) (v : Byte) : State :=
  let s := dmaCopy v (List.range 256) s
  { s with cpu := { s.cpu with skip := s.cpu.skip + dmaStall s.cpu.cyclesTotal } }

/-- `BusWrite(addr, v)` (61 R301). -/
def busWrite (s : State) (addr : Word) (v : Byte) : State :=
  let n := addr.toNat
  if n < 0x2000 then { s with ram := s.ram.write (n &&& 0x07FF) v }
  else if n < 0x4000 then ppuRegWrite s (n &&& 0x0007) v
  else if n = 0x4014 then oamDma s v
  else if n = 0x4016 then { s with pad := s.pad.strobeWrite v }
  else if n ≤ 0x4013 ∨ n = 0x4015 ∨ n = 0x4017 then
    { s with apu := s.apu.writeReg (n - 0x4000) v }
  else if n < 0x6000 then s
  else if n < 0x8000 then { s with prgRam := s.prgRam.write (n - 0x6000) v }
  else writePrg s addr v

/-! ## The audio tick -/

/-- The sample address after a fetch (63 R427). -/
def nextSampleAddr (a : Word) : Word := if a = 0xFFFF then 0x8000 else a + 1

/-- The DMC after a fetch of byte `b`: the byte goes into the shift register, and at the end of the sample
the loop restarts (63 R427, R428). -/
def Dmc.fetched (c : Dmc) (b : Byte) : Dmc :=
  if c.bytesLeft - 1 = 0 && c.loop then
    { c with shift := b, curAddr := c.sampleAddr, bytesLeft := c.sampleLen }
  else { c with shift := b, curAddr := nextSampleAddr c.curAddr, bytesLeft := c.bytesLeft - 1 }

/-- The sample ends without loop and with the interrupt enabled: `dmc_irq` is set (63 R428). -/
def Dmc.endsWithIrq (c : Dmc) : Bool := c.bytesLeft - 1 == 0 && !c.loop && c.irqEnable

/-- `FetchSample()` (63 R427): one bus read. -/
def fetchSample (s : State) : State :=
  let r := busRead s s.apu.dmc.curAddr
  let s := r.2
  { s with
    apu := { s.apu with
      dmc := s.apu.dmc.fetched r.1
      dmcIrq := s.apu.dmcIrq || s.apu.dmc.endsWithIrq } }

/-- `OutputBit()` (63 R425). -/
def dmcOutputBit (s : State) : State :=
  let c := s.apu.dmc
  let c := { c with level := c.nextLevel, shift := c.shift >>> 1, bitsLeft := c.bitsLeft - 1 }
  if c.bitsLeft = 0 then
    let s := { s with apu := { s.apu with dmc := { c with bitsLeft := 8 } } }
    if c.bytesLeft ≠ 0 then
      let s := fetchSample s
      { s with apu := { s.apu with dmc := { s.apu.dmc with silence := false } } }
    else { s with apu := { s.apu with dmc := { s.apu.dmc with silence := true } } }
  else { s with apu := { s.apu with dmc := c } }

/-- `DmcTimer()` (63 R425). -/
def dmcTimer (s : State) : State :=
  let c := s.apu.dmc
  if c.timer = 0 then
    dmcOutputBit
      { s with
        apu := { s.apu with
          dmc := { c with timer := BitVec.ofNat 9 (dmcRate.getD c.rateIdx.toNat 0 - 1) } } }
  else { s with apu := { s.apu with dmc := { c with timer := c.timer - 1 } } }

/-- The units of the tick before the DMC: `half`, triangle, noise (63 R402). The noise timer runs when
`half` is 0, that is every second tick (D35, log entry 8). -/
def Apu.tickBefore (a : Apu) : Apu :=
  let half := !a.half
  { a with
    half := half
    triangle := a.triangle.clockTimer
    noise := if half then a.noise else a.noise.clockTimer }

/-- The pulse timers, every second tick (63 R402). -/
def Apu.tickPulses (a : Apu) : Apu :=
  if a.half then a else { a with pulse1 := a.pulse1.clockTimer, pulse2 := a.pulse2.clockTimer }

/-- `Apu.Tick()` (63 R402). -/
def apuTick (s : State) : State :=
  let s := dmcTimer { s with apu := s.apu.tickBefore }
  resample { s with apu := s.apu.tickPulses.frameSequencer s.cfg.frameSeqStep }

/-- The IRQ re-arm at the end of the master cycle (60 R273, 61 R316). -/
def rearmIrq (s : State) : State :=
  let level := s.apu.frameIrq || s.apu.dmcIrq || s.mapper.irqFlag
  { s with cpu := { s.cpu with latch := { s.cpu.latch with irq := s.cpu.latch.irq || level } } }

/-- What follows `Cpu.Step()` in a master cycle: three dots, the audio tick, the mapper's cycle hook, the
IRQ re-arm (61 R316). -/
def deviceTicks (s : State) : State :=
  let s := apuTick (ppuTicks s)
  rearmIrq { s with mapper := s.mapper.cycleHook }

end Sys2Proof.Machine
end

