-- ==== Sys2Proof/Machine/Flags.lean ====
section
/-! DEFINITION. The status byte and every flag computation (spec 10_state.md R25 to R27, 41_arith_logic.md
R159 to R168, 42_shift_rotate.md R180 to R184). -/

namespace Sys2Proof.Machine

/-! ## The bits of `P` (10 R25) -/

def flagC (p : Byte) : Bool := bitOf p 0
def flagZ (p : Byte) : Bool := bitOf p 1
def flagI (p : Byte) : Bool := bitOf p 2
def flagD (p : Byte) : Bool := bitOf p 3
def flagB (p : Byte) : Bool := bitOf p 4
def flagV (p : Byte) : Bool := bitOf p 6
def flagN (p : Byte) : Bool := bitOf p 7

def putC (p : Byte) (b : Bool) : Byte := putBit p 0 b
def putZ (p : Byte) (b : Bool) : Byte := putBit p 1 b
def putI (p : Byte) (b : Bool) : Byte := putBit p 2 b
def putD (p : Byte) (b : Bool) : Byte := putBit p 3 b
def putV (p : Byte) (b : Bool) : Byte := putBit p 6 b
def putN (p : Byte) (b : Bool) : Byte := putBit p 7 b

/-- `SetZN(v)` on the status byte (00 R10). -/
def putZN (p v : Byte) : Byte := putN (putZ p (v == 0)) (bitOf v 7)

/-- The status loaded by PLP, RTI and `Load`: bit 5 forced to 1, bit 4 to 0 (10 R26, 40 R156, 43 R194). -/
def loadedStatus (b : Byte) : Byte := (b &&& 0xCF) ||| 0x20

/-- The status pushed by an interrupt sequence: bit 5 set, B set only for BRK (60 R276). -/
def pushedStatus (k : IntKind) (p : Byte) : Byte :=
  match k with
  | .brk => p ||| 0x30
  | .nmi | .irq => (p ||| 0x20) &&& 0xEF

/-! ## Addition and comparison -/

/-- The 9-bit sum of `AddWithCarry` (41 R159). -/
def addSum (a m : Byte) (c : Bool) : BitVec 9 :=
  a.setWidth 9 + m.setWidth 9 + (if c then 1 else 0)

/-- The result byte of `AddWithCarry` (41 R159). -/
def addResult (a m : Byte) (c : Bool) : Byte := (addSum a m c).extractLsb' 0 8

/-- Carry out of bit 7 (41 R159). -/
def addCarry (a m : Byte) (c : Bool) : Bool := bitOf (addSum a m c) 8

/-- Signed overflow: the operands have the same sign and the result's differs (41 R159). -/
def addOverflow (a m : Byte) (c : Bool) : Bool := bitOf (~~~(a ^^^ m) &&& (a ^^^ addResult a m c)) 7

/-- The status after `AddWithCarry(m)` (41 R159). -/
def addStatus (p a m : Byte) : Byte :=
  putZN (putV (putC p (addCarry a m (flagC p))) (addOverflow a m (flagC p))) (addResult a m (flagC p))

/-- The status after a compare of register value `r` with `m` (41 R165 to R167). -/
def compareStatus (p r m : Byte) : Byte := putZN (putC p (decide (m ≤ r))) (r - m)

/-- The status after BIT (41 R168). -/
def bitStatus (p a m : Byte) : Byte := putV (putN (putZ p (a &&& m == 0)) (bitOf m 7)) (bitOf m 6)

/-! ## Shifts and rotates: result and carry out (42 R180 to R183) -/

def aslResult (m : Byte) : Byte := m <<< 1
def aslCarry (m : Byte) : Bool := bitOf m 7
def lsrResult (m : Byte) : Byte := m >>> 1
def lsrCarry (m : Byte) : Bool := bitOf m 0
def rolResult (m : Byte) (c : Bool) : Byte := (m <<< 1) ||| boolByte c
def rolCarry (m : Byte) : Bool := bitOf m 7
def rorResult (m : Byte) (c : Bool) : Byte := (m >>> 1) ||| (boolByte c <<< 7)
def rorCarry (m : Byte) : Bool := bitOf m 0

end Sys2Proof.Machine
end

