-- ==== Sys2Proof/Machine/Ops.lean ====
section
/-! DEFINITION. The named operations over registers and memory (spec 00_scope.md R10), the interrupt
sequence as one shared operation in its two halves, and the return from it (spec 60_exceptions.md R276,
R278, R283). -/

namespace Sys2Proof.Machine

/-! ## Registers -/

def State.setA (s : State) (v : Byte) : State := { s with cpu := { s.cpu with a := v } }
def State.setX (s : State) (v : Byte) : State := { s with cpu := { s.cpu with x := v } }
def State.setY (s : State) (v : Byte) : State := { s with cpu := { s.cpu with y := v } }
def State.setSp (s : State) (v : Byte) : State := { s with cpu := { s.cpu with sp := v } }
def State.setP (s : State) (v : Byte) : State := { s with cpu := { s.cpu with p := v } }
def State.setPc (s : State) (v : Word) : State := { s with cpu := { s.cpu with pc := v } }
def State.setPageCross (s : State) (b : Bool) : State := { s with cpu := { s.cpu with pageCross := b } }

/-- `SetZN(v)` (00 R10). -/
def State.setZN (s : State) (v : Byte) : State := s.setP (putZN s.cpu.p v)

/-- Cycles added to the slot (50 R241, R244). -/
def State.charge (s : State) (n : Nat) : State :=
  { s with cpu := { s.cpu with skip := s.cpu.skip + BitVec.ofNat 32 n } }

/-! ## Memory -/

/-- Two bus reads, low byte first, assembled to a word (20 R62). -/
def readPair (s : State) (lowAddr highAddr : Word) : Word × State :=
  let l := busRead s lowAddr
  let h := busRead l.2 highAddr
  (word h.1 l.1, h.2)

/-- `Read16(addr)` (00 R10). -/
def read16 (s : State) (addr : Word) : Word × State := readPair s addr (addr + 1)

/-- The stack address `0x0100 | SP` (10 R24). -/
def stackAddr (sp : Byte) : Word := word 0x01 sp

/-- `Push(v)` (00 R10, 10 R24). -/
def push (s : State) (v : Byte) : State :=
  let s := busWrite s (stackAddr s.cpu.sp) v
  s.setSp (s.cpu.sp - 1)

/-- `Pull()` (00 R10, 10 R24). -/
def pull (s : State) : Byte × State :=
  let s := s.setSp (s.cpu.sp + 1)
  busRead s (stackAddr s.cpu.sp)

/-- `Fetch()` (00 R10). -/
def fetch (s : State) : Byte × State :=
  let r := busRead s s.cpu.pc
  (r.1, r.2.setPc (r.2.cpu.pc + 1))

/-! ## The interrupt sequence -/

/-- `BeginInterrupt(kind)` (60 R276): PCH, PCL and the status pushed, I set, the sequence begun. -/
def beginInterrupt (k : IntKind) (s : State) : State :=
  let s := push s (hi s.cpu.pc)
  let s := push s (lo s.cpu.pc)
  let s := push s (pushedStatus k s.cpu.p)
  let s := s.setP (putI s.cpu.p true)
  { s with cpu := { s.cpu with inInterrupt := true, intKind := some k } }

/-- An NMI is latched while a sequence of another kind chooses its vector (60 R279). -/
def hijacked (s : State) : Bool := s.cpu.intKind != some .nmi && s.cpu.latch.nmi

/-- The vector the sequence reads (60 R278). -/
def vectorOf (s : State) : Word :=
  if hijacked s || s.cpu.intKind == some .nmi then 0xFFFA else 0xFFFE

/-- `ResolveVector()` (60 R278): the vector choice with the NMI hijack, and the load of `PC`. -/
def resolveVector (s : State) : State :=
  let vec := vectorOf s
  let s :=
    { s with
      cpu := { s.cpu with
        latch := { s.cpu.latch with nmi := if hijacked s then false else s.cpu.latch.nmi } } }
  let r := read16 s vec
  let s := r.2.setPc r.1
  { s with cpu := { s.cpu with inInterrupt := false } }

/-- The return from an interrupt: status, PCL, PCH pulled (43 R194, 60 R283). -/
def returnFromInterrupt (s : State) : State :=
  let b := pull s
  let s := b.2.setP (loadedStatus b.1)
  let l := pull s
  let h := pull l.2
  h.2.setPc (word h.1 l.1)

end Sys2Proof.Machine
end

