-- ==== Sys2Proof/Syntax.lean ====
section
/-! DEFINITION. The instructions (spec 30_encoding.md R100 to R119; opcode_table.json). A row of the
opcode table is a mnemonic with a format; here the mnemonic is the constructor and the format is
carried by the operand (log entry 5). `JMP` has two rules (43 R190, R191) and two constructors. -/

namespace Sys2Proof

/-- The 13 formats (30 R103 to R115). -/
inductive Format where
  | IMP | ACC | IMM | ZP | ZPX | ZPY | ABS | ABX | ABY | IZX | IZY | REL | IND
deriving DecidableEq, Repr

/-- An operand of an address-shape format (30 R101), with its operand bytes. -/
inductive AddrMode where
  /-- 30 R106 -/
  | zp (b : Byte)
  /-- 30 R107 -/
  | zpx (b : Byte)
  /-- 30 R108 -/
  | zpy (b : Byte)
  /-- 30 R109 -/
  | abs (w : Word)
  /-- 30 R110 -/
  | abx (w : Word)
  /-- 30 R111 -/
  | aby (w : Word)
  /-- 30 R112 -/
  | izx (b : Byte)
  /-- 30 R113 -/
  | izy (b : Byte)
deriving DecidableEq, Repr

/-- The operand of a read-class instruction that has an immediate form (30 R102). -/
inductive ReadOp where
  /-- 30 R105 -/
  | imm (b : Byte)
  | mem (m : AddrMode)
deriving DecidableEq, Repr

/-- The operand of a shift or rotate (42 R184). -/
inductive ShiftOp where
  /-- 30 R104 -/
  | acc
  | mem (m : AddrMode)
deriving DecidableEq, Repr

def AddrMode.format : AddrMode → Format
  | .zp _ => .ZP
  | .zpx _ => .ZPX
  | .zpy _ => .ZPY
  | .abs _ => .ABS
  | .abx _ => .ABX
  | .aby _ => .ABY
  | .izx _ => .IZX
  | .izy _ => .IZY

def ReadOp.format : ReadOp → Format
  | .imm _ => .IMM
  | .mem m => m.format

def ShiftOp.format : ShiftOp → Format
  | .acc => .ACC
  | .mem m => m.format

/-- Number of bytes of a format, the opcode byte included (30 R100). -/
def Format.length : Format → Nat
  | .IMP | .ACC => 1
  | .IMM | .ZP | .ZPX | .ZPY | .IZX | .IZY | .REL => 2
  | .ABS | .ABX | .ABY | .IND => 3

/-- The instructions: the 56 official mnemonics, the eight unofficial ones and the no-op `XXX`
(30 R119). -/
inductive Instr where
  -- 40_load_store_transfer.md
  | lda (o : ReadOp)
  | ldx (o : ReadOp)
  | ldy (o : ReadOp)
  | sta (m : AddrMode)
  | stx (m : AddrMode)
  | sty (m : AddrMode)
  | tax
  | tay
  | txa
  | tya
  | tsx
  | txs
  | pha
  | php
  | pla
  | plp
  -- 41_arith_logic.md
  | adc (o : ReadOp)
  | sbc (o : ReadOp)
  | and (o : ReadOp)
  | ora (o : ReadOp)
  | eor (o : ReadOp)
  | cmp (o : ReadOp)
  | cpx (o : ReadOp)
  | cpy (o : ReadOp)
  | bit (m : AddrMode)
  | inc (m : AddrMode)
  | dec (m : AddrMode)
  | inx
  | iny
  | dex
  | dey
  -- 42_shift_rotate.md
  | asl (o : ShiftOp)
  | lsr (o : ShiftOp)
  | rol (o : ShiftOp)
  | ror (o : ShiftOp)
  -- 43_control_flow.md
  | jmp (target : Word)
  | jmpInd (ptr : Word)
  | jsr (target : Word)
  | rts
  | rti
  | brk
  | bpl (off : Byte)
  | bmi (off : Byte)
  | bvc (off : Byte)
  | bvs (off : Byte)
  | bcc (off : Byte)
  | bcs (off : Byte)
  | bne (off : Byte)
  | beq (off : Byte)
  -- 44_flags_nop.md
  | clc
  | sec
  | cli
  | sei
  | clv
  | cld
  | sed
  | nop
  -- 45_unofficial.md
  | slo (m : AddrMode)
  | rla (m : AddrMode)
  | sre (m : AddrMode)
  | rra (m : AddrMode)
  | sax (m : AddrMode)
  | lax (m : AddrMode)
  | dcp (m : AddrMode)
  | isc (m : AddrMode)
  /-- `XXX` with the opcode byte it was decoded from (45 R228). -/
  | xxx (op : Byte)
deriving DecidableEq, Repr

/-- The format of the instruction's row (30 R119). -/
def Instr.format : Instr → Format
  | .lda o | .ldx o | .ldy o | .adc o | .sbc o | .and o | .ora o | .eor o | .cmp o | .cpx o | .cpy o =>
    o.format
  | .sta m | .stx m | .sty m | .bit m | .inc m | .dec m | .slo m | .rla m | .sre m | .rra m | .sax m
  | .lax m | .dcp m | .isc m => m.format
  | .asl o | .lsr o | .rol o | .ror o => o.format
  | .jmp _ | .jsr _ => .ABS
  | .jmpInd _ => .IND
  | .bpl _ | .bmi _ | .bvc _ | .bvs _ | .bcc _ | .bcs _ | .bne _ | .beq _ => .REL
  | .tax | .tay | .txa | .tya | .tsx | .txs | .pha | .php | .pla | .plp | .inx | .iny | .dex | .dey
  | .rts | .rti | .brk | .clc | .sec | .cli | .sei | .clv | .cld | .sed | .nop | .xxx _ => .IMP

/-- Number of bytes of the instruction (30 R100, R119). -/
def Instr.length (i : Instr) : Nat := i.format.length

end Sys2Proof
end

