-- ==== Sys2Proof/Machine/Operands.lean ====
section
/-! DEFINITION. Effective addresses, the class accesses at them, and the cycle columns of the opcode map
(spec 30_encoding.md R101 to R119). A meaning runs after the operand bytes were fetched: they stand in
the operand, and `PC` is at the next instruction (log entry 7). -/

namespace Sys2Proof.Machine

/-- An indexed address from `base`, with `page_cross` (30 R116). -/
def indexed (s : State) (base : Word) (index : Byte) : Word × State :=
  let ea := base + zext16 index
  (ea, s.setPageCross (hi base != hi ea))

/-- The effective address of an address-shape operand, with the pointer reads its format makes
(30 R106 to R113). -/
def effAddr (m : AddrMode) (s : State) : Word × State :=
  match m with
  | .zp b => (zext16 b, s)
  | .zpx b => (zext16 (b + s.cpu.x), s)
  | .zpy b => (zext16 (b + s.cpu.y), s)
  | .abs w => (w, s)
  | .abx w => indexed s w s.cpu.x
  | .aby w => indexed s w s.cpu.y
  | .izx b => readPair s (zext16 (b + s.cpu.x)) (zext16 (b + s.cpu.x + 1))
  | .izy b =>
    let r := readPair s (zext16 b) (zext16 (b + 1))
    indexed r.2 r.1 r.2.cpu.y

/-- The read at the effective address (30 R102). -/
def readMem (m : AddrMode) (s : State) : Byte × State :=
  let e := effAddr m s
  busRead e.2 e.1

/-- The operand of a read-class instruction (30 R102, R105). -/
def readOperand (o : ReadOp) (s : State) : Byte × State :=
  match o with
  | .imm b => (b, s)
  | .mem m => readMem m s

/-! ## Cycles (30 R119, 50 R245) -/

/-- Base cycles of a read-class row. -/
def readBase : ReadOp → Nat
  | .imm _ => 2
  | .mem (.zp _) => 3
  | .mem (.zpx _) | .mem (.zpy _) | .mem (.abs _) | .mem (.abx _) | .mem (.aby _) => 4
  | .mem (.izx _) => 6
  | .mem (.izy _) => 5

/-- The page-cross bonus column of a read-class row. -/
def readBonus : ReadOp → Nat
  | .mem (.abx _) | .mem (.aby _) | .mem (.izy _) => 1
  | .imm _ | .mem (.zp _) | .mem (.zpx _) | .mem (.zpy _) | .mem (.abs _) | .mem (.izx _) => 0

/-- Cycles of a read-class instruction, by `page_cross` (50 R245). -/
def readCycles (o : ReadOp) (cross : Bool) : Nat := readBase o + (if cross then readBonus o else 0)

/-- Cycles of a write-class row. -/
def writeCycles : AddrMode → Nat
  | .zp _ => 3
  | .zpx _ | .zpy _ | .abs _ => 4
  | .abx _ | .aby _ => 5
  | .izx _ | .izy _ => 6

/-- Cycles of a read-modify-write row. -/
def rmwCycles : AddrMode → Nat
  | .zp _ => 5
  | .zpx _ | .zpy _ | .abs _ => 6
  | .abx _ | .aby _ => 7
  | .izx _ | .izy _ => 8

/-! ## The class frames (30 R102, 50 R242) -/

/-- A read-class instruction: the operand `m`, then the operation on it. -/
def readInstr (o : ReadOp) (operation : Byte → State → State) (s : State) : State :=
  let r := readOperand o s
  (operation r.1 r.2).charge (readCycles o r.2.cpu.pageCross)

/-- A write-class instruction: one write at the effective address, no read of it. -/
def writeInstr (m : AddrMode) (value : State → Byte) (s : State) : State :=
  let e := effAddr m s
  (busWrite e.2 e.1 (value e.2)).charge (writeCycles m)

/-- A read-modify-write instruction: one read; `transform` gives the byte written and the status; one
write; then `after` on that byte. -/
def rmwInstr (m : AddrMode) (transform : Byte → Byte → Byte × Byte) (after : Byte → State → State)
    (s : State) : State :=
  let e := effAddr m s
  let r := busRead e.2 e.1
  let t := transform r.1 r.2.cpu.p
  (after t.1 (busWrite (r.2.setP t.2) e.1 t.1)).charge (rmwCycles m)

/-- A shift or rotate on its operand (42 R184): on `A` with 2 cycles, or read-modify-write. -/
def shiftInstr (o : ShiftOp) (transform : Byte → Byte → Byte × Byte) (s : State) : State :=
  match o with
  | .acc =>
    let t := transform s.cpu.a s.cpu.p
    (((s.setP t.2).setA t.1).setZN t.1).charge 2
  | .mem m => rmwInstr m transform (fun r s => s.setZN r) s

/-- A one-byte instruction of 2 cycles without a bus access (30 R103, R119). -/
def impliedInstr (operation : State → State) (s : State) : State := (operation s).charge 2

/-- The target of a relative branch; `PC` is the address of the next instruction (30 R114). -/
def branchTarget (s : State) (off : Byte) : Word := s.cpu.pc + sext16 off

/-- A conditional branch (43 R196, 50 R246). -/
def branchInstr (cond : Bool) (off : Byte) (s : State) : State :=
  let target := branchTarget s off
  let cross := hi target != hi s.cpu.pc
  if cond then ((s.setPageCross cross).setPc target).charge (if cross then 4 else 3)
  else s.charge 2

end Sys2Proof.Machine
end

