-- ==== Sys2Proof/Machine/ArithLogic.lean ====
section
/-! DEFINITION. Arithmetic, logic, compare, increment and decrement (spec 41_arith_logic.md). -/

namespace Sys2Proof.Machine

/-- `AddWithCarry(m)` (41 R159). -/
def addWithCarry (m : Byte) (s : State) : State :=
  (s.setA (addResult s.cpu.a m (flagC s.cpu.p))).setP (addStatus s.cpu.p s.cpu.a m)

/-- The subtraction of SBC and ISC: `AddWithCarry(m ^ 0xFF)` (41 R161). -/
def subWithCarry (m : Byte) (s : State) : State := addWithCarry (m ^^^ 0xFF) s

/-- 41 R160 -/
def execAdc (o : ReadOp) (s : State) : Host.Outcome State Fault Refusal :=
  .next (readInstr o addWithCarry s)

/-- 41 R161 -/
def execSbc (o : ReadOp) (s : State) : Host.Outcome State Fault Refusal :=
  .next (readInstr o subWithCarry s)

/-- 41 R162 -/
def execAnd (o : ReadOp) (s : State) : Host.Outcome State Fault Refusal :=
  .next (readInstr o (fun m s => (s.setA (s.cpu.a &&& m)).setZN (s.cpu.a &&& m)) s)

/-- 41 R163 -/
def execOra (o : ReadOp) (s : State) : Host.Outcome State Fault Refusal :=
  .next (readInstr o (fun m s => (s.setA (s.cpu.a ||| m)).setZN (s.cpu.a ||| m)) s)

/-- 41 R164 -/
def execEor (o : ReadOp) (s : State) : Host.Outcome State Fault Refusal :=
  .next (readInstr o (fun m s => (s.setA (s.cpu.a ^^^ m)).setZN (s.cpu.a ^^^ m)) s)

/-- 41 R165 -/
def execCmp (o : ReadOp) (s : State) : Host.Outcome State Fault Refusal :=
  .next (readInstr o (fun m s => s.setP (compareStatus s.cpu.p s.cpu.a m)) s)

/-- 41 R166 -/
def execCpx (o : ReadOp) (s : State) : Host.Outcome State Fault Refusal :=
  .next (readInstr o (fun m s => s.setP (compareStatus s.cpu.p s.cpu.x m)) s)

/-- 41 R167 -/
def execCpy (o : ReadOp) (s : State) : Host.Outcome State Fault Refusal :=
  .next (readInstr o (fun m s => s.setP (compareStatus s.cpu.p s.cpu.y m)) s)

/-- 41 R168 -/
def execBit (m : AddrMode) (s : State) : Host.Outcome State Fault Refusal :=
  .next (readInstr (.mem m) (fun b s => s.setP (bitStatus s.cpu.p s.cpu.a b)) s)

/-- 41 R169 -/
def execInc (m : AddrMode) (s : State) : Host.Outcome State Fault Refusal :=
  .next (rmwInstr m (fun b p => (b + 1, p)) (fun r s => s.setZN r) s)

/-- 41 R170 -/
def execDec (m : AddrMode) (s : State) : Host.Outcome State Fault Refusal :=
  .next (rmwInstr m (fun b p => (b - 1, p)) (fun r s => s.setZN r) s)

/-- 41 R171 -/
def execInx (s : State) : Host.Outcome State Fault Refusal :=
  .next (impliedInstr (fun s => (s.setX (s.cpu.x + 1)).setZN (s.cpu.x + 1)) s)

/-- 41 R172 -/
def execIny (s : State) : Host.Outcome State Fault Refusal :=
  .next (impliedInstr (fun s => (s.setY (s.cpu.y + 1)).setZN (s.cpu.y + 1)) s)

/-- 41 R173 -/
def execDex (s : State) : Host.Outcome State Fault Refusal :=
  .next (impliedInstr (fun s => (s.setX (s.cpu.x - 1)).setZN (s.cpu.x - 1)) s)

/-- 41 R174 -/
def execDey (s : State) : Host.Outcome State Fault Refusal :=
  .next (impliedInstr (fun s => (s.setY (s.cpu.y - 1)).setZN (s.cpu.y - 1)) s)

end Sys2Proof.Machine
end

