-- ==== Sys2Proof/Machine/ControlFlow.lean ====
section
/-! DEFINITION. Control transfer (spec 43_control_flow.md). -/

namespace Sys2Proof.Machine

/-- 43 R190 -/
def execJmp (target : Word) (s : State) : Host.Outcome State Fault Refusal :=
  .next ((s.setPc target).charge 3)

/-- 43 R191: the high byte of the target comes from the pointer's own page. -/
def execJmpInd (ptr : Word) (s : State) : Host.Outcome State Fault Refusal :=
  let r := readPair s ptr (word (hi ptr) (lo ptr + 1))
  .next ((r.2.setPc r.1).charge 5)

/-- 43 R192 -/
def execJsr (target : Word) (s : State) : Host.Outcome State Fault Refusal :=
  let ret := s.cpu.pc - 1
  .next (((push (push s (hi ret)) (lo ret)).setPc target).charge 6)

/-- 43 R193 -/
def execRts (s : State) : Host.Outcome State Fault Refusal :=
  let l := pull s
  let h := pull l.2
  .next ((h.2.setPc (word h.1 l.1 + 1)).charge 6)

/-- 43 R194 -/
def execRti (s : State) : Host.Outcome State Fault Refusal := .next ((returnFromInterrupt s).charge 6)

/-- 43 R195: the vector is loaded later in the slot (60 R278). -/
def execBrk (s : State) : Host.Outcome State Fault Refusal :=
  .next ((beginInterrupt .brk (s.setPc (s.cpu.pc + 1))).charge 7)

/-- 43 R197 -/
def execBpl (off : Byte) (s : State) : Host.Outcome State Fault Refusal :=
  .next (branchInstr (!flagN s.cpu.p) off s)

/-- 43 R198 -/
def execBmi (off : Byte) (s : State) : Host.Outcome State Fault Refusal :=
  .next (branchInstr (flagN s.cpu.p) off s)

/-- 43 R199 -/
def execBvc (off : Byte) (s : State) : Host.Outcome State Fault Refusal :=
  .next (branchInstr (!flagV s.cpu.p) off s)

/-- 43 R200 -/
def execBvs (off : Byte) (s : State) : Host.Outcome State Fault Refusal :=
  .next (branchInstr (flagV s.cpu.p) off s)

/-- 43 R201 -/
def execBcc (off : Byte) (s : State) : Host.Outcome State Fault Refusal :=
  .next (branchInstr (!flagC s.cpu.p) off s)

/-- 43 R202 -/
def execBcs (off : Byte) (s : State) : Host.Outcome State Fault Refusal :=
  .next (branchInstr (flagC s.cpu.p) off s)

/-- 43 R203 -/
def execBne (off : Byte) (s : State) : Host.Outcome State Fault Refusal :=
  .next (branchInstr (!flagZ s.cpu.p) off s)

/-- 43 R204 -/
def execBeq (off : Byte) (s : State) : Host.Outcome State Fault Refusal :=
  .next (branchInstr (flagZ s.cpu.p) off s)

end Sys2Proof.Machine
end

