-- ==== Sys2Proof/Machine/FlagsNop.lean ====
section
/-! DEFINITION. Flag instructions and NOP (spec 44_flags_nop.md). -/

namespace Sys2Proof.Machine

/-- 44 R210 -/
def execClc (s : State) : Host.Outcome State Fault Refusal :=
  .next (impliedInstr (fun s => s.setP (putC s.cpu.p false)) s)

/-- 44 R211 -/
def execSec (s : State) : Host.Outcome State Fault Refusal :=
  .next (impliedInstr (fun s => s.setP (putC s.cpu.p true)) s)

/-- 44 R212 -/
def execCli (s : State) : Host.Outcome State Fault Refusal :=
  .next (impliedInstr (fun s => s.setP (putI s.cpu.p false)) s)

/-- 44 R213 -/
def execSei (s : State) : Host.Outcome State Fault Refusal :=
  .next (impliedInstr (fun s => s.setP (putI s.cpu.p true)) s)

/-- 44 R214 -/
def execClv (s : State) : Host.Outcome State Fault Refusal :=
  .next (impliedInstr (fun s => s.setP (putV s.cpu.p false)) s)

/-- 44 R215 -/
def execCld (s : State) : Host.Outcome State Fault Refusal :=
  .next (impliedInstr (fun s => s.setP (putD s.cpu.p false)) s)

/-- 44 R216 -/
def execSed (s : State) : Host.Outcome State Fault Refusal :=
  .next (impliedInstr (fun s => s.setP (putD s.cpu.p true)) s)

/-- 44 R217 -/
def execNop (s : State) : Host.Outcome State Fault Refusal := .next (impliedInstr (fun s => s) s)

end Sys2Proof.Machine
end

