-- ==== Sys2Proof/Machine/LoadStore.lean ====
section
/-! DEFINITION. Loads, stores, register transfers and stack instructions (spec 40_load_store_transfer.md). -/

namespace Sys2Proof.Machine

/-- 40 R141 -/
def execLda (o : ReadOp) (s : State) : Host.Outcome State Fault Refusal :=
  .next (readInstr o (fun m s => (s.setA m).setZN m) s)

/-- 40 R142 -/
def execLdx (o : ReadOp) (s : State) : Host.Outcome State Fault Refusal :=
  .next (readInstr o (fun m s => (s.setX m).setZN m) s)

/-- 40 R143 -/
def execLdy (o : ReadOp) (s : State) : Host.Outcome State Fault Refusal :=
  .next (readInstr o (fun m s => (s.setY m).setZN m) s)

/-- 40 R144 -/
def execSta (m : AddrMode) (s : State) : Host.Outcome State Fault Refusal :=
  .next (writeInstr m (fun s => s.cpu.a) s)

/-- 40 R145 -/
def execStx (m : AddrMode) (s : State) : Host.Outcome State Fault Refusal :=
  .next (writeInstr m (fun s => s.cpu.x) s)

/-- 40 R146 -/
def execSty (m : AddrMode) (s : State) : Host.Outcome State Fault Refusal :=
  .next (writeInstr m (fun s => s.cpu.y) s)

/-- 40 R147 -/
def execTax (s : State) : Host.Outcome State Fault Refusal :=
  .next (impliedInstr (fun s => (s.setX s.cpu.a).setZN s.cpu.a) s)

/-- 40 R148 -/
def execTay (s : State) : Host.Outcome State Fault Refusal :=
  .next (impliedInstr (fun s => (s.setY s.cpu.a).setZN s.cpu.a) s)

/-- 40 R149 -/
def execTxa (s : State) : Host.Outcome State Fault Refusal :=
  .next (impliedInstr (fun s => (s.setA s.cpu.x).setZN s.cpu.x) s)

/-- 40 R150 -/
def execTya (s : State) : Host.Outcome State Fault Refusal :=
  .next (impliedInstr (fun s => (s.setA s.cpu.y).setZN s.cpu.y) s)

/-- 40 R151 -/
def execTsx (s : State) : Host.Outcome State Fault Refusal :=
  .next (impliedInstr (fun s => (s.setX s.cpu.sp).setZN s.cpu.sp) s)

/-- 40 R152: the one transfer that sets no flag. -/
def execTxs (s : State) : Host.Outcome State Fault Refusal :=
  .next (impliedInstr (fun s => s.setSp s.cpu.x) s)

/-- 40 R153 -/
def execPha (s : State) : Host.Outcome State Fault Refusal := .next ((push s s.cpu.a).charge 3)

/-- 40 R154 -/
def execPhp (s : State) : Host.Outcome State Fault Refusal := .next ((push s (s.cpu.p ||| 0x30)).charge 3)

/-- 40 R155 -/
def execPla (s : State) : Host.Outcome State Fault Refusal :=
  let r := pull s
  .next (((r.2.setA r.1).setZN r.1).charge 4)

/-- 40 R156 -/
def execPlp (s : State) : Host.Outcome State Fault Refusal :=
  let r := pull s
  .next ((r.2.setP (loadedStatus r.1)).charge 4)

end Sys2Proof.Machine
end

