-- ==== Sys2Proof/Machine/ShiftRotate.lean ====
section
/-! DEFINITION. Shifts and rotates (spec 42_shift_rotate.md): result and status of each as one transform,
used by the official instructions and by the unofficial combinations. -/

namespace Sys2Proof.Machine

/-- The byte and the status (carry out in C) of ASL (42 R180). -/
def aslTransform (m p : Byte) : Byte × Byte := (aslResult m, putC p (aslCarry m))

/-- The byte and the status of LSR (42 R181). -/
def lsrTransform (m p : Byte) : Byte × Byte := (lsrResult m, putC p (lsrCarry m))

/-- The byte and the status of ROL: the old carry enters bit 0 (42 R182). -/
def rolTransform (m p : Byte) : Byte × Byte := (rolResult m (flagC p), putC p (rolCarry m))

/-- The byte and the status of ROR: the old carry enters bit 7 (42 R183). -/
def rorTransform (m p : Byte) : Byte × Byte := (rorResult m (flagC p), putC p (rorCarry m))

/-- 42 R180 -/
def execAsl (o : ShiftOp) (s : State) : Host.Outcome State Fault Refusal :=
  .next (shiftInstr o aslTransform s)

/-- 42 R181 -/
def execLsr (o : ShiftOp) (s : State) : Host.Outcome State Fault Refusal :=
  .next (shiftInstr o lsrTransform s)

/-- 42 R182 -/
def execRol (o : ShiftOp) (s : State) : Host.Outcome State Fault Refusal :=
  .next (shiftInstr o rolTransform s)

/-- 42 R183 -/
def execRor (o : ShiftOp) (s : State) : Host.Outcome State Fault Refusal :=
  .next (shiftInstr o rorTransform s)

end Sys2Proof.Machine
end

