-- ==== Sys2Proof/Machine/Unofficial.lean ====
section
/-! DEFINITION. The eight unofficial operations and the no-op `XXX` (spec 45_unofficial.md). -/

namespace Sys2Proof.Machine

/-- 45 R220: ASL then ORA. -/
def execSlo (m : AddrMode) (s : State) : Host.Outcome State Fault Refusal :=
  .next (rmwInstr m aslTransform (fun r s => (s.setA (s.cpu.a ||| r)).setZN (s.cpu.a ||| r)) s)

/-- 45 R221: ROL then AND. -/
def execRla (m : AddrMode) (s : State) : Host.Outcome State Fault Refusal :=
  .next (rmwInstr m rolTransform (fun r s => (s.setA (s.cpu.a &&& r)).setZN (s.cpu.a &&& r)) s)

/-- 45 R222: LSR then EOR. -/
def execSre (m : AddrMode) (s : State) : Host.Outcome State Fault Refusal :=
  .next (rmwInstr m lsrTransform (fun r s => (s.setA (s.cpu.a ^^^ r)).setZN (s.cpu.a ^^^ r)) s)

/-- 45 R223: ROR then ADC with the carry the rotate shifted out. -/
def execRra (m : AddrMode) (s : State) : Host.Outcome State Fault Refusal :=
  .next (rmwInstr m rorTransform addWithCarry s)

/-- 45 R224 -/
def execSax (m : AddrMode) (s : State) : Host.Outcome State Fault Refusal :=
  .next (writeInstr m (fun s => s.cpu.a &&& s.cpu.x) s)

/-- 45 R225 -/
def execLax (m : AddrMode) (s : State) : Host.Outcome State Fault Refusal :=
  .next (readInstr (.mem m) (fun b s => ((s.setA b).setX b).setZN b) s)

/-- 45 R226: DEC then CMP. -/
def execDcp (m : AddrMode) (s : State) : Host.Outcome State Fault Refusal :=
  .next (rmwInstr m (fun b p => (b - 1, p)) (fun r s => s.setP (compareStatus s.cpu.p s.cpu.a r)) s)

/-- 45 R227: INC then SBC. -/
def execIsc (m : AddrMode) (s : State) : Host.Outcome State Fault Refusal :=
  .next (rmwInstr m (fun b p => (b + 1, p)) subWithCarry s)

/-- 45 R228: nothing, whichever of the 53 bytes it was; 0 cycles are charged (50 R248). -/
def execXxx (_op : Byte) (s : State) : Host.Outcome State Fault Refusal := .next (s.charge 0)

end Sys2Proof.Machine
end

