-- ==== Sys2Proof/WellFormed.lean ====
section
/-! DEFINITION. Which instructions the opcode map of spec 30_encoding.md R119 has: each mnemonic with
exactly its formats, and `XXX` with exactly the 53 bytes of 30 R122. -/

namespace Sys2Proof

/-- The 53 bytes bound to `XXX` (30 R122). -/
def xxxBytes : List Byte :=
  [0x02, 0x04, 0x0B, 0x0C, 0x12, 0x14, 0x1A, 0x1C, 0x22, 0x2B, 0x32, 0x34, 0x3A, 0x3C] ++
  [0x42, 0x44, 0x4B, 0x52, 0x54, 0x5A, 0x5C, 0x62, 0x64, 0x6B, 0x72, 0x74, 0x7A, 0x7C] ++
  [0x80, 0x82, 0x89, 0x8B, 0x92, 0x93, 0x9B, 0x9C, 0x9E, 0x9F, 0xAB, 0xB2, 0xBB] ++
  [0xC2, 0xCB, 0xD2, 0xD4, 0xDA, 0xDC, 0xE2, 0xEB, 0xF2, 0xF4, 0xFA, 0xFC]

/-- The formats of the instruction's mnemonic (30 R119). -/
def Instr.formats : Instr → List Format
  | .lda _ | .adc _ | .sbc _ | .and _ | .ora _ | .eor _ | .cmp _ =>
    [.IMM, .ZP, .ZPX, .ABS, .ABX, .ABY, .IZX, .IZY]
  | .ldx _ => [.IMM, .ZP, .ZPY, .ABS, .ABY]
  | .ldy _ => [.IMM, .ZP, .ZPX, .ABS, .ABX]
  | .cpx _ | .cpy _ => [.IMM, .ZP, .ABS]
  | .sta _ => [.ZP, .ZPX, .ABS, .ABX, .ABY, .IZX, .IZY]
  | .stx _ => [.ZP, .ZPY, .ABS]
  | .sty _ => [.ZP, .ZPX, .ABS]
  | .bit _ => [.ZP, .ABS]
  | .inc _ | .dec _ => [.ZP, .ZPX, .ABS, .ABX]
  | .asl _ | .lsr _ | .rol _ | .ror _ => [.ACC, .ZP, .ZPX, .ABS, .ABX]
  | .slo _ | .rla _ | .sre _ | .rra _ | .dcp _ | .isc _ => [.ZP, .ZPX, .ABS, .ABX, .ABY, .IZX, .IZY]
  | .sax _ => [.ZP, .ZPY, .ABS, .IZX]
  | .lax _ => [.ZP, .ZPY, .ABS, .ABY, .IZX, .IZY]
  | .jmp _ | .jsr _ => [.ABS]
  | .jmpInd _ => [.IND]
  | .bpl _ | .bmi _ | .bvc _ | .bvs _ | .bcc _ | .bcs _ | .bne _ | .beq _ => [.REL]
  | .tax | .tay | .txa | .tya | .tsx | .txs | .pha | .php | .pla | .plp | .inx | .iny | .dex | .dey
  | .rts | .rti | .brk | .clc | .sec | .cli | .sei | .clv | .cld | .sed | .nop | .xxx _ => [.IMP]

/-- The opcode byte an `XXX` carries is one of the 53; every other instruction carries none. -/
def Instr.byteOk : Instr → Bool
  | .xxx op => xxxBytes.contains op
  | _ => true

/-- The instruction is one of the 256 rows with operand bytes of its format (30 R118, R119). -/
def wellFormed (i : Instr) : Bool := i.formats.contains i.format && i.byteOk

end Sys2Proof
end

