-- ==== Sys2Proof/Decode.lean ====
section
/-! DEFINITION. The decoder and the encoder (spec 30_encoding.md). The decoder is the opcode map of
30 R119 row by row: it is total on the opcode byte (30 R118), and every byte with no other meaning is
`XXX` (30 R122). The encoder is written from the same table, mnemonic by mnemonic. -/

namespace Sys2Proof

/-- Row `0x` of the opcode map (30 R119, R120); every byte with no other meaning is `XXX` (30 R122). -/
def decodeRow0 (op b1 : Byte) (w : Word) (col : Nat) : Instr :=
  match col with
  | 0x0 => .brk
  | 0x1 => .ora (.mem (.izx b1))
  | 0x3 => .slo (.izx b1)
  | 0x5 => .ora (.mem (.zp b1))
  | 0x6 => .asl (.mem (.zp b1))
  | 0x7 => .slo (.zp b1)
  | 0x8 => .php
  | 0x9 => .ora (.imm b1)
  | 0xA => .asl .acc
  | 0xD => .ora (.mem (.abs w))
  | 0xE => .asl (.mem (.abs w))
  | 0xF => .slo (.abs w)
  | _ => .xxx op

/-- Row `1x` of the opcode map (30 R119, R120); every byte with no other meaning is `XXX` (30 R122). -/
def decodeRow1 (op b1 : Byte) (w : Word) (col : Nat) : Instr :=
  match col with
  | 0x0 => .bpl b1
  | 0x1 => .ora (.mem (.izy b1))
  | 0x3 => .slo (.izy b1)
  | 0x5 => .ora (.mem (.zpx b1))
  | 0x6 => .asl (.mem (.zpx b1))
  | 0x7 => .slo (.zpx b1)
  | 0x8 => .clc
  | 0x9 => .ora (.mem (.aby w))
  | 0xB => .slo (.aby w)
  | 0xD => .ora (.mem (.abx w))
  | 0xE => .asl (.mem (.abx w))
  | 0xF => .slo (.abx w)
  | _ => .xxx op

/-- Row `2x` of the opcode map (30 R119, R120); every byte with no other meaning is `XXX` (30 R122). -/
def decodeRow2 (op b1 : Byte) (w : Word) (col : Nat) : Instr :=
  match col with
  | 0x0 => .jsr w
  | 0x1 => .and (.mem (.izx b1))
  | 0x3 => .rla (.izx b1)
  | 0x4 => .bit (.zp b1)
  | 0x5 => .and (.mem (.zp b1))
  | 0x6 => .rol (.mem (.zp b1))
  | 0x7 => .rla (.zp b1)
  | 0x8 => .plp
  | 0x9 => .and (.imm b1)
  | 0xA => .rol .acc
  | 0xC => .bit (.abs w)
  | 0xD => .and (.mem (.abs w))
  | 0xE => .rol (.mem (.abs w))
  | 0xF => .rla (.abs w)
  | _ => .xxx op

/-- Row `3x` of the opcode map (30 R119, R120); every byte with no other meaning is `XXX` (30 R122). -/
def decodeRow3 (op b1 : Byte) (w : Word) (col : Nat) : Instr :=
  match col with
  | 0x0 => .bmi b1
  | 0x1 => .and (.mem (.izy b1))
  | 0x3 => .rla (.izy b1)
  | 0x5 => .and (.mem (.zpx b1))
  | 0x6 => .rol (.mem (.zpx b1))
  | 0x7 => .rla (.zpx b1)
  | 0x8 => .sec
  | 0x9 => .and (.mem (.aby w))
  | 0xB => .rla (.aby w)
  | 0xD => .and (.mem (.abx w))
  | 0xE => .rol (.mem (.abx w))
  | 0xF => .rla (.abx w)
  | _ => .xxx op

/-- Row `4x` of the opcode map (30 R119, R120); every byte with no other meaning is `XXX` (30 R122). -/
def decodeRow4 (op b1 : Byte) (w : Word) (col : Nat) : Instr :=
  match col with
  | 0x0 => .rti
  | 0x1 => .eor (.mem (.izx b1))
  | 0x3 => .sre (.izx b1)
  | 0x5 => .eor (.mem (.zp b1))
  | 0x6 => .lsr (.mem (.zp b1))
  | 0x7 => .sre (.zp b1)
  | 0x8 => .pha
  | 0x9 => .eor (.imm b1)
  | 0xA => .lsr .acc
  | 0xC => .jmp w
  | 0xD => .eor (.mem (.abs w))
  | 0xE => .lsr (.mem (.abs w))
  | 0xF => .sre (.abs w)
  | _ => .xxx op

/-- Row `5x` of the opcode map (30 R119, R120); every byte with no other meaning is `XXX` (30 R122). -/
def decodeRow5 (op b1 : Byte) (w : Word) (col : Nat) : Instr :=
  match col with
  | 0x0 => .bvc b1
  | 0x1 => .eor (.mem (.izy b1))
  | 0x3 => .sre (.izy b1)
  | 0x5 => .eor (.mem (.zpx b1))
  | 0x6 => .lsr (.mem (.zpx b1))
  | 0x7 => .sre (.zpx b1)
  | 0x8 => .cli
  | 0x9 => .eor (.mem (.aby w))
  | 0xB => .sre (.aby w)
  | 0xD => .eor (.mem (.abx w))
  | 0xE => .lsr (.mem (.abx w))
  | 0xF => .sre (.abx w)
  | _ => .xxx op

/-- Row `6x` of the opcode map (30 R119, R120); every byte with no other meaning is `XXX` (30 R122). -/
def decodeRow6 (op b1 : Byte) (w : Word) (col : Nat) : Instr :=
  match col with
  | 0x0 => .rts
  | 0x1 => .adc (.mem (.izx b1))
  | 0x3 => .rra (.izx b1)
  | 0x5 => .adc (.mem (.zp b1))
  | 0x6 => .ror (.mem (.zp b1))
  | 0x7 => .rra (.zp b1)
  | 0x8 => .pla
  | 0x9 => .adc (.imm b1)
  | 0xA => .ror .acc
  | 0xC => .jmpInd w
  | 0xD => .adc (.mem (.abs w))
  | 0xE => .ror (.mem (.abs w))
  | 0xF => .rra (.abs w)
  | _ => .xxx op

/-- Row `7x` of the opcode map (30 R119, R120); every byte with no other meaning is `XXX` (30 R122). -/
def decodeRow7 (op b1 : Byte) (w : Word) (col : Nat) : Instr :=
  match col with
  | 0x0 => .bvs b1
  | 0x1 => .adc (.mem (.izy b1))
  | 0x3 => .rra (.izy b1)
  | 0x5 => .adc (.mem (.zpx b1))
  | 0x6 => .ror (.mem (.zpx b1))
  | 0x7 => .rra (.zpx b1)
  | 0x8 => .sei
  | 0x9 => .adc (.mem (.aby w))
  | 0xB => .rra (.aby w)
  | 0xD => .adc (.mem (.abx w))
  | 0xE => .ror (.mem (.abx w))
  | 0xF => .rra (.abx w)
  | _ => .xxx op

/-- Row `8x` of the opcode map (30 R119, R120); every byte with no other meaning is `XXX` (30 R122). -/
def decodeRow8 (op b1 : Byte) (w : Word) (col : Nat) : Instr :=
  match col with
  | 0x1 => .sta (.izx b1)
  | 0x3 => .sax (.izx b1)
  | 0x4 => .sty (.zp b1)
  | 0x5 => .sta (.zp b1)
  | 0x6 => .stx (.zp b1)
  | 0x7 => .sax (.zp b1)
  | 0x8 => .dey
  | 0xA => .txa
  | 0xC => .sty (.abs w)
  | 0xD => .sta (.abs w)
  | 0xE => .stx (.abs w)
  | 0xF => .sax (.abs w)
  | _ => .xxx op

/-- Row `9x` of the opcode map (30 R119, R120); every byte with no other meaning is `XXX` (30 R122). -/
def decodeRow9 (op b1 : Byte) (w : Word) (col : Nat) : Instr :=
  match col with
  | 0x0 => .bcc b1
  | 0x1 => .sta (.izy b1)
  | 0x4 => .sty (.zpx b1)
  | 0x5 => .sta (.zpx b1)
  | 0x6 => .stx (.zpy b1)
  | 0x7 => .sax (.zpy b1)
  | 0x8 => .tya
  | 0x9 => .sta (.aby w)
  | 0xA => .txs
  | 0xD => .sta (.abx w)
  | _ => .xxx op

/-- Row `Ax` of the opcode map (30 R119, R120); every byte with no other meaning is `XXX` (30 R122). -/
def decodeRowA (op b1 : Byte) (w : Word) (col : Nat) : Instr :=
  match col with
  | 0x0 => .ldy (.imm b1)
  | 0x1 => .lda (.mem (.izx b1))
  | 0x2 => .ldx (.imm b1)
  | 0x3 => .lax (.izx b1)
  | 0x4 => .ldy (.mem (.zp b1))
  | 0x5 => .lda (.mem (.zp b1))
  | 0x6 => .ldx (.mem (.zp b1))
  | 0x7 => .lax (.zp b1)
  | 0x8 => .tay
  | 0x9 => .lda (.imm b1)
  | 0xA => .tax
  | 0xC => .ldy (.mem (.abs w))
  | 0xD => .lda (.mem (.abs w))
  | 0xE => .ldx (.mem (.abs w))
  | 0xF => .lax (.abs w)
  | _ => .xxx op

/-- Row `Bx` of the opcode map (30 R119, R120); every byte with no other meaning is `XXX` (30 R122). -/
def decodeRowB (op b1 : Byte) (w : Word) (col : Nat) : Instr :=
  match col with
  | 0x0 => .bcs b1
  | 0x1 => .lda (.mem (.izy b1))
  | 0x3 => .lax (.izy b1)
  | 0x4 => .ldy (.mem (.zpx b1))
  | 0x5 => .lda (.mem (.zpx b1))
  | 0x6 => .ldx (.mem (.zpy b1))
  | 0x7 => .lax (.zpy b1)
  | 0x8 => .clv
  | 0x9 => .lda (.mem (.aby w))
  | 0xA => .tsx
  | 0xC => .ldy (.mem (.abx w))
  | 0xD => .lda (.mem (.abx w))
  | 0xE => .ldx (.mem (.aby w))
  | 0xF => .lax (.aby w)
  | _ => .xxx op

/-- Row `Cx` of the opcode map (30 R119, R120); every byte with no other meaning is `XXX` (30 R122). -/
def decodeRowC (op b1 : Byte) (w : Word) (col : Nat) : Instr :=
  match col with
  | 0x0 => .cpy (.imm b1)
  | 0x1 => .cmp (.mem (.izx b1))
  | 0x3 => .dcp (.izx b1)
  | 0x4 => .cpy (.mem (.zp b1))
  | 0x5 => .cmp (.mem (.zp b1))
  | 0x6 => .dec (.zp b1)
  | 0x7 => .dcp (.zp b1)
  | 0x8 => .iny
  | 0x9 => .cmp (.imm b1)
  | 0xA => .dex
  | 0xC => .cpy (.mem (.abs w))
  | 0xD => .cmp (.mem (.abs w))
  | 0xE => .dec (.abs w)
  | 0xF => .dcp (.abs w)
  | _ => .xxx op

/-- Row `Dx` of the opcode map (30 R119, R120); every byte with no other meaning is `XXX` (30 R122). -/
def decodeRowD (op b1 : Byte) (w : Word) (col : Nat) : Instr :=
  match col with
  | 0x0 => .bne b1
  | 0x1 => .cmp (.mem (.izy b1))
  | 0x3 => .dcp (.izy b1)
  | 0x5 => .cmp (.mem (.zpx b1))
  | 0x6 => .dec (.zpx b1)
  | 0x7 => .dcp (.zpx b1)
  | 0x8 => .cld
  | 0x9 => .cmp (.mem (.aby w))
  | 0xB => .dcp (.aby w)
  | 0xD => .cmp (.mem (.abx w))
  | 0xE => .dec (.abx w)
  | 0xF => .dcp (.abx w)
  | _ => .xxx op

/-- Row `Ex` of the opcode map (30 R119, R120); every byte with no other meaning is `XXX` (30 R122). -/
def decodeRowE (op b1 : Byte) (w : Word) (col : Nat) : Instr :=
  match col with
  | 0x0 => .cpx (.imm b1)
  | 0x1 => .sbc (.mem (.izx b1))
  | 0x3 => .isc (.izx b1)
  | 0x4 => .cpx (.mem (.zp b1))
  | 0x5 => .sbc (.mem (.zp b1))
  | 0x6 => .inc (.zp b1)
  | 0x7 => .isc (.zp b1)
  | 0x8 => .inx
  | 0x9 => .sbc (.imm b1)
  | 0xA => .nop
  | 0xC => .cpx (.mem (.abs w))
  | 0xD => .sbc (.mem (.abs w))
  | 0xE => .inc (.abs w)
  | 0xF => .isc (.abs w)
  | _ => .xxx op

/-- Row `Fx` of the opcode map (30 R119, R120); every byte with no other meaning is `XXX` (30 R122). -/
def decodeRowF (op b1 : Byte) (w : Word) (col : Nat) : Instr :=
  match col with
  | 0x0 => .beq b1
  | 0x1 => .sbc (.mem (.izy b1))
  | 0x3 => .isc (.izy b1)
  | 0x5 => .sbc (.mem (.zpx b1))
  | 0x6 => .inc (.zpx b1)
  | 0x7 => .isc (.zpx b1)
  | 0x8 => .sed
  | 0x9 => .sbc (.mem (.aby w))
  | 0xB => .isc (.aby w)
  | 0xD => .sbc (.mem (.abx w))
  | 0xE => .inc (.abx w)
  | 0xF => .isc (.abx w)
  | _ => .xxx op

/-- The instruction with opcode byte `op` and operand bytes `b1`, `b2` (30 R100, R118): the operand word
is `word(b2, b1)`, low byte first (30 R109, R117). Operand bytes a format does not have are not read. -/
def decodeBytes (op b1 b2 : Byte) : Instr :=
  match op.toNat / 16 with
  | 0x0 => decodeRow0 op b1 (word b2 b1) (op.toNat % 16)
  | 0x1 => decodeRow1 op b1 (word b2 b1) (op.toNat % 16)
  | 0x2 => decodeRow2 op b1 (word b2 b1) (op.toNat % 16)
  | 0x3 => decodeRow3 op b1 (word b2 b1) (op.toNat % 16)
  | 0x4 => decodeRow4 op b1 (word b2 b1) (op.toNat % 16)
  | 0x5 => decodeRow5 op b1 (word b2 b1) (op.toNat % 16)
  | 0x6 => decodeRow6 op b1 (word b2 b1) (op.toNat % 16)
  | 0x7 => decodeRow7 op b1 (word b2 b1) (op.toNat % 16)
  | 0x8 => decodeRow8 op b1 (word b2 b1) (op.toNat % 16)
  | 0x9 => decodeRow9 op b1 (word b2 b1) (op.toNat % 16)
  | 0xA => decodeRowA op b1 (word b2 b1) (op.toNat % 16)
  | 0xB => decodeRowB op b1 (word b2 b1) (op.toNat % 16)
  | 0xC => decodeRowC op b1 (word b2 b1) (op.toNat % 16)
  | 0xD => decodeRowD op b1 (word b2 b1) (op.toNat % 16)
  | 0xE => decodeRowE op b1 (word b2 b1) (op.toNat % 16)
  | _ => decodeRowF op b1 (word b2 b1) (op.toNat % 16)

/-- The number of bytes the opcode byte announces: 1, 2 or 3 (30 R100). -/
def opcodeLength (op : Byte) : Nat := (decodeBytes op 0 0).length

/-- Why a byte list is no instruction: it ends before the bytes its opcode announces. -/
inductive DecodeError where
  | truncated
deriving DecidableEq, Repr

/-- The instruction at the head of a byte list, and the rest of the list. -/
def decode : List Byte → Except DecodeError (Instr × List Byte)
  | [] => .error .truncated
  | op :: rest =>
    if rest.length + 1 < opcodeLength op then .error .truncated
    else .ok (decodeBytes op (rest.getD 0 0) (rest.getD 1 0), rest.drop (opcodeLength op - 1))

/-- The opcode bytes of the instruction's mnemonic, by format: the "Encoding" lines of the instruction
rules (40 R141 to 45 R228). -/
def Instr.opcodes : Instr → List (Format × Byte)
  | .lda _ => [(.IMM, 0xA9), (.ZP, 0xA5), (.ZPX, 0xB5), (.ABS, 0xAD), (.ABX, 0xBD), (.ABY, 0xB9),
      (.IZX, 0xA1), (.IZY, 0xB1)]
  | .ldx _ => [(.IMM, 0xA2), (.ZP, 0xA6), (.ZPY, 0xB6), (.ABS, 0xAE), (.ABY, 0xBE)]
  | .ldy _ => [(.IMM, 0xA0), (.ZP, 0xA4), (.ZPX, 0xB4), (.ABS, 0xAC), (.ABX, 0xBC)]
  | .sta _ => [(.ZP, 0x85), (.ZPX, 0x95), (.ABS, 0x8D), (.ABX, 0x9D), (.ABY, 0x99), (.IZX, 0x81),
      (.IZY, 0x91)]
  | .stx _ => [(.ZP, 0x86), (.ZPY, 0x96), (.ABS, 0x8E)]
  | .sty _ => [(.ZP, 0x84), (.ZPX, 0x94), (.ABS, 0x8C)]
  | .tax => [(.IMP, 0xAA)]
  | .tay => [(.IMP, 0xA8)]
  | .txa => [(.IMP, 0x8A)]
  | .tya => [(.IMP, 0x98)]
  | .tsx => [(.IMP, 0xBA)]
  | .txs => [(.IMP, 0x9A)]
  | .pha => [(.IMP, 0x48)]
  | .php => [(.IMP, 0x08)]
  | .pla => [(.IMP, 0x68)]
  | .plp => [(.IMP, 0x28)]
  | .adc _ => [(.IMM, 0x69), (.ZP, 0x65), (.ZPX, 0x75), (.ABS, 0x6D), (.ABX, 0x7D), (.ABY, 0x79),
      (.IZX, 0x61), (.IZY, 0x71)]
  | .sbc _ => [(.IMM, 0xE9), (.ZP, 0xE5), (.ZPX, 0xF5), (.ABS, 0xED), (.ABX, 0xFD), (.ABY, 0xF9),
      (.IZX, 0xE1), (.IZY, 0xF1)]
  | .and _ => [(.IMM, 0x29), (.ZP, 0x25), (.ZPX, 0x35), (.ABS, 0x2D), (.ABX, 0x3D), (.ABY, 0x39),
      (.IZX, 0x21), (.IZY, 0x31)]
  | .ora _ => [(.IMM, 0x09), (.ZP, 0x05), (.ZPX, 0x15), (.ABS, 0x0D), (.ABX, 0x1D), (.ABY, 0x19),
      (.IZX, 0x01), (.IZY, 0x11)]
  | .eor _ => [(.IMM, 0x49), (.ZP, 0x45), (.ZPX, 0x55), (.ABS, 0x4D), (.ABX, 0x5D), (.ABY, 0x59),
      (.IZX, 0x41), (.IZY, 0x51)]
  | .cmp _ => [(.IMM, 0xC9), (.ZP, 0xC5), (.ZPX, 0xD5), (.ABS, 0xCD), (.ABX, 0xDD), (.ABY, 0xD9),
      (.IZX, 0xC1), (.IZY, 0xD1)]
  | .cpx _ => [(.IMM, 0xE0), (.ZP, 0xE4), (.ABS, 0xEC)]
  | .cpy _ => [(.IMM, 0xC0), (.ZP, 0xC4), (.ABS, 0xCC)]
  | .bit _ => [(.ZP, 0x24), (.ABS, 0x2C)]
  | .inc _ => [(.ZP, 0xE6), (.ZPX, 0xF6), (.ABS, 0xEE), (.ABX, 0xFE)]
  | .dec _ => [(.ZP, 0xC6), (.ZPX, 0xD6), (.ABS, 0xCE), (.ABX, 0xDE)]
  | .inx => [(.IMP, 0xE8)]
  | .iny => [(.IMP, 0xC8)]
  | .dex => [(.IMP, 0xCA)]
  | .dey => [(.IMP, 0x88)]
  | .asl _ => [(.ACC, 0x0A), (.ZP, 0x06), (.ZPX, 0x16), (.ABS, 0x0E), (.ABX, 0x1E)]
  | .lsr _ => [(.ACC, 0x4A), (.ZP, 0x46), (.ZPX, 0x56), (.ABS, 0x4E), (.ABX, 0x5E)]
  | .rol _ => [(.ACC, 0x2A), (.ZP, 0x26), (.ZPX, 0x36), (.ABS, 0x2E), (.ABX, 0x3E)]
  | .ror _ => [(.ACC, 0x6A), (.ZP, 0x66), (.ZPX, 0x76), (.ABS, 0x6E), (.ABX, 0x7E)]
  | .jmp _ => [(.ABS, 0x4C)]
  | .jmpInd _ => [(.IND, 0x6C)]
  | .jsr _ => [(.ABS, 0x20)]
  | .rts => [(.IMP, 0x60)]
  | .rti => [(.IMP, 0x40)]
  | .brk => [(.IMP, 0x00)]
  | .bpl _ => [(.REL, 0x10)]
  | .bmi _ => [(.REL, 0x30)]
  | .bvc _ => [(.REL, 0x50)]
  | .bvs _ => [(.REL, 0x70)]
  | .bcc _ => [(.REL, 0x90)]
  | .bcs _ => [(.REL, 0xB0)]
  | .bne _ => [(.REL, 0xD0)]
  | .beq _ => [(.REL, 0xF0)]
  | .clc => [(.IMP, 0x18)]
  | .sec => [(.IMP, 0x38)]
  | .cli => [(.IMP, 0x58)]
  | .sei => [(.IMP, 0x78)]
  | .clv => [(.IMP, 0xB8)]
  | .cld => [(.IMP, 0xD8)]
  | .sed => [(.IMP, 0xF8)]
  | .nop => [(.IMP, 0xEA)]
  | .slo _ => [(.ZP, 0x07), (.ZPX, 0x17), (.ABS, 0x0F), (.ABX, 0x1F), (.ABY, 0x1B), (.IZX, 0x03),
      (.IZY, 0x13)]
  | .rla _ => [(.ZP, 0x27), (.ZPX, 0x37), (.ABS, 0x2F), (.ABX, 0x3F), (.ABY, 0x3B), (.IZX, 0x23),
      (.IZY, 0x33)]
  | .sre _ => [(.ZP, 0x47), (.ZPX, 0x57), (.ABS, 0x4F), (.ABX, 0x5F), (.ABY, 0x5B), (.IZX, 0x43),
      (.IZY, 0x53)]
  | .rra _ => [(.ZP, 0x67), (.ZPX, 0x77), (.ABS, 0x6F), (.ABX, 0x7F), (.ABY, 0x7B), (.IZX, 0x63),
      (.IZY, 0x73)]
  | .sax _ => [(.ZP, 0x87), (.ZPY, 0x97), (.ABS, 0x8F), (.IZX, 0x83)]
  | .lax _ => [(.ZP, 0xA7), (.ZPY, 0xB7), (.ABS, 0xAF), (.ABY, 0xBF), (.IZX, 0xA3), (.IZY, 0xB3)]
  | .dcp _ => [(.ZP, 0xC7), (.ZPX, 0xD7), (.ABS, 0xCF), (.ABX, 0xDF), (.ABY, 0xDB), (.IZX, 0xC3),
      (.IZY, 0xD3)]
  | .isc _ => [(.ZP, 0xE7), (.ZPX, 0xF7), (.ABS, 0xEF), (.ABX, 0xFF), (.ABY, 0xFB), (.IZX, 0xE3),
      (.IZY, 0xF3)]
  | .xxx op => [(.IMP, op)]

/-- The opcode byte of a well-formed instruction; `none` for one that is not. -/
def Instr.opcode (i : Instr) : Option Byte :=
  if i.byteOk then i.opcodes.lookup i.format else none

/-- The two bytes of a word, low byte first (20 R62). -/
def wordBytes (w : Word) : List Byte := [lo w, hi w]

def AddrMode.operandBytes : AddrMode → List Byte
  | .zp b | .zpx b | .zpy b | .izx b | .izy b => [b]
  | .abs w | .abx w | .aby w => wordBytes w

def ReadOp.operandBytes : ReadOp → List Byte
  | .imm b => [b]
  | .mem m => m.operandBytes

def ShiftOp.operandBytes : ShiftOp → List Byte
  | .acc => []
  | .mem m => m.operandBytes

/-- The operand bytes in ascending address order (30 R100, R117). -/
def Instr.operandBytes : Instr → List Byte
  | .lda o | .ldx o | .ldy o | .adc o | .sbc o | .and o | .ora o | .eor o | .cmp o | .cpx o | .cpy o =>
    o.operandBytes
  | .sta m | .stx m | .sty m | .bit m | .inc m | .dec m | .slo m | .rla m | .sre m | .rra m | .sax m
  | .lax m | .dcp m | .isc m => m.operandBytes
  | .asl o | .lsr o | .rol o | .ror o => o.operandBytes
  | .jmp w | .jsr w | .jmpInd w => wordBytes w
  | .bpl b | .bmi b | .bvc b | .bvs b | .bcc b | .bcs b | .bne b | .beq b => [b]
  | .tax | .tay | .txa | .tya | .tsx | .txs | .pha | .php | .pla | .plp | .inx | .iny | .dex | .dey
  | .rts | .rti | .brk | .clc | .sec | .cli | .sei | .clv | .cld | .sed | .nop | .xxx _ => []

/-- The bytes of a well-formed instruction; `none` for one that is not. -/
def encode (i : Instr) : Option (List Byte) := i.opcode.map fun op => op :: i.operandBytes

/-- The instruction the decoder reads where the bits of the instruction are `w`, bit 0 the least
significant bit of the first byte, and the bits from `nbits` up are 0. -/
def decodeTableWord (nbits w : Nat) : Option Instr :=
  let v := w % 2 ^ nbits
  match decode [BitVec.ofNat 8 v, BitVec.ofNat 8 (v / 256), BitVec.ofNat 8 (v / 65536)] with
  | .ok (i, _) => some i
  | .error _ => none

end Sys2Proof
end

