-- ==== Sys2Proof/Machine/Pipeline.lean ====
section
/-! DEFINITION. The parts of `Step()` around the execution of an instruction (spec 50_pipeline.md R241),
and the placing of an instruction where the next step fetches it (log entry 3). -/

namespace Sys2Proof.Machine

/-- `cycles_total <- cycles_total + 1` (50 R249). -/
def countCycle (s : State) : State := { s with cpu := { s.cpu with cyclesTotal := s.cpu.cyclesTotal + 1 } }

/-- `skip > 1`: the step lies inside a slot (50 R241). -/
def insideSlot (s : State) : Bool := decide (1 < s.cpu.skip.toNat)

/-- A step inside a slot: the counter, and the vector of an interrupt sequence at cycle `RC` (50 R241). -/
def countDown (s : State) : State :=
  let s := { s with cpu := { s.cpu with skip := s.cpu.skip - 1 } }
  if s.cpu.inInterrupt && s.cpu.skip.toNat == s.cfg.rc.skipLeft then resolveVector s else s

/-- The slot boundary: `skip` zeroed, and a sequence left open by `Load` resolved (50 R241, R254). -/
def openSlot (s : State) : State :=
  let s := { s with cpu := { s.cpu with skip := 0 } }
  if s.cpu.inInterrupt then resolveVector s else s

/-- An NMI taken at the boundary (50 R241). -/
def takeNmi (s : State) : State :=
  (beginInterrupt .nmi
    { s with cpu := { s.cpu with latch := { s.cpu.latch with nmi := false } } }).charge 7

/-- An IRQ taken at the boundary (50 R241). -/
def takeIrq (s : State) : State :=
  (beginInterrupt .irq
    { s with cpu := { s.cpu with latch := { s.cpu.latch with irq := false } } }).charge 7

/-- The interrupt poll at the boundary: NMI first, else IRQ if not masked (50 R241, R247, 60 R280). -/
def pollInterrupt (s : State) : Option State :=
  if s.cpu.latch.nmi then some (takeNmi s)
  else if s.cpu.latch.irq && !flagI s.cpu.p then some (takeIrq s)
  else none

/-- The fetch of one instruction: `page_cross` cleared, the opcode byte and the operand bytes of its
format read through the bus in ascending order (30 R100, 50 R241, R242). -/
def fetchInstr (s : State) : Instr × State :=
  let op := fetch (s.setPageCross false)
  let n := opcodeLength op.1
  let b1 := if 2 ≤ n then fetch op.2 else (0, op.2)
  let b2 := if 3 ≤ n then fetch b1.2 else (0, b1.2)
  (decodeBytes op.1 b1.1 b2.1, b2.2)

/-! ## Placing an instruction -/

/-- The address is in work RAM, PRG RAM or PRG ROM: a byte can be placed there and fetched back. -/
def placeable (addr : Word) : Bool := decide (addr.toNat < 0x2000) || decide (0x6000 ≤ addr.toNat)

/-- Place a byte where a fetch of `addr` reads it: in work RAM, PRG RAM, or the PRG ROM image under the
mapper's present windows. -/
def placeByte (s : State) (addr : Word) (b : Byte) : State :=
  let n := addr.toNat
  if n < 0x2000 then { s with ram := s.ram.write (n &&& 0x07FF) b }
  else if n < 0x6000 then s
  else if n < 0x8000 then { s with prgRam := s.prgRam.write (n - 0x6000) b }
  else { s with cart := { s.cart with prg := s.cart.prg.write (prgOffset s.cart s.mapper addr) b } }

/-- `PC`, or 0x0000 in work RAM where one of the three bytes at `PC` has no memory behind it. -/
def placePc (s : State) : Word :=
  if placeable s.cpu.pc && placeable (s.cpu.pc + 1) && placeable (s.cpu.pc + 2) then s.cpu.pc else 0

/-- The CPU at a boundary at which nothing but a fetch at `pc` happens. -/
def Cpu.atBoundary (c : Cpu) (pc : Word) : Cpu :=
  { c with
    pc := pc
    skip := if 1 < c.skip.toNat then 0 else c.skip
    inInterrupt := false
    latch := { c.latch with nmi := false, irq := c.latch.irq && flagI c.p } }

/-- Three bytes placed where the next step fetches its instruction, the step being a boundary. -/
def placeInstr (s : State) (b0 b1 b2 : Byte) : State :=
  let pc := placePc s
  let s := { s with cpu := s.cpu.atBoundary pc }
  placeByte (placeByte (placeByte s pc b0) (pc + 1) b1) (pc + 2) b2

end Sys2Proof.Machine
end

