-- ==== Sys2Proof/Machine/Step.lean ====
section
/-! DEFINITION. One step: one master cycle (spec 61_bus_dma_io.md R316), that is one CPU `Step()`
(50_pipeline.md R241) and the device ticks that follow it (log entry 4). -/

namespace Sys2Proof.Machine

/-- The device ticks after a CPU step that answered a next state. -/
def thenDevices : Host.Outcome State Fault Refusal → Host.Outcome State Fault Refusal
  | .next t => .next (deviceTicks t)
  | .fault r => .fault r
  | .refused r => .refused r

/-- The CPU's boundary step with no interrupt to take: fetch, decode, execute (50 R241, R242). -/
def runInstr (s : State) : Host.Outcome State Fault Refusal :=
  let f := fetchInstr s
  exec f.1 f.2

/-- The CPU's `Step()` (50 R241). -/
def cpuStep (s : State) : Host.Outcome State Fault Refusal :=
  let s := countCycle s
  if insideSlot s then .next (countDown s)
  else
    let s := openSlot s
    match pollInterrupt s with
    | some t => .next t
    | none => runInstr s

/-- `MasterCycle()` (61 R316). -/
def step (s : State) : Host.Outcome State Fault Refusal := thenDevices (cpuStep s)

/-- `s` with the instruction of bits `w` (numbered from the first byte's bit 0; bits from `nbits` up 0)
stored where `step` fetches its next instruction. -/
def State.withFetchWord (s : State) (nbits w : Nat) : State :=
  let v := w % 2 ^ nbits
  placeInstr s (BitVec.ofNat 8 v) (BitVec.ofNat 8 (v / 256)) (BitVec.ofNat 8 (v / 65536))

end Sys2Proof.Machine
end

