-- ==== Sys2Proof/Machine/HostCalls.lean ====
section
/-! DEFINITION. The calls the host makes between master cycles: the cartridge image, power-on, `Reset()`, the
buttons, frames and samples, `Save()` and `Load()` (spec 61_bus_dma_io.md R320 to R324, 65_save_restore.md,
70_reset_and_hazards.md R520, R521). None of them is a step; log entry 16. -/

namespace Sys2Proof.Machine

/-! ## Cartridge image (61 R321) -/

/-- Why a cartridge image is not accepted (61 R321, 64 R451). -/
inductive ImageError where
  | badMagic
  | nes2
  | unsupportedMapper
  | truncated
deriving DecidableEq, Repr

/-- The mapper of a mapper number, its registers zero until the reset that follows installation. -/
def Mapper.ofNumber : Nat → Option Mapper
  | 0 => some .nrom
  | 1 => some (.mmc1 { shift := 0, control := 0, chr0 := 0, chr1 := 0, prg := 0 })
  | 2 => some (.uxrom 0)
  | 3 => some (.cnrom 0)
  | 4 =>
    some (.mmc3
      { select := 0, r := Vector.replicate 8 0, irqLatch := 0, irqCounter := 0
        irqReload := false, irqEnable := false, irqFlag := false })
  | 65 =>
    some (.m65
      { p0 := 0, p1 := 0, p2 := 0, layout := false, c := Vector.replicate 8 0, irqEnable := false
        irqCounter := 0, irqReloadVal := 0, irqFlag := false })
  | _ => none

/-- Byte `i` of a file, 0 past its end. -/
def fileByte (file : List Byte) (i : Nat) : Byte := file.getD i 0

/-- The mapper number of a header (61 R321). -/
def imageMapper (file : List Byte) : Nat := ((fileByte file 7 &&& 0xF0) ||| (fileByte file 6 >>> 4)).toNat

/-- Where PRG ROM starts: after the header and, if there is one, the trainer (61 R321, D43). -/
def imagePrgStart (file : List Byte) : Nat := if bitOf (fileByte file 6) 2 then 16 + 512 else 16

/-- The bytes of PRG ROM and of CHR ROM by the header (61 R321). -/
def imagePrgSize (file : List Byte) : Nat := 16384 * (fileByte file 4).toNat
def imageChrSize (file : List Byte) : Nat := 8192 * (fileByte file 5).toNat

/-- The cartridge of an accepted image (61 R321, 64 R451). -/
def imageCartridge (file : List Byte) : Cartridge :=
  let start := imagePrgStart file
  { prgUnits := (fileByte file 4).toNat
    chrUnits := (fileByte file 5).toNat
    prg := Memory.ofBytes 0 ((file.drop start).take (imagePrgSize file))
    chr := Memory.ofBytes 0 ((file.drop (start + imagePrgSize file)).take (imageChrSize file))
    mirroring := if bitOf (fileByte file 6) 0 then .vertical else .horizontal
    battery := bitOf (fileByte file 6) 1
    trainer := bitOf (fileByte file 6) 2 }

/-- Build a cartridge and its mapper from an iNES file, or say why not (61 R321). Bytes after CHR ROM and
header bytes 8 to 15 are not looked at: log entry 18. -/
def parseImage (file : List Byte) : Except ImageError (Cartridge × Mapper) :=
  if file.take 4 ≠ [0x4E, 0x45, 0x53, 0x1A] then .error .badMagic
  else if (fileByte file 7).extractLsb' 2 2 = 2 then .error .nes2
  else if file.length < imagePrgStart file + imagePrgSize file + imageChrSize file then .error .truncated
  else if imagePrgSize file = 0 then .error .truncated
  else match Mapper.ofNumber (imageMapper file) with
    | none => .error .unsupportedMapper
    | some m => .ok (imageCartridge file, m)

/-! ## Reset and power-on -/

/-- `Reset()` of the CPU: the vector is read through the bus (10 R40). -/
def resetCpu (s : State) : State :=
  let r := read16 s 0xFFFC
  { r.2 with cpu := Cpu.initial s.cfg r.1 }

/-- `Reset()` of the machine: mapper, picture unit, audio unit, controllers, then the CPU (70 R520). The
memories, the buttons, the framebuffers and the audio queue stay (70 R521). -/
def hostReset (s : State) : State :=
  resetCpu
    { s with
      mapper := s.mapper.afterReset s.cart
      ppu :=
        { s.ppu.afterReset with mirroring := s.mapper.resetMirroring.getD s.ppu.mirroring }
      apu := Apu.initial
      pad := { s.pad with strobe := false, shift0 := 0, shift1 := 0 } }

/-- Power-on with a cartridge and its mapper: every memory zero, the header's mirroring, then `Reset()`
(70 R520, R521, 62 R334). -/
def powerOn (cfg : Config) (cart : Cartridge) (m : Mapper) : State :=
  hostReset
    { cfg := cfg
      cart := cart
      cpu := Cpu.initial cfg 0
      ram := [], prgRam := [], chrRam := []
      mapper := m
      pad := { strobe := false, shift0 := 0, shift1 := 0, buttons0 := 0, buttons1 := 0 }
      ppu := Ppu.initial cart.mirroring
      apu := Apu.initial
      audio := [] }

/-! ## Inputs and outputs -/

/-- The host sets the buttons of the two controllers (61 R312). -/
def setButtons (s : State) (b0 b1 : Byte) : State :=
  { s with pad := { s.pad with buttons0 := b0, buttons1 := b1 } }

/-- The published pixel at column `px` of line `line` (61 R322). -/
def shownPixel (s : State) (px line : Nat) : Byte := s.ppu.frameShown.read (256 * line + px)

/-- What the host gets with the published frame beside its pixels: greyscale and the three emphasis bits, the
lowest being PPUMASK bit 5 (62 R337; log entry 21). -/
def shownColour (s : State) : Bool × BitVec 3 := (s.ppu.shownGreyscale, s.ppu.shownEmphasis)

/-- The host takes the samples of the queue (61 R323). -/
def takeSamples (s : State) : List MixSample × State := (s.audio, { s with audio := [] })

/-! ## Save records

A record is the list of its fields, each a list of bytes, the least significant first (D39). The fields of
the picture unit, the mapper and the audio unit are one byte for each eight bits begun; log entry 9. -/

/-- `n` bytes of a number, the least significant first. -/
def leBytes : Nat → Nat → List Byte
  | 0, _ => []
  | n + 1, v => BitVec.ofNat 8 v :: leBytes n (v / 256)

/-- The number whose bytes these are, the least significant first. -/
def leNat : List Byte → Nat
  | [] => 0
  | b :: bs => b.toNat + 256 * leNat bs

/-- A one-byte field: a flag as 0 or 1. -/
def flagField (b : Bool) : List Byte := [boolByte b]

/-- The CPU record's `int_kind` byte (10 R33, 65 R503). -/
def kindByte : Option IntKind → Byte
  | none => 0
  | some .nmi => 1
  | some .irq => 2
  | some .brk => 4

/-- The CPU record's `latch` byte (10 R28, 65 R503). -/
def latchByte (l : Latch) : Byte := boolByte l.nmi ||| (boolByte l.irq <<< 1) ||| (boolByte l.brk <<< 2)

/-- The mode's code in the picture record: the order of 62 R330; log entry 9. -/
def Mirroring.code : Mirroring → Nat
  | .horizontal => 0
  | .vertical => 1
  | .singleLower => 2
  | .singleUpper => 3

/-- The CPU record (65 R503). -/
def cpuRecord (c : Cpu) : List (List Byte) :=
  [leBytes 2 c.pc.toNat, [c.sp], [c.p], [c.a], [c.x], [c.y], [latchByte c.latch]] ++
  [leBytes 4 c.skip.toNat, flagField c.pageCross, flagField c.inInterrupt, [kindByte c.intKind]] ++
  [leBytes 8 c.cyclesTotal.toNat]

/-- The picture record: the rows of 62 R330 but the framebuffer, in order (65 R506). Scanline and dot take 16 bits
each, so of a position outside the frame only the low 16 bits are kept: DESIGN CHOICE, log entry 19. -/
def ppuRecord (p : Ppu) : List (List Byte) :=
  [[p.ctrl], [p.mask], [p.status], [p.oamAddr], leBytes 2 p.v.toNat, leBytes 2 p.t.toNat, flagField p.w] ++
  [leBytes 1 p.x.toNat, [p.buffer], [p.ioLatch]] ++
  [p.vram.toBytes 2048, p.pal.toBytes 32, p.oam.toBytes 256] ++
  [p.spriteList.toList.map (BitVec.setWidth 8), leBytes 1 p.spriteCount.toNat] ++
  [leBytes 2 p.scanline, leBytes 2 p.dot, leBytes 4 p.frame.toNat] ++
  [[p.ntLatch], leBytes 1 p.atLatch.toNat, [p.plLatch], [p.phLatch]] ++
  [leBytes 2 p.bgLo.toNat, leBytes 2 p.bgHi.toNat, leBytes 1 p.atCur.toNat, leBytes 1 p.atNext.toNat] ++
  [flagField p.nmiSent, flagField p.suppressVbl, leBytes 1 p.mirroring.code]

/-- The registers of the mapper record, in the order of the mapper's state list (65 R507). -/
def mapperRecord : Mapper → List (List Byte)
  | .nrom => []
  | .mmc1 m =>
    [leBytes 1 m.shift.toNat, leBytes 1 m.control.toNat, leBytes 1 m.chr0.toNat, leBytes 1 m.chr1.toNat,
      leBytes 1 m.prg.toNat]
  | .uxrom bank => [[bank]]
  | .cnrom bank => [[bank]]
  | .mmc3 m =>
    [[m.select], m.r.toList, [m.irqLatch], [m.irqCounter], flagField m.irqReload, flagField m.irqEnable,
      flagField m.irqFlag]
  | .m65 m =>
    [[m.p0], [m.p1], [m.p2], flagField m.layout, m.c.toList, flagField m.irqEnable,
      leBytes 2 m.irqCounter.toNat, leBytes 2 m.irqReloadVal.toNat, flagField m.irqFlag]

/-- CHR RAM's field, if the cartridge has it (65 R507). -/
def chrRecord (s : State) : List (List Byte) :=
  if usesChrRam s.cart s.mapper then [s.chrRam.toBytes 8192] else []

def envelopeRecord (e : Envelope) : List (List Byte) :=
  [flagField e.const, leBytes 1 e.vol.toNat, flagField e.start, leBytes 1 e.div.toNat,
    leBytes 1 e.decay.toNat]

def pulseRecord (p : Pulse) : List (List Byte) :=
  [flagField p.enabled, leBytes 1 p.duty.toNat, leBytes 1 p.seq.toNat, leBytes 2 p.timerPeriod.toNat,
    leBytes 2 p.timer.toNat, [p.length], flagField p.halt] ++
  envelopeRecord p.env ++
  [flagField p.swEnable, leBytes 1 p.swPeriod.toNat, flagField p.swNegate, leBytes 1 p.swShift.toNat,
    leBytes 1 p.swDiv.toNat, flagField p.swReload]

def triangleRecord (t : Triangle) : List (List Byte) :=
  [flagField t.enabled, leBytes 2 t.timerPeriod.toNat, leBytes 2 t.timer.toNat, leBytes 1 t.seq.toNat,
    [t.length], flagField t.control, leBytes 1 t.linReloadVal.toNat, leBytes 1 t.lin.toNat,
    flagField t.linReload]

def noiseRecord (n : Noise) : List (List Byte) :=
  [flagField n.enabled, flagField n.mode, leBytes 1 n.periodIdx.toNat, leBytes 2 n.timer.toNat,
    leBytes 2 n.lfsr.toNat, [n.length], flagField n.halt] ++
  envelopeRecord n.env

def dmcRecord (c : Dmc) : List (List Byte) :=
  [flagField c.irqEnable, flagField c.loop, leBytes 1 c.rateIdx.toNat, leBytes 2 c.timer.toNat,
    leBytes 1 c.level.toNat, leBytes 2 c.sampleAddr.toNat, leBytes 2 c.sampleLen.toNat,
    leBytes 2 c.curAddr.toNat, leBytes 2 c.bytesLeft.toNat, [c.shift], leBytes 1 c.bitsLeft.toNat,
    flagField c.silence]

/-- The audio record: the fields of 63 R391 and R392 in order (65 R508). -/
def apuRecord (a : Apu) : List (List Byte) :=
  pulseRecord a.pulse1 ++ pulseRecord a.pulse2 ++ triangleRecord a.triangle ++ noiseRecord a.noise ++
  dmcRecord a.dmc ++
  [flagField a.fsMode, flagField a.fsInhibit, leBytes 2 a.fsCount.toNat, leBytes 1 a.fsStep.toNat,
    flagField a.frameIrq, flagField a.dmcIrq, flagField a.half, leBytes 8 a.acc.toNat]

/-- The fields of the save file after the header, in the order of 65 R501. -/
def saveFields (s : State) : List (List Byte) :=
  [s.ram.toBytes 2048] ++ cpuRecord s.cpu ++ ppuRecord s.ppu ++ mapperRecord s.mapper ++ chrRecord s ++
  apuRecord s.apu

/-- The header (65 R501, D39). -/
def saveHeader (cfg : Config) : List Byte := leBytes 4 cfg.saveMagic.toNat ++ leBytes 4 cfg.saveVersion.toNat

/-- `Save()`: the file; the state is read only (65 R500, R501, R504). -/
def save (s : State) : List Byte := saveHeader s.cfg ++ (saveFields s).flatten

/-! ## Load

A field is read back from its bytes: a number's bits above the field's width are dropped, a flag is bit 0
of its byte; log entry 14. -/

/-- A byte list cut into fields of the given sizes. -/
def cutFields : List Nat → List Byte → List (List Byte)
  | [], _ => []
  | n :: ns, bs => bs.take n :: cutFields ns (bs.drop n)

/-- Field `i` as a bit vector. -/
def fieldBits (n : Nat) (fs : List (List Byte)) (i : Nat) : BitVec n := BitVec.ofNat n (leNat (fs.getD i []))

/-- Field `i` as a flag. -/
def fieldFlag (fs : List (List Byte)) (i : Nat) : Bool := bitOf (fieldBits 8 fs i) 0

/-- Field `i` as a memory. -/
def fieldMemory (fs : List (List Byte)) (i : Nat) : Memory := Memory.ofBytes 0 (fs.getD i [])

/-- Byte `j` of field `i`. -/
def fieldByte (fs : List (List Byte)) (i j : Nat) : Byte := (fs.getD i []).getD j 0

/-- The interrupt kind of a code; another code reads as none (log entry 14). -/
def kindOfByte (b : Byte) : Option IntKind :=
  if b = 1 then some .nmi else if b = 2 then some .irq else if b = 4 then some .brk else none

/-- The mirroring mode of a code's low two bits (log entry 14). -/
def Mirroring.ofCode (n : Nat) : Mirroring :=
  match n % 4 with
  | 0 => .horizontal
  | 1 => .vertical
  | 2 => .singleLower
  | _ => .singleUpper

/-- The CPU of a CPU record; `P` is loaded with bit 5 forced to 1 and bit 4 to 0 (65 R503). -/
def cpuOfRecord (fs : List (List Byte)) : Cpu :=
  let latch := fieldBits 8 fs 6
  { pc := fieldBits 16 fs 0
    sp := fieldBits 8 fs 1
    p := loadedStatus (fieldBits 8 fs 2)
    a := fieldBits 8 fs 3
    x := fieldBits 8 fs 4
    y := fieldBits 8 fs 5
    latch := { nmi := bitOf latch 0, irq := bitOf latch 1, brk := bitOf latch 2 }
    skip := fieldBits 32 fs 7
    pageCross := fieldFlag fs 8
    inInterrupt := fieldFlag fs 9
    intKind := kindOfByte (fieldBits 8 fs 10)
    cyclesTotal := fieldBits 64 fs 11 }

/-- Eight six-bit indexes of a field. -/
def fieldSprites (fs : List (List Byte)) (i : Nat) : Vector (BitVec 6) 8 :=
  Vector.ofFn fun j : Fin 8 => (fieldByte fs i j.val).setWidth 6

/-- Eight bytes of a field. -/
def fieldEight (fs : List (List Byte)) (i : Nat) : Vector Byte 8 :=
  Vector.ofFn fun j : Fin 8 => fieldByte fs i j.val

/-- The picture unit of a picture record, the frames as they are (65 R506, R509). A scanline, dot or sprite count
outside its range, and bits 4 to 0 of the status, are taken as read: DESIGN CHOICE, log entry 19. -/
def ppuOfRecord (old : Ppu) (fs : List (List Byte)) : Ppu :=
  { ctrl := fieldBits 8 fs 0
    mask := fieldBits 8 fs 1
    status := fieldBits 8 fs 2
    oamAddr := fieldBits 8 fs 3
    v := fieldBits 15 fs 4
    t := fieldBits 15 fs 5
    w := fieldFlag fs 6
    x := fieldBits 3 fs 7
    buffer := fieldBits 8 fs 8
    ioLatch := fieldBits 8 fs 9
    vram := fieldMemory fs 10
    pal := fieldMemory fs 11
    oam := fieldMemory fs 12
    spriteList := fieldSprites fs 13
    spriteCount := fieldBits 4 fs 14
    scanline := leNat (fs.getD 15 [])
    dot := leNat (fs.getD 16 [])
    frame := fieldBits 32 fs 17
    ntLatch := fieldBits 8 fs 18
    atLatch := fieldBits 2 fs 19
    plLatch := fieldBits 8 fs 20
    phLatch := fieldBits 8 fs 21
    bgLo := fieldBits 16 fs 22
    bgHi := fieldBits 16 fs 23
    atCur := fieldBits 2 fs 24
    atNext := fieldBits 2 fs 25
    nmiSent := fieldFlag fs 26
    suppressVbl := fieldFlag fs 27
    mirroring := Mirroring.ofCode (leNat (fs.getD 28 []))
    frameDraw := old.frameDraw
    frameShown := old.frameShown
    shownGreyscale := old.shownGreyscale
    shownEmphasis := old.shownEmphasis }

/-- The installed mapper with the registers of a mapper record (65 R507). -/
def mapperOfRecord (m : Mapper) (fs : List (List Byte)) : Mapper :=
  match m with
  | .nrom => .nrom
  | .mmc1 _ =>
    .mmc1
      { shift := fieldBits 5 fs 0, control := fieldBits 5 fs 1, chr0 := fieldBits 5 fs 2
        chr1 := fieldBits 5 fs 3, prg := fieldBits 5 fs 4 }
  | .uxrom _ => .uxrom (fieldBits 8 fs 0)
  | .cnrom _ => .cnrom (fieldBits 8 fs 0)
  | .mmc3 _ =>
    .mmc3
      { select := fieldBits 8 fs 0, r := fieldEight fs 1, irqLatch := fieldBits 8 fs 2
        irqCounter := fieldBits 8 fs 3, irqReload := fieldFlag fs 4, irqEnable := fieldFlag fs 5
        irqFlag := fieldFlag fs 6 }
  | .m65 _ =>
    .m65
      { p0 := fieldBits 8 fs 0, p1 := fieldBits 8 fs 1, p2 := fieldBits 8 fs 2, layout := fieldFlag fs 3
        c := fieldEight fs 4, irqEnable := fieldFlag fs 5, irqCounter := fieldBits 16 fs 6
        irqReloadVal := fieldBits 16 fs 7, irqFlag := fieldFlag fs 8 }

def envelopeOfRecord (fs : List (List Byte)) : Envelope :=
  { const := fieldFlag fs 0, vol := fieldBits 4 fs 1, start := fieldFlag fs 2, div := fieldBits 4 fs 3
    decay := fieldBits 4 fs 4 }

def pulseOfRecord (fs : List (List Byte)) : Pulse :=
  { enabled := fieldFlag fs 0, duty := fieldBits 2 fs 1, seq := fieldBits 3 fs 2
    timerPeriod := fieldBits 11 fs 3, timer := fieldBits 11 fs 4, length := fieldBits 8 fs 5
    halt := fieldFlag fs 6
    env := envelopeOfRecord (fs.drop 7)
    swEnable := fieldFlag fs 12, swPeriod := fieldBits 3 fs 13, swNegate := fieldFlag fs 14
    swShift := fieldBits 3 fs 15, swDiv := fieldBits 3 fs 16, swReload := fieldFlag fs 17 }

def triangleOfRecord (fs : List (List Byte)) : Triangle :=
  { enabled := fieldFlag fs 0, timerPeriod := fieldBits 11 fs 1, timer := fieldBits 11 fs 2
    seq := fieldBits 5 fs 3, length := fieldBits 8 fs 4, control := fieldFlag fs 5
    linReloadVal := fieldBits 7 fs 6, lin := fieldBits 7 fs 7, linReload := fieldFlag fs 8 }

def noiseOfRecord (fs : List (List Byte)) : Noise :=
  { enabled := fieldFlag fs 0, mode := fieldFlag fs 1, periodIdx := fieldBits 4 fs 2
    timer := fieldBits 12 fs 3, lfsr := fieldBits 15 fs 4, length := fieldBits 8 fs 5
    halt := fieldFlag fs 6, env := envelopeOfRecord (fs.drop 7) }

/-- The delta channel of an audio record. `bits_left` outside 1 to 8 is taken as read: DESIGN CHOICE, log entry 19. -/
def dmcOfRecord (fs : List (List Byte)) : Dmc :=
  { irqEnable := fieldFlag fs 0, loop := fieldFlag fs 1, rateIdx := fieldBits 4 fs 2
    timer := fieldBits 9 fs 3, level := fieldBits 7 fs 4, sampleAddr := fieldBits 16 fs 5
    sampleLen := fieldBits 12 fs 6, curAddr := fieldBits 16 fs 7, bytesLeft := fieldBits 12 fs 8
    shift := fieldBits 8 fs 9, bitsLeft := fieldBits 4 fs 10, silence := fieldFlag fs 11 }

/-- The audio unit of an audio record (65 R508): 18 + 18 fields of the pulse channels, 9 of the triangle,
12 of the noise channel, 12 of the DMC, then the 8 of the unit. A value that no step gives is taken as read: DESIGN
CHOICE, log entry 19. -/
def apuOfRecord (fs : List (List Byte)) : Apu :=
  { pulse1 := pulseOfRecord fs
    pulse2 := pulseOfRecord (fs.drop 18)
    triangle := triangleOfRecord (fs.drop 36)
    noise := noiseOfRecord (fs.drop 45)
    dmc := dmcOfRecord (fs.drop 57)
    fsMode := fieldFlag fs 69, fsInhibit := fieldFlag fs 70, fsCount := fieldBits 13 fs 71
    fsStep := fieldBits 3 fs 72, frameIrq := fieldFlag fs 73, dmcIrq := fieldFlag fs 74
    half := fieldFlag fs 75, acc := fieldBits 64 fs 76 }

/-- The state with the saved part replaced; PRG RAM, controllers, framebuffers and the audio queue stay
(65 R505, R509). The fields are cut where the present state's own fields are: their sizes depend on the
installed mapper and on CHR RAM alone (65 R501, R507). -/
def applySave (s : State) (fs : List (List Byte)) : State :=
  let nMapper := (mapperRecord s.mapper).length
  let nChr := (chrRecord s).length
  { s with
    ram := fieldMemory fs 0
    cpu := cpuOfRecord (fs.drop 1)
    ppu := ppuOfRecord s.ppu (fs.drop 13)
    mapper := mapperOfRecord s.mapper (fs.drop 42)
    chrRam := if usesChrRam s.cart s.mapper then fieldMemory fs (42 + nMapper) else s.chrRam
    apu := apuOfRecord (fs.drop (42 + nMapper + nChr)) }

/-- The header and the length of a file are those of a save of this machine (65 R505). The one known
version is `SAVE_VERSION`: log entry 14. -/
def saveAccepted (s : State) (file : List Byte) : Bool :=
  file.take 8 == saveHeader s.cfg && file.length == 8 + ((saveFields s).map List.length).sum

/-- `Load(file)`: all or nothing (65 R505); the Boolean is the host's result. -/
def load (s : State) (file : List Byte) : Bool × State :=
  if saveAccepted s file then
    (true, applySave s (cutFields ((saveFields s).map List.length) (file.drop 8)))
  else (false, s)

end Sys2Proof.Machine
end

