-- ==== Sys2Proof/Safety.lean ====
section
/-! DEFINITION. What holds of every reachable state, in three invariants, and the words the claims use for
what an instruction leaves unchanged. No step stops (00 R13), so a safe run is one whose states all meet
`Inv`. -/

namespace Sys2Proof.Machine

/-! ## Invariants -/

/-- A memory in canonical form inside its size. -/
def Memory.fits (size : Nat) (m : Memory) : Bool := m.wf && m.below size

/-- Every listed byte has six bits. -/
def Memory.sixBit (m : Memory) : Bool := m.all fun c => decide (c.2.toNat < 64)

/-- `P[5]` is 1 and `P.B` is 0 (10 R26). -/
def statusOk (p : Byte) : Bool := bitOf p 5 && !bitOf p 4

/-- The CPU: the status byte's fixed bits (10 R26), no BRK request in the latch (10 R28), `skip` within one
slot (10 R30; the bound is 522, log entry 22), and a sequence in progress names its kind and has its vector
still before it (10 R33, 50 R254). -/
structure CpuInv (s : State) : Prop where
  status : statusOk s.cpu.p = true
  noBrk : s.cpu.latch.brk = false
  skipBound : s.cpu.skip.toNat ≤ 522
  sequence :
    s.cpu.inInterrupt = true →
      s.cpu.intKind ≠ none ∧ s.cfg.rc.skipLeft < s.cpu.skip.toNat ∧ s.cpu.skip.toNat ≤ 7

/-- The memories: canonical form, every index inside the memory's size, palette entries and pixels of six
bits (61 R302, R305, 62 R330, 64 R451). -/
structure MemInv (s : State) : Prop where
  ram : s.ram.fits 2048 = true
  prgRam : s.prgRam.fits 8192 = true
  chrRam : s.chrRam.fits 8192 = true
  vram : s.ppu.vram.fits 2048 = true
  pal : s.ppu.pal.fits 32 = true
  palSix : s.ppu.pal.sixBit = true
  oam : s.ppu.oam.fits 256 = true
  frameDraw : s.ppu.frameDraw.fits 61440 = true
  drawSix : s.ppu.frameDraw.sixBit = true
  frameShown : s.ppu.frameShown.fits 61440 = true
  shownSix : s.ppu.frameShown.sixBit = true

/-- The devices: the picture unit's position and sprite count (62 R330, R331), its status register's state
bits (62 R330), the audio unit's counters (63 R392). -/
structure DeviceInv (s : State) : Prop where
  scanline : s.ppu.scanline ≤ 261
  dot : s.ppu.dot ≤ 340
  spriteCount : s.ppu.spriteCount ≤ 8
  status : s.ppu.status &&& 0x1F = 0
  bitsLeft : 1 ≤ s.apu.dmc.bitsLeft ∧ s.apu.dmc.bitsLeft ≤ 8
  lfsr : s.apu.noise.lfsr ≠ 0
  fsStep : s.apu.fsStep.toNat < 5

/-- All three. -/
structure Inv (s : State) : Prop where
  cpu : CpuInv s
  mem : MemInv s
  device : DeviceInv s

/-! ## The words of the claims -/

/-- The CPU addresses behind which there is memory and no device: work RAM, PRG RAM, PRG ROM (20 R68). -/
def isMemory (a : Word) : Prop := a.toNat < 0x2000 ∨ 0x6000 ≤ a.toNat

/-- The byte a CPU read of memory gives. -/
def byteAt (s : State) (a : Word) : Byte := (busRead s a).1

/-- A byte written at `ea` appears at `a`: the same byte of work RAM, whose four mirrors share it, or the same
address (61 R302). -/
def sharesByte (ea a : Word) : Prop :=
  (ea.toNat < 0x2000 ∧ a.toNat < 0x2000 ∧ ea.toNat % 2048 = a.toNat % 2048) ∨ ea = a

/-- Every byte of the machine's memories reads the same: the CPU's memory, and the picture unit's. -/
structure SameMemory (s t : State) : Prop where
  cpu : ∀ a, isMemory a → byteAt t a = byteAt s a
  chr : ∀ a, readChr t a = readChr s a
  vram : ∀ i, t.ppu.vram.read i = s.ppu.vram.read i
  pal : ∀ i, t.ppu.pal.read i = s.ppu.pal.read i
  oam : ∀ i, t.ppu.oam.read i = s.ppu.oam.read i

/-- Everything but the CPU is the same. -/
def SameDevices (s t : State) : Prop := t = { s with cpu := t.cpu }

/-- What a store at `ea` leaves unchanged: every byte of CPU memory that is not the stored one (a store to
`$8000-$FFFF` may switch what the ROM window shows, never the ROM), the picture unit's memories unless
PPUDATA is written, OAM unless OAMDATA or the DMA register is written (20 R67). -/
structure StoreFrame (s t : State) (ea : Word) : Prop where
  cpu : ∀ a, isMemory a → ¬ sharesByte ea a → ea.toNat < 0x8000 ∨ a.toNat < 0x8000 →
    byteAt t a = byteAt s a
  cart : t.cart = s.cart
  chrRam : ¬ (0x2000 ≤ ea.toNat ∧ ea.toNat < 0x4000 ∧ ea.toNat % 8 = 7) → t.chrRam = s.chrRam
  vram : ¬ (0x2000 ≤ ea.toNat ∧ ea.toNat < 0x4000 ∧ ea.toNat % 8 = 7) → t.ppu.vram = s.ppu.vram
  pal : ¬ (0x2000 ≤ ea.toNat ∧ ea.toNat < 0x4000 ∧ ea.toNat % 8 = 7) → t.ppu.pal = s.ppu.pal
  oam : ea ≠ 0x4014 → ¬ (0x2000 ≤ ea.toNat ∧ ea.toNat < 0x4000 ∧ ea.toNat % 8 = 4) →
    t.ppu.oam = s.ppu.oam

/-- A byte `v` stored at `ea` in work RAM or PRG RAM reads back wherever that byte appears. -/
def StoredAt (t : State) (ea : Word) (v : Byte) : Prop :=
  ea.toNat < 0x2000 ∨ (0x6000 ≤ ea.toNat ∧ ea.toNat < 0x8000) →
    ∀ a, sharesByte ea a → byteAt t a = v

/-- The cycles a store at `ea` adds to the slot by itself: the stall of an OAM DMA (50 R250). -/
def storeStall (s : State) (ea : Word) : BitVec 32 :=
  if ea = 0x4014 then (if bitOf s.cpu.cyclesTotal 0 then 514 else 513) else 0

/-- The store of `v` at `ea` reached the bus after `s` (which differs from the instruction's start in what
its reads changed), left the frame, and what the CPU keeps of it is the stall and an NMI request. -/
structure Stored (s0 s t : State) (ea : Word) (v : Byte) : Prop where
  devices : t = { busWrite s ea v with cpu := t.cpu }
  nmi : t.cpu.latch.nmi = (busWrite s ea v).cpu.latch.nmi
  frame : StoreFrame s0 t ea
  value : StoredAt t ea v

/-- `q` agrees with `p` in every bit outside the mask `m`. -/
def flagsKept (m p q : Byte) : Prop := q &&& ~~~m = p &&& ~~~m

/-- `q` is `p` with Z and N by the byte `v`, every other bit kept: `SetZN(v)` (00 R10). -/
def setsZN (p v q : Byte) : Prop :=
  flagZ q = decide (v = 0) ∧ flagN q = decide (0x80 ≤ v) ∧ flagsKept 0x82 p q

/-- The value of a byte read as a two's-complement number. -/
def signed (b : Byte) : Int := b.toInt

/-- The byte and the carry out of the four shifts by 42 R180 to R183, as numbers: `m` the operand, `c` the old
carry. -/
def shiftSpec (m : Byte) (c : Bool) (left rotate : Bool) : Nat × Bool :=
  let c := if rotate && c then 1 else 0
  if left then ((2 * m.toNat + c) % 256, decide (128 ≤ m.toNat))
  else (m.toNat / 2 + 128 * c, decide (m.toNat % 2 = 1))

/-- The state after `n` reads of one address. -/
def readTimes (a : Word) : Nat → State → State
  | 0, s => s
  | n + 1, s => readTimes a n (busRead s a).2

/-- The state after writes of bytes to addresses, in order. -/
def writeAll : List (Word × Byte) → State → State
  | [], s => s
  | c :: cs, s => writeAll cs (busWrite s c.1 c.2)

/-- A CPU address of the picture unit's register `r`, mirrored every eight bytes (61 R303). -/
def isPpuRegister (a : Word) (r : Nat) : Prop := 0x2000 ≤ a.toNat ∧ a.toNat < 0x4000 ∧ a.toNat % 8 = r

/-- The machine stands right before the dot (`line`, `dot`). -/
def atDot (s : State) (line dot : Nat) : Prop := s.ppu.scanline = line ∧ s.ppu.dot = dot

/-- Sprite `i` is in range for the evaluation on line `line` with height `h` (62 R359). -/
def inSpriteRange (oam : Memory) (line h i : Nat) : Bool :=
  decide ((oam.read (4 * i)).toNat ≤ line) && decide (line < (oam.read (4 * i)).toNat + h)

end Sys2Proof.Machine
end

