-- ==== Sys2Proof/Certificates/Slice0/Obligations.lean ====
section
/-! DEFINITION. The statements for the provers, from the numbered rules of spec/. Each docstring names the
rules. "D<n>" in a docstring: that part rests on decision D<n> of spec/92_eei_decisions.md, which the spec marks as
its own (log entry 15). "log <n>": it rests on the choice of notes/assumptions/<n>.md. -/

open Sys2Proof Sys2Proof.Machine

/-! ## Encoding -/

/-- 30 R100, R117, R119: the bytes of a well-formed instruction decode to it, whatever follows. -/
def Obligations.DecodeAfterEncode : Prop :=
  ∀ (i : Instr) (rest : List Byte), wellFormed i = true →
    ∃ bytes, encode i = some bytes ∧ bytes.length = i.length ∧ decode (bytes ++ rest) = .ok (i, rest)

/-- 30 R118, R100, R122: every opcode byte begins a well-formed instruction of one to three bytes, which is the
no-op exactly for the 53 bytes; encoding that instruction gives the bytes back. -/
def Obligations.DecoderIsTotal : Prop :=
  ∀ (op b1 b2 : Byte) (rest : List Byte), ∃ i,
    decode (op :: b1 :: b2 :: rest) = .ok (i, (b1 :: b2 :: rest).drop (i.length - 1)) ∧
    wellFormed i = true ∧ 1 ≤ i.length ∧ i.length ≤ 3 ∧ i.length = opcodeLength op ∧
    encode i = some ((op :: b1 :: b2 :: rest).take i.length) ∧
    (op ∈ xxxBytes ↔ i = .xxx op)

/-- 30 R126, R119 and the "Encoding" lines: bytes written out from the spec, one row of each family. -/
def Obligations.SpecWordsDecode : Prop :=
  decode [0x7D, 0x80, 0x10] = .ok (.adc (.mem (.abx 0x1080)), []) ∧
  decode [0xA9, 0x80] = .ok (.lda (.imm 0x80), []) ∧
  decode [0x8D, 0x00, 0x02] = .ok (.sta (.abs 0x0200), []) ∧
  decode [0xB6, 0x10] = .ok (.ldx (.mem (.zpy 0x10)), []) ∧
  decode [0x0A] = .ok (.asl .acc, []) ∧
  decode [0x6C, 0xFF, 0x02] = .ok (.jmpInd 0x02FF, []) ∧
  decode [0xD0, 0xFD] = .ok (.bne 0xFD, []) ∧
  decode [0x58] = .ok (.cli, []) ∧
  decode [0xB3, 0x10] = .ok (.lax (.izy 0x10), []) ∧
  decode [0x02] = .ok (.xxx 0x02, [])

/-! ## The step -/

/-- 50 R241, R242, 20 R78, 61 R316: at a slot boundary with no interrupt to take, the bytes at `PC` are
fetched, `PC` moves past them, `page_cross` is cleared, the decoded instruction is executed, and the devices
tick. The first clause is for bytes in memory; the second for a fetch from any address, whose reads have
their side effects. -/
def Obligations.StepRunsDecodedInstruction : Prop :=
  ∀ s : State, s.cpu.skip.toNat ≤ 1 → s.cpu.inInterrupt = false → s.cpu.latch.nmi = false →
    (s.cpu.latch.irq = false ∨ flagI s.cpu.p = true) →
    (∀ i rest, isMemory s.cpu.pc → isMemory (s.cpu.pc + 1) → isMemory (s.cpu.pc + 2) →
      decode [byteAt s s.cpu.pc, byteAt s (s.cpu.pc + 1), byteAt s (s.cpu.pc + 2)] = .ok (i, rest) →
      step s = thenDevices (exec i
        { s with
          cpu := { s.cpu with
            pc := s.cpu.pc + BitVec.ofNat 16 i.length
            skip := 0
            pageCross := false
            cyclesTotal := s.cpu.cyclesTotal + 1 } })) ∧
    ∃ i f, step s = thenDevices (exec i f) ∧ wellFormed i = true ∧
      i.length = opcodeLength (busRead s s.cpu.pc).1 ∧ SameMemory s f ∧
      f.cpu =
        { s.cpu with
          pc := s.cpu.pc + BitVec.ofNat 16 i.length
          skip := 0
          pageCross := false
          cyclesTotal := s.cpu.cyclesTotal + 1 }

/-- 50 R240, R241, R243: inside a slot a step changes only `skip` and `cycles_total` before the devices tick,
but for the vector of a sequence at cycle `RC`. -/
def Obligations.StepInsideSlotCountsDown : Prop :=
  ∀ s : State, 1 < s.cpu.skip.toNat →
    let c := { s with cpu := { s.cpu with skip := s.cpu.skip - 1, cyclesTotal := s.cpu.cyclesTotal + 1 } }
    ((s.cpu.inInterrupt = false ∨ s.cpu.skip.toNat ≠ s.cfg.rc.skipLeft + 1) →
      step s = .next (deviceTicks c)) ∧
    (s.cpu.inInterrupt = true → s.cpu.skip.toNat = s.cfg.rc.skipLeft + 1 →
      step s = .next (deviceTicks (resolveVector c)))

/-- 60 R280, 50 R241, R247: at a boundary an NMI is taken first, else an unmasked IRQ; each is charged 7
cycles and its request bit is cleared. -/
def Obligations.InterruptPollOrder : Prop :=
  ∀ s : State, s.cpu.skip.toNat ≤ 1 → s.cpu.inInterrupt = false →
    let c := { s with cpu := { s.cpu with skip := 0, cyclesTotal := s.cpu.cyclesTotal + 1 } }
    (s.cpu.latch.nmi = true →
      ∃ t, step s = .next (deviceTicks t) ∧
        t.cpu.skip = 7 ∧
        ∃ b, b = beginInterrupt .nmi
            { c with cpu := { c.cpu with latch := { s.cpu.latch with nmi := false } } } ∧
          t = { b with cpu := { b.cpu with skip := 7 } } ∧ t.cpu.latch.irq = s.cpu.latch.irq) ∧
    (s.cpu.latch.nmi = false → s.cpu.latch.irq = true → flagI s.cpu.p = false →
      ∃ t, step s = .next (deviceTicks t) ∧
        t.cpu.skip = 7 ∧
        ∃ b, b = beginInterrupt .irq
            { c with cpu := { c.cpu with latch := { s.cpu.latch with irq := false } } } ∧
          t = { b with cpu := { b.cpu with skip := 7 } } ∧ t.cpu.latch.irq = false)

/-- 00 R13, 60 R270, 10 R34, R35, 61 R307, R312: every step, whatever the state, answers a next state, which has
counted one cycle and kept the configuration, the cartridge image and the host's buttons; every instruction
answers a next state. -/
def Obligations.StepCountsOneCycle : Prop :=
  ∀ s : State,
    (∃ t, step s = .next t ∧
      t.cpu.cyclesTotal = s.cpu.cyclesTotal + 1 ∧ t.cfg = s.cfg ∧ t.cart = s.cart ∧
      t.pad.buttons0 = s.pad.buttons0 ∧ t.pad.buttons1 = s.pad.buttons1) ∧
    ∀ i : Instr, ∃ t, exec i s = .next t

/-! ## Interrupts -/

/-- 60 R276, R277: the first half of the sequence pushes PCH, PCL and the status with B only for BRK and bit 5
always, sets I, and changes nothing else. -/
def Obligations.BeginInterruptPushes : Prop :=
  ∀ (k : IntKind) (s : State), MemInv s →
    let t := beginInterrupt k s
    byteAt t (stackAddr s.cpu.sp) = hi s.cpu.pc ∧
    byteAt t (stackAddr (s.cpu.sp - 1)) = lo s.cpu.pc ∧
    (∀ j, j < 8 → bitOf (byteAt t (stackAddr (s.cpu.sp - 2))) j =
      if j = 5 then true else if j = 4 then decide (k = .brk) else bitOf s.cpu.p j) ∧
    (∀ a, isMemory a → ¬ sharesByte (stackAddr s.cpu.sp) a → ¬ sharesByte (stackAddr (s.cpu.sp - 1)) a →
      ¬ sharesByte (stackAddr (s.cpu.sp - 2)) a → byteAt t a = byteAt s a) ∧
    (∃ p, flagI p = true ∧ flagsKept 0x04 s.cpu.p p ∧
      t =
        { s with
          ram := t.ram
          cpu := { s.cpu with sp := s.cpu.sp - 3, p := p, inInterrupt := true, intKind := some k } })

/-- 60 R278, R279, R281: the second half loads `PC` from the NMI vector for an NMI and for a hijacked BRK or
IRQ (which consumes the NMI request), else from the vector BRK and IRQ share, and ends the sequence. -/
def Obligations.ResolveVectorLoadsPc : Prop :=
  ∀ s : State,
    let vector := fun a : Word => word (byteAt s (a + 1)) (byteAt s a)
    (s.cpu.intKind = some .nmi →
      resolveVector s = { s with cpu := { s.cpu with pc := vector 0xFFFA, inInterrupt := false } }) ∧
    (s.cpu.intKind ≠ some .nmi → s.cpu.latch.nmi = true →
      resolveVector s =
        { s with
          cpu := { s.cpu with
            pc := vector 0xFFFA, inInterrupt := false, latch := { s.cpu.latch with nmi := false } } }) ∧
    (s.cpu.intKind ≠ some .nmi → s.cpu.latch.nmi = false →
      resolveVector s = { s with cpu := { s.cpu with pc := vector 0xFFFE, inInterrupt := false } })

/-- 43 R195, 60 R275: BRK begins the sequence with the address of its opcode plus 2 (`PC` is at the opcode
plus 1 when it executes), and is charged 7 cycles; `PC` is not loaded yet. D15. -/
def Obligations.BrkBeginsSequence : Prop :=
  ∀ s : State, MemInv s →
    ∃ t p, exec .brk s = .next t ∧
      byteAt t (stackAddr s.cpu.sp) = hi (s.cpu.pc + 1) ∧
      byteAt t (stackAddr (s.cpu.sp - 1)) = lo (s.cpu.pc + 1) ∧
      byteAt t (stackAddr (s.cpu.sp - 2)) = s.cpu.p ||| 0x30 ∧
      (∀ a, isMemory a → ¬ sharesByte (stackAddr s.cpu.sp) a → ¬ sharesByte (stackAddr (s.cpu.sp - 1)) a →
        ¬ sharesByte (stackAddr (s.cpu.sp - 2)) a → byteAt t a = byteAt s a) ∧
      flagI p = true ∧ flagsKept 0x04 s.cpu.p p ∧
      t =
        { s with
          ram := t.ram
          cpu := { s.cpu with
            pc := s.cpu.pc + 1, sp := s.cpu.sp - 3, p := p, inInterrupt := true, intKind := some .brk
            skip := s.cpu.skip + 7 } }

/-- 43 R194, 60 R283: RTI pulls the status, forcing bit 5 to 1 and B to 0, then PCL and PCH. D14. -/
def Obligations.RtiPullsStatusAndPc : Prop :=
  ∀ s : State,
    let pulled := fun k : Byte => byteAt s (stackAddr (s.cpu.sp + k))
    ∃ t p, exec .rti s = .next t ∧
      (∀ j, j < 8 → bitOf p j = if j = 5 then true else if j = 4 then false else bitOf (pulled 1) j) ∧
      t =
        { s with
          cpu := { s.cpu with
            p := p, pc := word (pulled 3) (pulled 2), sp := s.cpu.sp + 3, skip := s.cpu.skip + 6 } }

/-- 60 R277, R283: RTI after a sequence's pushes restores `PC`, `SP`, `A`, `X`, `Y` and every flag. -/
def Obligations.RtiReturnsToPushedAddress : Prop :=
  ∀ (k : IntKind) (s : State), MemInv s → statusOk s.cpu.p = true →
    ∃ t, exec .rti (beginInterrupt k s) = .next t ∧
      t.cpu.pc = s.cpu.pc ∧ t.cpu.p = s.cpu.p ∧ t.cpu.sp = s.cpu.sp ∧
      t.cpu.a = s.cpu.a ∧ t.cpu.x = s.cpu.x ∧ t.cpu.y = s.cpu.y

/-- 60 R274, R29: an IRQ request stays latched until the CPU begins an IRQ sequence, which it does only with I
clear. D8. -/
def Obligations.IrqStaysLatchedUntilServiced : Prop :=
  ∀ s t : State, step s = .next t → s.cpu.latch.irq = true →
    t.cpu.latch.irq = true ∨
      (s.cpu.skip.toNat ≤ 1 ∧ flagI s.cpu.p = false ∧ t.cpu.inInterrupt = true ∧ t.cpu.intKind = some .irq)

/-! ## Operands -/

/-- 30 R102, R105 to R111, R116, R119, 20 R66, 50 R245, 70 R539: the effective addresses without a pointer, with
`page_cross`; the operand of a read-class instruction is the immediate byte, or one bus read at the effective
address with that read's side effects; from memory, that read changes nothing. The cycles of the read, write and
read-modify-write class by format, one more where a read-class ABX, ABY or IZY address crosses a page. -/
def Obligations.DirectEffectiveAddresses : Prop :=
  ∀ (s : State) (b : Byte) (w : Word),
    ((effAddr (.zp b) s).1.toNat = b.toNat ∧ (effAddr (.zp b) s).2 = s) ∧
    ((effAddr (.zpx b) s).1.toNat = (b.toNat + s.cpu.x.toNat) % 256 ∧ (effAddr (.zpx b) s).2 = s) ∧
    ((effAddr (.zpy b) s).1.toNat = (b.toNat + s.cpu.y.toNat) % 256 ∧ (effAddr (.zpy b) s).2 = s) ∧
    effAddr (.abs w) s = (w, s) ∧
    ((effAddr (.abx w) s).1.toNat = (w.toNat + s.cpu.x.toNat) % 65536 ∧
      (effAddr (.abx w) s).2 = s.setPageCross (decide (256 ≤ w.toNat % 256 + s.cpu.x.toNat))) ∧
    ((effAddr (.aby w) s).1.toNat = (w.toNat + s.cpu.y.toNat) % 65536 ∧
      (effAddr (.aby w) s).2 = s.setPageCross (decide (256 ≤ w.toNat % 256 + s.cpu.y.toNat))) ∧
    readOperand (.imm b) s = (b, s) ∧
    (∀ m, readOperand (.mem m) s = busRead (effAddr m s).2 (effAddr m s).1 ∧
      (isMemory (effAddr m s).1 →
        readOperand (.mem m) s = (byteAt s (effAddr m s).1, (effAddr m s).2))) ∧
    (∀ o, SameMemory s (readOperand o s).2 ∧
      (readOperand o s).2.cpu = { s.cpu with pageCross := (readOperand o s).2.cpu.pageCross }) ∧
    (∀ cross : Bool,
      let more := if cross = true then 1 else 0
      readCycles (.imm b) cross = 2 ∧ readCycles (.mem (.zp b)) cross = 3 ∧
      readCycles (.mem (.zpx b)) cross = 4 ∧ readCycles (.mem (.zpy b)) cross = 4 ∧
      readCycles (.mem (.abs w)) cross = 4 ∧ readCycles (.mem (.abx w)) cross = 4 + more ∧
      readCycles (.mem (.aby w)) cross = 4 + more ∧ readCycles (.mem (.izx b)) cross = 6 ∧
      readCycles (.mem (.izy b)) cross = 5 + more) ∧
    (writeCycles (.zp b) = 3 ∧ writeCycles (.zpx b) = 4 ∧ writeCycles (.zpy b) = 4 ∧ writeCycles (.abs w) = 4 ∧
      writeCycles (.abx w) = 5 ∧ writeCycles (.aby w) = 5 ∧ writeCycles (.izx b) = 6 ∧ writeCycles (.izy b) = 6) ∧
    (rmwCycles (.zp b) = 5 ∧ rmwCycles (.zpx b) = 6 ∧ rmwCycles (.abs w) = 6 ∧ rmwCycles (.abx w) = 7 ∧
      rmwCycles (.aby w) = 7 ∧ rmwCycles (.izx b) = 8 ∧ rmwCycles (.izy b) = 8)

/-- 70 R528, 30 R112, R113: zero-page indexing never leaves the zero page; pointers lie in the zero page, wrap
inside it, and a pointer at `$FF` has its high byte at `$00`. -/
def Obligations.PointersWrapInZeroPage : Prop :=
  ∀ (s : State) (b : Byte),
    let pointer := fun p : Nat =>
      (byteAt s (BitVec.ofNat 16 (p % 256))).toNat + 256 * (byteAt s (BitVec.ofNat 16 ((p + 1) % 256))).toNat
    (effAddr (.zpx b) s).1.toNat = (b.toNat + s.cpu.x.toNat) % 256 ∧
    (effAddr (.zpy b) s).1.toNat = (b.toNat + s.cpu.y.toNat) % 256 ∧
    ((effAddr (.izx b) s).1.toNat = pointer (b.toNat + s.cpu.x.toNat) ∧ (effAddr (.izx b) s).2 = s) ∧
    ((effAddr (.izy b) s).1.toNat = (pointer b.toNat + s.cpu.y.toNat) % 65536 ∧
      (effAddr (.izy b) s).2 =
        s.setPageCross (decide (256 ≤ pointer b.toNat % 256 + s.cpu.y.toNat)))

/-! ## Loads, stores, transfers, stack -/

/-- 40 R141 to R143, 45 R225: LDA, LDX, LDY and LAX load the operand, set Z and N by it, and change nothing
else but what reading the operand changed. -/
def Obligations.LoadsSetRegisterAndZN : Prop :=
  ∀ (s : State) (o : ReadOp),
    let r := readOperand o s
    ∃ p, setsZN s.cpu.p r.1 p ∧ SameMemory s r.2 ∧
      let c := { s.cpu with
        p := p
        pageCross := r.2.cpu.pageCross
        skip := s.cpu.skip + BitVec.ofNat 32 (readCycles o r.2.cpu.pageCross) }
      exec (.lda o) s = .next { r.2 with cpu := { c with a := r.1 } } ∧
      exec (.ldx o) s = .next { r.2 with cpu := { c with x := r.1 } } ∧
      exec (.ldy o) s = .next { r.2 with cpu := { c with y := r.1 } } ∧
      (∀ m, o = .mem m → exec (.lax m) s = .next { r.2 with cpu := { c with a := r.1, x := r.1 } })

/-- 40 R144 to R146, 45 R224, 50 R250: STA, STX, STY and SAX make one write of their register at the effective
address, make no read there, and change no register and no flag. -/
def Obligations.StoresWriteOnce : Prop :=
  ∀ (s : State) (m : AddrMode), MemInv s →
    let ea := (effAddr m s).1
    ∀ (i : Instr) (v : Byte),
      (i = .sta m ∧ v = s.cpu.a) ∨ (i = .stx m ∧ v = s.cpu.x) ∨ (i = .sty m ∧ v = s.cpu.y) ∨
        (i = .sax m ∧ v = s.cpu.a &&& s.cpu.x) →
      ∃ t, exec i s = .next t ∧ Stored s s t ea v ∧
        t.cpu =
          { s.cpu with
            pageCross := (effAddr m s).2.cpu.pageCross
            skip := s.cpu.skip + storeStall s ea + BitVec.ofNat 32 (writeCycles m)
            latch := { s.cpu.latch with nmi := t.cpu.latch.nmi } }

/-- 40 R147 to R152: the six transfers; all but TXS set Z and N by the byte moved; nothing else changes. -/
def Obligations.TransfersCopyRegister : Prop :=
  ∀ s : State,
    (∃ p, setsZN s.cpu.p s.cpu.a p ∧
      exec .tax s = .next { s with cpu := { s.cpu with x := s.cpu.a, p := p, skip := s.cpu.skip + 2 } } ∧
      exec .tay s = .next { s with cpu := { s.cpu with y := s.cpu.a, p := p, skip := s.cpu.skip + 2 } }) ∧
    (∃ p, setsZN s.cpu.p s.cpu.x p ∧
      exec .txa s = .next { s with cpu := { s.cpu with a := s.cpu.x, p := p, skip := s.cpu.skip + 2 } }) ∧
    (∃ p, setsZN s.cpu.p s.cpu.y p ∧
      exec .tya s = .next { s with cpu := { s.cpu with a := s.cpu.y, p := p, skip := s.cpu.skip + 2 } }) ∧
    (∃ p, setsZN s.cpu.p s.cpu.sp p ∧
      exec .tsx s = .next { s with cpu := { s.cpu with x := s.cpu.sp, p := p, skip := s.cpu.skip + 2 } }) ∧
    exec .txs s = .next { s with cpu := { s.cpu with sp := s.cpu.x, skip := s.cpu.skip + 2 } } ∧
    (encode .tax = some [0xAA] ∧ encode .tay = some [0xA8] ∧ encode .txa = some [0x8A] ∧
      encode .tya = some [0x98] ∧ encode .tsx = some [0xBA] ∧ encode .txs = some [0x9A])

/-- 40 R153 to R156, 10 R24: PHA and PHP store one byte at `0x0100 | SP`, decrement `SP` modulo 256, and change
nothing else; PHP's byte has bits 4 and 5 set. PLA and PLP increment `SP` modulo 256 and read the byte there;
PLA sets Z and N by it; PLP loads every flag from it with bit 5 forced to 1 and bit 4 to 0. D14. -/
def Obligations.StackInstructions : Prop :=
  ∀ s : State, MemInv s →
    (∀ (i : Instr) (v : Byte), (i = .pha ∧ v = s.cpu.a) ∨ (i = .php ∧ v = s.cpu.p ||| 0x30) →
      ∃ t, exec i s = .next t ∧
        (∀ a, isMemory a →
          byteAt t a = if a.toNat < 0x2000 ∧ a.toNat % 2048 = 256 + s.cpu.sp.toNat then v else byteAt s a) ∧
        t = { s with ram := t.ram, cpu := { s.cpu with sp := s.cpu.sp - 1, skip := s.cpu.skip + 3 } }) ∧
    (∀ b, b = byteAt s (BitVec.ofNat 16 (256 + (s.cpu.sp.toNat + 1) % 256)) →
      let c := { s.cpu with sp := s.cpu.sp + 1, skip := s.cpu.skip + 4 }
      (∃ p, setsZN s.cpu.p b p ∧ exec .pla s = .next { s with cpu := { c with a := b, p := p } }) ∧
      (∃ p, (∀ j, j < 8 → bitOf p j = if j = 5 then true else if j = 4 then false else bitOf b j) ∧
        exec .plp s = .next { s with cpu := { c with p := p } }))

/-! ## Arithmetic and logic -/

/-- 41 R159 to R161: ADC and SBC are binary whatever D holds: the result modulo 256, C the unsigned carry or
no-borrow, V signed overflow, Z and N by the result; I, D and the fixed bits keep. D1. -/
def Obligations.AddAndSubtract : Prop :=
  ∀ (s : State) (o : ReadOp),
    let r := readOperand o s
    let c := if flagC s.cpu.p = true then 1 else 0
    let cpu := fun (a p : Byte) =>
      { s.cpu with
        a := a
        p := p
        pageCross := r.2.cpu.pageCross
        skip := s.cpu.skip + BitVec.ofNat 32 (readCycles o r.2.cpu.pageCross) }
    SameMemory s r.2 ∧
    (∃ a p, exec (.adc o) s = .next { r.2 with cpu := cpu a p } ∧
      a.toNat = (s.cpu.a.toNat + r.1.toNat + c) % 256 ∧
      flagC p = decide (256 ≤ s.cpu.a.toNat + r.1.toNat + c) ∧
      flagV p = decide (signed s.cpu.a + signed r.1 + c < -128 ∨ 127 < signed s.cpu.a + signed r.1 + c) ∧
      flagZ p = decide (a = 0) ∧ flagN p = decide (0x80 ≤ a) ∧ flagsKept 0xC3 s.cpu.p p) ∧
    (∃ a p, exec (.sbc o) s = .next { r.2 with cpu := cpu a p } ∧
      (a.toNat : Int) = (s.cpu.a.toNat - r.1.toNat - (1 - c) : Int) % 256 ∧
      flagC p = decide (r.1.toNat + (1 - c) ≤ s.cpu.a.toNat) ∧
      flagV p = decide (signed s.cpu.a - signed r.1 - (1 - c) < -128 ∨
        127 < signed s.cpu.a - signed r.1 - (1 - c)) ∧
      flagZ p = decide (a = 0) ∧ flagN p = decide (0x80 ≤ a) ∧ flagsKept 0xC3 s.cpu.p p)

/-- 41 R162 to R164: AND, ORA and EOR combine the operand into `A` bit by bit and set Z and N by the result. -/
def Obligations.LogicCombinesBits : Prop :=
  ∀ (s : State) (o : ReadOp),
    let r := readOperand o s
    SameMemory s r.2 ∧
    ∀ (i : Instr) (f : Bool → Bool → Bool),
      (i = .and o ∧ f = and) ∨ (i = .ora o ∧ f = or) ∨ (i = .eor o ∧ f = xor) →
      ∃ a p, exec i s = .next
          { r.2 with
            cpu := { s.cpu with
              a := a
              p := p
              pageCross := r.2.cpu.pageCross
              skip := s.cpu.skip + BitVec.ofNat 32 (readCycles o r.2.cpu.pageCross) } } ∧
        (∀ j, j < 8 → bitOf a j = f (bitOf s.cpu.a j) (bitOf r.1 j)) ∧ setsZN s.cpu.p a p

/-- 41 R165 to R168: CMP, CPX and CPY set C, Z and N by the unsigned comparison and the 8-bit difference; BIT
sets Z by the and with `A`, and N and V from the operand; no register changes. -/
def Obligations.ComparesSetFlagsOnly : Prop :=
  ∀ (s : State) (o : ReadOp),
    let r := readOperand o s
    let next := fun p : Byte =>
      { r.2 with
        cpu := { s.cpu with
          p := p
          pageCross := r.2.cpu.pageCross
          skip := s.cpu.skip + BitVec.ofNat 32 (readCycles o r.2.cpu.pageCross) } }
    SameMemory s r.2 ∧
    (∀ (i : Instr) (reg : Byte),
      (i = .cmp o ∧ reg = s.cpu.a) ∨ (i = .cpx o ∧ reg = s.cpu.x) ∨ (i = .cpy o ∧ reg = s.cpu.y) →
      ∃ p, exec i s = .next (next p) ∧ flagC p = decide (r.1.toNat ≤ reg.toNat) ∧
        flagZ p = decide (reg = r.1) ∧
        flagN p = decide (128 ≤ (256 + reg.toNat - r.1.toNat) % 256) ∧ flagsKept 0x83 s.cpu.p p) ∧
    (∀ m, o = .mem m →
      ∃ p, exec (.bit m) s = .next (next p) ∧
        (flagZ p = true ↔ ∀ j, j < 8 → bitOf s.cpu.a j = false ∨ bitOf r.1 j = false) ∧
        flagN p = bitOf r.1 7 ∧ flagV p = bitOf r.1 6 ∧ flagsKept 0xC2 s.cpu.p p)

/-- 41 R169, R170, 20 R65: INC and DEC make one read and one write at the effective address and set Z and N by
the byte written; C, V and the registers keep. -/
def Obligations.IncrementMemory : Prop :=
  ∀ (s : State) (m : AddrMode), MemInv s →
    let ea := (effAddr m s).1
    let r := busRead (effAddr m s).2 ea
    ∀ (i : Instr) (v : Byte),
      (i = .inc m ∧ v.toNat = (r.1.toNat + 1) % 256) ∨ (i = .dec m ∧ v.toNat = (r.1.toNat + 255) % 256) →
      ∃ t p, exec i s = .next t ∧ setsZN s.cpu.p v p ∧ Stored s r.2 t ea v ∧
        t.cpu =
          { s.cpu with
            p := p
            pageCross := (effAddr m s).2.cpu.pageCross
            skip := s.cpu.skip + storeStall s ea + BitVec.ofNat 32 (rmwCycles m)
            latch := { s.cpu.latch with nmi := t.cpu.latch.nmi } }

/-- 41 R171 to R174: the register increments and decrements, modulo 256, with Z and N by the result. -/
def Obligations.IncrementRegisters : Prop :=
  ∀ s : State,
    (∃ v p, v.toNat = (s.cpu.x.toNat + 1) % 256 ∧ setsZN s.cpu.p v p ∧
      exec .inx s = .next { s with cpu := { s.cpu with x := v, p := p, skip := s.cpu.skip + 2 } }) ∧
    (∃ v p, v.toNat = (s.cpu.y.toNat + 1) % 256 ∧ setsZN s.cpu.p v p ∧
      exec .iny s = .next { s with cpu := { s.cpu with y := v, p := p, skip := s.cpu.skip + 2 } }) ∧
    (∃ v p, v.toNat = (s.cpu.x.toNat + 255) % 256 ∧ setsZN s.cpu.p v p ∧
      exec .dex s = .next { s with cpu := { s.cpu with x := v, p := p, skip := s.cpu.skip + 2 } }) ∧
    (∃ v p, v.toNat = (s.cpu.y.toNat + 255) % 256 ∧ setsZN s.cpu.p v p ∧
      exec .dey s = .next { s with cpu := { s.cpu with y := v, p := p, skip := s.cpu.skip + 2 } }) ∧
    (encode .inx = some [0xE8] ∧ encode .iny = some [0xC8] ∧ encode .dex = some [0xCA] ∧
      encode .dey = some [0x88])

/-! ## Shifts and rotates -/

/-- 42 R180 to R184 on `A`: the result in `A`, C the bit shifted out, Z and N by the result, 2 cycles. -/
def Obligations.ShiftsOnAccumulator : Prop :=
  ∀ (s : State) (i : Instr) (left rotate : Bool),
    (i = .asl .acc ∧ left = true ∧ rotate = false) ∨ (i = .lsr .acc ∧ left = false ∧ rotate = false) ∨
      (i = .rol .acc ∧ left = true ∧ rotate = true) ∨ (i = .ror .acc ∧ left = false ∧ rotate = true) →
    ∃ r p, exec i s = .next { s with cpu := { s.cpu with a := r, p := p, skip := s.cpu.skip + 2 } } ∧
      (r.toNat, flagC p) = shiftSpec s.cpu.a (flagC s.cpu.p) left rotate ∧
      flagZ p = decide (r = 0) ∧ flagN p = decide (0x80 ≤ r) ∧ flagsKept 0x83 s.cpu.p p

/-- 42 R180 to R184 in memory: one read, one write of the result, C the bit shifted out, Z and N by the
result; no register changes. -/
def Obligations.ShiftsInMemory : Prop :=
  ∀ (s : State) (m : AddrMode) (i : Instr) (left rotate : Bool), MemInv s →
    (i = .asl (.mem m) ∧ left = true ∧ rotate = false) ∨
      (i = .lsr (.mem m) ∧ left = false ∧ rotate = false) ∨
      (i = .rol (.mem m) ∧ left = true ∧ rotate = true) ∨
      (i = .ror (.mem m) ∧ left = false ∧ rotate = true) →
    let ea := (effAddr m s).1
    let r := busRead (effAddr m s).2 ea
    ∃ t v p, exec i s = .next t ∧ Stored s r.2 t ea v ∧
      (v.toNat, flagC p) = shiftSpec r.1 (flagC s.cpu.p) left rotate ∧
      flagZ p = decide (v = 0) ∧ flagN p = decide (0x80 ≤ v) ∧ flagsKept 0x83 s.cpu.p p ∧
      t.cpu =
        { s.cpu with
          p := p
          pageCross := (effAddr m s).2.cpu.pageCross
          skip := s.cpu.skip + storeStall s ea + BitVec.ofNat 32 (rmwCycles m)
          latch := { s.cpu.latch with nmi := t.cpu.latch.nmi } }

/-! ## Control flow -/

/-- 43 R190, R191, 30 R115, 70 R527: JMP loads its target; the indirect form reads the target's two bytes at
the pointer, the high one from the pointer's own page. D13. -/
def Obligations.JumpsLoadPc : Prop :=
  ∀ (s : State) (w : Word),
    exec (.jmp w) s = .next { s with cpu := { s.cpu with pc := w, skip := s.cpu.skip + 3 } } ∧
    (∃ t, exec (.jmpInd w) s = .next t ∧
      t.cpu = { s.cpu with pc := t.cpu.pc, skip := s.cpu.skip + 5 } ∧ SameMemory s t ∧
      (isMemory w → SameDevices s t ∧
        t.cpu.pc.toNat =
          (byteAt s w).toNat +
            256 * (byteAt s (BitVec.ofNat 16 (w.toNat / 256 * 256 + (w.toNat + 1) % 256))).toNat))

/-- 43 R192, R193, R205: JSR pushes the address of its last byte (`PC - 1` when it executes), high byte first,
and jumps; RTS pulls it, low byte first, and adds one; RTS after JSR returns to the instruction after the
JSR. -/
def Obligations.SubroutineCallAndReturn : Prop :=
  ∀ (s : State) (w : Word), MemInv s →
    (∃ t, exec (.jsr w) s = .next t ∧
      t.cpu = { s.cpu with pc := w, sp := s.cpu.sp - 2, skip := s.cpu.skip + 6 } ∧
      byteAt t (stackAddr s.cpu.sp) = hi (s.cpu.pc - 1) ∧
      byteAt t (stackAddr (s.cpu.sp - 1)) = lo (s.cpu.pc - 1) ∧
      (∀ a, isMemory a → ¬ sharesByte (stackAddr s.cpu.sp) a → ¬ sharesByte (stackAddr (s.cpu.sp - 1)) a →
        byteAt t a = byteAt s a) ∧
      t = { s with ram := t.ram, cpu := t.cpu } ∧
      ∃ u, exec .rts t = .next u ∧ u.cpu.pc = s.cpu.pc ∧ u.cpu.sp = s.cpu.sp) ∧
    exec .rts s = .next
      { s with
        cpu := { s.cpu with
          pc := word (byteAt s (stackAddr (s.cpu.sp + 2))) (byteAt s (stackAddr (s.cpu.sp + 1))) + 1
          sp := s.cpu.sp + 2
          skip := s.cpu.skip + 6 } }

/-- 43 R196 to R204, 50 R246, 30 R114: a branch takes its target, the signed offset from the next instruction
modulo 65536, when its flag has its value; 2 cycles, 3 taken, 4 taken to another page; nothing else
changes. D11. -/
def Obligations.BranchesTestOneFlag : Prop :=
  ∀ (s : State) (off : Byte) (i : Instr) (taken : Bool),
    (i = .bpl off ∧ taken = !flagN s.cpu.p) ∨ (i = .bmi off ∧ taken = flagN s.cpu.p) ∨
      (i = .bvc off ∧ taken = !flagV s.cpu.p) ∨ (i = .bvs off ∧ taken = flagV s.cpu.p) ∨
      (i = .bcc off ∧ taken = !flagC s.cpu.p) ∨ (i = .bcs off ∧ taken = flagC s.cpu.p) ∨
      (i = .bne off ∧ taken = !flagZ s.cpu.p) ∨ (i = .beq off ∧ taken = flagZ s.cpu.p) →
    ∃ target : Word, (target.toNat : Int) = ((s.cpu.pc.toNat : Int) + signed off) % 65536 ∧
      exec i s = .next
        (if taken = true then
          if target.toNat / 256 = s.cpu.pc.toNat / 256 then
            { s with cpu := { s.cpu with pc := target, pageCross := false, skip := s.cpu.skip + 3 } }
          else { s with cpu := { s.cpu with pc := target, pageCross := true, skip := s.cpu.skip + 4 } }
        else { s with cpu := { s.cpu with skip := s.cpu.skip + 2 } })

/-! ## Flags and no-ops -/

/-- 44 R210 to R217, 45 R228, 50 R248: each flag instruction sets or clears the one flag it names; every other
bit of the status and everything else keeps. NOP is charged 2 cycles and the 53 no-op bytes none; they change
nothing else. D12. -/
def Obligations.FlagInstructionsChangeOneFlag : Prop :=
  ∀ s : State,
    (∀ (i : Instr) (bit : Nat) (b : Bool) (op : Byte),
      (i = .clc ∧ bit = 0 ∧ b = false ∧ op = 0x18) ∨ (i = .sec ∧ bit = 0 ∧ b = true ∧ op = 0x38) ∨
        (i = .cli ∧ bit = 2 ∧ b = false ∧ op = 0x58) ∨ (i = .sei ∧ bit = 2 ∧ b = true ∧ op = 0x78) ∨
        (i = .clv ∧ bit = 6 ∧ b = false ∧ op = 0xB8) ∨ (i = .cld ∧ bit = 3 ∧ b = false ∧ op = 0xD8) ∨
        (i = .sed ∧ bit = 3 ∧ b = true ∧ op = 0xF8) →
      encode i = some [op] ∧
      ∃ p, exec i s = .next { s with cpu := { s.cpu with p := p, skip := s.cpu.skip + 2 } } ∧
        ∀ j, bitOf p j = if j = bit then b else bitOf s.cpu.p j) ∧
    encode .nop = some [0xEA] ∧
    exec .nop s = .next { s with cpu := { s.cpu with skip := s.cpu.skip + 2 } } ∧
    ∀ op : Byte, exec (.xxx op) s = .next s

/-! ## Unofficial combinations -/

/-- 45 R220 to R222: SLO, RLA and SRE write the shifted byte, take C from the shift, combine the byte written
into `A`, and set Z and N by `A`. -/
def Obligations.ShiftAndLogicCombinations : Prop :=
  ∀ (s : State) (m : AddrMode) (i : Instr) (left rotate : Bool) (f : Bool → Bool → Bool), MemInv s →
    (i = .slo m ∧ left = true ∧ rotate = false ∧ f = or) ∨
      (i = .rla m ∧ left = true ∧ rotate = true ∧ f = and) ∨
      (i = .sre m ∧ left = false ∧ rotate = false ∧ f = xor) →
    let ea := (effAddr m s).1
    let r := busRead (effAddr m s).2 ea
    ∃ t v a p, exec i s = .next t ∧ Stored s r.2 t ea v ∧
      (v.toNat, flagC p) = shiftSpec r.1 (flagC s.cpu.p) left rotate ∧
      (∀ j, j < 8 → bitOf a j = f (bitOf s.cpu.a j) (bitOf v j)) ∧
      flagZ p = decide (a = 0) ∧ flagN p = decide (0x80 ≤ a) ∧ flagsKept 0x83 s.cpu.p p ∧
      t.cpu =
        { s.cpu with
          a := a
          p := p
          pageCross := (effAddr m s).2.cpu.pageCross
          skip := s.cpu.skip + storeStall s ea + BitVec.ofNat 32 (rmwCycles m)
          latch := { s.cpu.latch with nmi := t.cpu.latch.nmi } }

/-- 45 R223, R227: RRA writes the byte rotated right and adds it with the bit rotated out as the carry; ISC
writes the incremented byte and subtracts it; C, V, Z and N from the addition or subtraction. -/
def Obligations.RotateAddAndIncrementSubtract : Prop :=
  ∀ (s : State) (m : AddrMode), MemInv s →
    let ea := (effAddr m s).1
    let r := busRead (effAddr m s).2 ea
    let cpu := fun (t : State) (a p : Byte) =>
      { s.cpu with
        a := a
        p := p
        pageCross := (effAddr m s).2.cpu.pageCross
        skip := s.cpu.skip + storeStall s ea + BitVec.ofNat 32 (rmwCycles m)
        latch := { s.cpu.latch with nmi := t.cpu.latch.nmi } }
    (∃ t v a p, exec (.rra m) s = .next t ∧ Stored s r.2 t ea v ∧
      v.toNat = (shiftSpec r.1 (flagC s.cpu.p) false true).1 ∧
      (let sum := s.cpu.a.toNat + v.toNat + r.1.toNat % 2
       a.toNat = sum % 256 ∧ flagC p = decide (256 ≤ sum)) ∧
      (let sum := signed s.cpu.a + signed v + (r.1.toNat % 2 : Nat)
       flagV p = decide (sum < -128 ∨ 127 < sum)) ∧
      flagZ p = decide (a = 0) ∧ flagN p = decide (0x80 ≤ a) ∧ flagsKept 0xC3 s.cpu.p p ∧
      t.cpu = cpu t a p) ∧
    (∃ t v a p, exec (.isc m) s = .next t ∧ Stored s r.2 t ea v ∧
      v.toNat = (r.1.toNat + 1) % 256 ∧
      (let borrow := if flagC s.cpu.p = true then 0 else 1
       (a.toNat : Int) = (s.cpu.a.toNat - v.toNat - borrow : Int) % 256 ∧
         flagC p = decide (v.toNat + borrow ≤ s.cpu.a.toNat) ∧
         flagV p = decide (signed s.cpu.a - signed v - borrow < -128 ∨
           127 < signed s.cpu.a - signed v - borrow)) ∧
      flagZ p = decide (a = 0) ∧ flagN p = decide (0x80 ≤ a) ∧ flagsKept 0xC3 s.cpu.p p ∧
      t.cpu = cpu t a p)

/-- 45 R226: DCP writes the decremented byte and compares `A` with it; V and the registers keep. -/
def Obligations.DecrementAndCompare : Prop :=
  ∀ (s : State) (m : AddrMode), MemInv s →
    let ea := (effAddr m s).1
    let r := busRead (effAddr m s).2 ea
    ∃ t v p, exec (.dcp m) s = .next t ∧ Stored s r.2 t ea v ∧
      v.toNat = (r.1.toNat + 255) % 256 ∧
      flagC p = decide (v.toNat ≤ s.cpu.a.toNat) ∧ flagZ p = decide (s.cpu.a = v) ∧
      flagN p = decide (128 ≤ (256 + s.cpu.a.toNat - v.toNat) % 256) ∧ flagsKept 0x83 s.cpu.p p ∧
      t.cpu =
        { s.cpu with
          p := p
          pageCross := (effAddr m s).2.cpu.pageCross
          skip := s.cpu.skip + storeStall s ea + BitVec.ofNat 32 (rmwCycles m)
          latch := { s.cpu.latch with nmi := t.cpu.latch.nmi } }

/-! ## The bus -/

/-- 61 R302, R305, R306, 20 R66, R67: work RAM appears four times and PRG RAM once, each write changing the one
byte written; the unmapped and write-only addresses read the constant, and an unmapped write is dropped.
D16, D21. -/
def Obligations.MemoryWindows : Prop :=
  ∀ (s : State) (a : Word) (v : Byte), MemInv s →
    (a.toNat < 0x2000 →
      busRead s a = (s.ram.read (a.toNat % 2048), s) ∧
      (∀ b, isMemory b → byteAt (busWrite s a v) b =
        if b.toNat < 0x2000 ∧ b.toNat % 2048 = a.toNat % 2048 then v else byteAt s b) ∧
      busWrite s a v = { s with ram := (busWrite s a v).ram }) ∧
    (0x6000 ≤ a.toNat → a.toNat < 0x8000 →
      busRead s a = (s.prgRam.read (a.toNat - 0x6000), s) ∧
      (∀ b, isMemory b → byteAt (busWrite s a v) b = if b = a then v else byteAt s b) ∧
      busWrite s a v = { s with prgRam := (busWrite s a v).prgRam }) ∧
    (0x4018 ≤ a.toNat → a.toNat < 0x6000 → busRead s a = (s.cfg.unmappedRead, s) ∧ busWrite s a v = s) ∧
    (0x4000 ≤ a.toNat → a.toNat ≤ 0x4014 → busRead s a = (s.cfg.unmappedRead, s))

/-- 61 R307, 64 R453, R456, R460, R470: a write to `$8000-$FFFF` reaches the mapper's registers and the
mirroring mode alone. Mapper 0 shows its image from bank 0, a 16 KB image twice; mapper 2 takes the byte as
the bank at `$8000` and keeps the last bank at `$C000`. -/
def Obligations.RomWindowWrites : Prop :=
  ∀ (s : State) (a : Word) (v : Byte), 0x8000 ≤ a.toNat →
    let t := busWrite s a v
    t = { s with mapper := t.mapper, ppu := { s.ppu with mirroring := t.ppu.mirroring } } ∧
    (s.mapper = .nrom → 0 < s.cart.prgUnits →
      t = s ∧ (s.cart.prgUnits = 1 → byteAt s a = s.cart.prg.read (a.toNat % 16384)) ∧
      (s.cart.prgUnits = 2 → byteAt s a = s.cart.prg.read (a.toNat - 0x8000))) ∧
    (∀ bank, s.mapper = .uxrom bank → 0 < s.cart.prgUnits → v.toNat < s.cart.prgUnits →
      ∀ b : Word,
        (0x8000 ≤ b.toNat → b.toNat < 0xC000 →
          byteAt t b = s.cart.prg.read (16384 * v.toNat + (b.toNat - 0x8000))) ∧
        (0xC000 ≤ b.toNat →
          byteAt t b = s.cart.prg.read (16384 * (s.cart.prgUnits - 1) + (b.toNat - 0xC000))))

/-- 61 R308, 50 R250: a write of `v` to `$4014` copies the 256 bytes of page `v` into OAM from OAMADDR on,
wrapping, leaves OAMADDR, and adds 513 cycles, 514 on an odd CPU cycle. From a page of memory it changes
nothing else. D19. -/
def Obligations.OamDmaCopiesPage : Prop :=
  ∀ (s : State) (v : Byte),
    let t := busWrite s 0x4014 v
    (t.ppu.oamAddr = s.ppu.oamAddr ∧
      t.cpu = { s.cpu with skip := s.cpu.skip + if bitOf s.cpu.cyclesTotal 0 then 514 else 513 }) ∧
    (MemInv s → (v.toNat < 0x20 ∨ 0x60 ≤ v.toNat) →
      (∀ i, i < 256 →
        t.ppu.oam.read ((s.ppu.oamAddr.toNat + i) % 256) = byteAt s (BitVec.ofNat 16 (256 * v.toNat + i))) ∧
      t = { s with cpu := t.cpu, ppu := { s.ppu with oam := t.ppu.oam } })

/-- 61 R310 to R312: a strobe write with bit 0 set and then clear makes the next eight reads of `$4016` and
`$4017` give the buttons bit 0 first, and every later read no button; while the strobe stays set each read
gives button 0. D23. -/
def Obligations.ControllersShiftButtons : Prop :=
  ∀ (s : State) (n : Nat) (d e : Byte), bitOf d 0 = true → bitOf e 0 = false →
    let held := busWrite s 0x4016 d
    let ready := busWrite held 0x4016 e
    let bitByte := fun b : Bool => if b = true then (0x41 : Byte) else 0x40
    (busRead (readTimes 0x4016 n ready) 0x4016).1 = bitByte (bitOf s.pad.buttons0 n) ∧
    (busRead (readTimes 0x4017 n ready) 0x4017).1 = bitByte (bitOf s.pad.buttons1 n) ∧
    (busRead (readTimes 0x4016 n held) 0x4016).1 = bitByte (bitOf s.pad.buttons0 0) ∧
    (busRead (readTimes 0x4017 n held) 0x4017).1 = bitByte (bitOf s.pad.buttons1 0)

/-! ## The picture unit -/

/-- 62 R335, R337 to R340, 61 R303: every write to the register port goes into the I/O latch, a write-only register
reads it with no other effect, and the eight registers repeat every eight bytes; a write to PPUMASK or OAMADDR
stores the byte and one to PPUSTATUS nothing more; an OAMDATA read gives `$FF` while rendering and else the
addressed byte, moves it into the latch and changes nothing else; an OAMDATA write stores the byte, increments
OAMADDR modulo 256 and changes nothing else. D17, D32. -/
def Obligations.RegisterPortAndOam : Prop :=
  ∀ (s : State) (a : Word) (v : Byte) (r : Nat), isPpuRegister a r →
    (busWrite s a v).ppu.ioLatch = v ∧
    (r ≠ 2 → r ≠ 4 → r ≠ 7 → busRead s a = (s.ppu.ioLatch, s)) ∧
    (∀ b : Word, isPpuRegister b r → busRead s b = busRead s a ∧ busWrite s b v = busWrite s a v) ∧
    (r = 1 → busWrite s a v = { s with ppu := { s.ppu with mask := v, ioLatch := v } }) ∧
    (r = 2 → busWrite s a v = { s with ppu := { s.ppu with ioLatch := v } }) ∧
    (r = 3 → busWrite s a v = { s with ppu := { s.ppu with oamAddr := v, ioLatch := v } }) ∧
    (r = 4 → MemInv s →
      (∀ b, b =
          (if (bitOf s.ppu.mask 3 = true ∨ bitOf s.ppu.mask 4 = true) ∧
              (s.ppu.scanline ≤ 239 ∨ s.ppu.scanline = 261) then 0xFF
          else s.ppu.oam.read s.ppu.oamAddr.toNat) →
        busRead s a = (b, { s with ppu := { s.ppu with ioLatch := b } })) ∧
      busWrite s a v =
        { s with
          ppu := { s.ppu with
            oam := (busWrite s a v).ppu.oam, oamAddr := s.ppu.oamAddr + 1, ioLatch := v } } ∧
      ∀ i, (busWrite s a v).ppu.oam.read i = if i = s.ppu.oamAddr.toNat then v else s.ppu.oam.read i)

/-- 62 R338, R362: a read of PPUSTATUS gives bits 7 to 5 of the status over the latch, clears the vblank bit and
the write toggle, and at (241, 1) suppresses the coming flag. -/
def Obligations.StatusReadClearsVblank : Prop :=
  ∀ (s : State) (a : Word), isPpuRegister a 2 →
    let r := busRead s a
    (∀ j, j < 8 → bitOf r.1 j = if 5 ≤ j then bitOf s.ppu.status j else bitOf s.ppu.ioLatch j) ∧
    (∀ j, j < 8 → bitOf r.2.ppu.status j = if j = 7 then false else bitOf s.ppu.status j) ∧
    (atDot s 241 1 → r.2.ppu.suppressVbl = true) ∧
    (¬ atDot s 241 1 → r.2.ppu.suppressVbl = s.ppu.suppressVbl) ∧
    r.2 =
      { s with
        ppu := { s.ppu with
          status := r.2.ppu.status, w := false, suppressVbl := r.2.ppu.suppressVbl, ioLatch := r.1 } }

/-- 62 R341, R342: the two writes of PPUSCROLL and of PPUADDR, first with `w` clear and then with it set, move
their bits into `t`, fine `x` and `v`. -/
def Obligations.TwoWriteRegisters : Prop :=
  ∀ (s : State) (a b : Word) (c d : Byte), s.ppu.w = false →
    (isPpuRegister a 5 → isPpuRegister b 5 →
      let t := busWrite (busWrite s a c) b d
      t.ppu.w = false ∧ t.ppu.v = s.ppu.v ∧ t.ppu.x.toNat = c.toNat % 8 ∧
        t.ppu.t.toNat = d.toNat % 8 * 4096 + s.ppu.t.toNat / 1024 % 4 * 1024 + d.toNat / 8 * 32 + c.toNat / 8) ∧
    (isPpuRegister a 6 → isPpuRegister b 6 →
      let t := busWrite (busWrite s a c) b d
      t.ppu.w = false ∧ t.ppu.x = s.ppu.x ∧ t.ppu.v = t.ppu.t ∧
        t.ppu.t.toNat = c.toNat % 64 * 256 + d.toNat)

/-- 62 R343 to R347: a PPUDATA write stores at `v` and a read gives the byte one access behind below the palette
(the palette's own byte at once), each then moving `v` by 1 or 32; the store reads back at every mirror of
its address and nowhere else, and CHR ROM ignores it. A nametable address reads the 2 KB memory at the index of
the mirroring mode: page by bit 11, by bit 10, always 0, always 1. D30. -/
def Obligations.DataPortAccesses : Prop :=
  ∀ (s : State) (d : Byte), MemInv s →
    let a := s.ppu.v.toNat % 0x4000
    let t := busWrite s 0x2007 d
    let r := busRead s 0x2007
    let v := s.ppu.v + if bitOf s.ppu.ctrl 2 = true then 32 else 1
    t.ppu.v = v ∧
    (∀ b, b < 0x4000 → ppuRead t b =
      if a < 0x2000 then
        (if usesChrRam s.cart s.mapper = true ∧ b < 0x2000 ∧
            chrIndex s.cart s.mapper b = chrIndex s.cart s.mapper a then d else ppuRead s b)
      else if a < 0x3F00 then
        (if 0x2000 ≤ b ∧ b < 0x3F00 ∧ ntIndex s.ppu.mirroring b = ntIndex s.ppu.mirroring a then d
          else ppuRead s b)
      else
        (if 0x3F00 ≤ b ∧ palIndex (b % 32) = palIndex (a % 32) then d &&& 0x3F else ppuRead s b)) ∧
    (∀ b, 0x2000 ≤ b → b < 0x3F00 →
      ppuRead s b = s.ppu.vram.read (ntIndex s.ppu.mirroring b) ∧
      ntIndex .horizontal b = 1024 * (b / 2048 % 2) + b % 1024 ∧
      ntIndex .vertical b = 1024 * (b / 1024 % 2) + b % 1024 ∧
      ntIndex .singleLower b = b % 1024 ∧ ntIndex .singleUpper b = 1024 + b % 1024) ∧
    r.1 = (if a < 0x3F00 then s.ppu.buffer else ppuRead s a) ∧
    r.2 =
      { s with
        ppu := { s.ppu with
          buffer := ppuRead s (if a < 0x3F00 then a else a - 0x1000), v := v, ioLatch := r.1 } }

/-- 62 R347: the palette's mirror rule: entries `$10`, `$14`, `$18`, `$1C` are `$00`, `$04`, `$08`, `$0C`. -/
def Obligations.PaletteMirrors : Prop :=
  ∀ (s : State) (i : Nat), 0x10 ≤ i → i < 0x20 → i % 4 = 0 →
    palIndex i = i - 0x10 ∧ ppuRead s (0x3F00 + i) = ppuRead s (0x3F00 + i - 0x10) ∧
    ∀ j, j < 0x20 → ¬ (0x10 ≤ j ∧ j % 4 = 0) → palIndex j = j

/-- 62 R361, R362, 61 R322: the dot (241, 1) publishes the frame; unless suppressed it sets the vblank flag and,
with NMI enabled, requests an NMI; suppressed it does neither and the suppression ends. D31. That the frame is
published also when the flag is suppressed is the model's choice: log 10. -/
def Obligations.VblankStart : Prop :=
  ∀ s : State, atDot s 241 1 →
    let t := ppuStep s
    t.ppu.frameShown = s.ppu.frameDraw ∧ atDot t 241 2 ∧ t.ppu.suppressVbl = false ∧
    (s.ppu.suppressVbl = false →
      bitOf t.ppu.status 7 = true ∧
      t.cpu.latch.nmi = (s.cpu.latch.nmi || bitOf s.ppu.ctrl 7) ∧
      t.ppu.nmiSent = (s.ppu.nmiSent || bitOf s.ppu.ctrl 7)) ∧
    (s.ppu.suppressVbl = true →
      t.ppu.status = s.ppu.status ∧ t.cpu.latch.nmi = s.cpu.latch.nmi ∧ t.ppu.nmiSent = s.ppu.nmiSent) ∧
    t.cpu = { s.cpu with latch := { s.cpu.latch with nmi := t.cpu.latch.nmi } }

/-- 62 R336, R363: a PPUCTRL write stores the byte and the nametable bits of `t`, and requests an NMI exactly
when it newly enables NMI while the vblank flag is set and none was sent in this period. D31. -/
def Obligations.CtrlWriteMayFireNmi : Prop :=
  ∀ (s : State) (a : Word) (d : Byte), isPpuRegister a 0 →
    let t := busWrite s a d
    let fires := bitOf s.ppu.ctrl 7 = false ∧ bitOf d 7 = true ∧ bitOf s.ppu.status 7 = true ∧
      s.ppu.nmiSent = false
    t.ppu.ctrl = d ∧
    (∀ j, j < 15 → bitOf t.ppu.t j =
      if j = 10 then bitOf d 0 else if j = 11 then bitOf d 1 else bitOf s.ppu.t j) ∧
    (t.cpu.latch.nmi = true ↔ s.cpu.latch.nmi = true ∨ fires) ∧
    (t.ppu.nmiSent = true ↔ s.ppu.nmiSent = true ∨ fires) ∧
    t =
      { s with
        cpu := { s.cpu with latch := { s.cpu.latch with nmi := t.cpu.latch.nmi } }
        ppu := { s.ppu with ctrl := d, t := t.ppu.t, nmiSent := t.ppu.nmiSent, ioLatch := d } }

/-- 62 R331, R332, R333, R352: the position after a dot: 341 dots a line, 262 lines a frame, the pre-render line one dot
short on odd frames with rendering enabled; the frame counter counts the passages to line 0. D44. -/
def Obligations.PositionAdvances : Prop :=
  ∀ s : State, DeviceInv s →
    let t := ppuStep s
    let rendering := bitOf s.ppu.mask 3 = true ∨ bitOf s.ppu.mask 4 = true
    (s.ppu.dot < 340 → ¬ (atDot s 261 339 ∧ bitOf s.ppu.frame 0 = true ∧ rendering) →
      atDot t s.ppu.scanline (s.ppu.dot + 1) ∧ t.ppu.frame = s.ppu.frame) ∧
    (s.ppu.dot = 340 → s.ppu.scanline < 261 →
      atDot t (s.ppu.scanline + 1) 0 ∧ t.ppu.frame = s.ppu.frame) ∧
    (atDot s 261 340 ∨ (atDot s 261 339 ∧ bitOf s.ppu.frame 0 = true ∧ rendering) →
      atDot t 0 0 ∧ t.ppu.frame = s.ppu.frame + 1)

/-- 62 R355, R356: the coarse X increment wraps at 31 into the horizontal nametable bit; the Y increment carries
fine Y into coarse Y, which wraps at 29 into the vertical nametable bit and at 31 without it. -/
def Obligations.ScrollIncrements : Prop :=
  ∀ v : BitVec 15,
    let fineY := v.toNat / 4096
    let coarseY := v.toNat / 32 % 32
    let coarseX := v.toNat % 32
    let tables := v.toNat / 1024 % 4
    let pack := fun fy nt cy cx : Nat => 4096 * fy + 1024 * nt + 32 * cy + cx
    (incCoarseX v).toNat =
      (if coarseX = 31 then pack fineY (if tables % 2 = 1 then tables - 1 else tables + 1) coarseY 0
        else pack fineY tables coarseY (coarseX + 1)) ∧
    (incY v).toNat =
      (if fineY < 7 then pack (fineY + 1) tables coarseY coarseX
        else if coarseY = 29 then pack 0 (if 2 ≤ tables then tables - 2 else tables + 2) 0 coarseX
        else if coarseY = 31 then pack 0 tables 0 coarseX
        else pack 0 tables (coarseY + 1) coarseX)

/-- 62 R359: the evaluation lists the first eight sprites in range in OAM order and sets the overflow bit when
there is a ninth. D33. -/
def Obligations.SpriteEvaluation : Prop :=
  ∀ p : Ppu, p.scanline ≠ 261 → p.rendering = true →
    let hits := (List.range 64).filter (inSpriteRange p.oam p.scanline p.spriteHeight)
    let q := p.evaluateSprites
    q.sprites = hits.take 8 ∧
    (∀ j, j < 8 → bitOf q.status j = (bitOf p.status j || (decide (j = 5) && decide (9 ≤ hits.length)))) ∧
    q = { p with spriteList := q.spriteList, spriteCount := q.spriteCount, status := q.status }

/-! ## The audio unit -/

/-- 63 R399 to R401, 60 R287: a read of `$4015` reports the nonzero counters and the two interrupt flags and
clears the frame flag alone; a `$4015` write enables and disables the channels, a disabled one's counter
becoming zero, and clears the DMC flag; a `$4017` write restarts the sequencer, and with bit 6 clears and
inhibits the frame flag. D35, D36. -/
def Obligations.AudioControlPort : Prop :=
  ∀ (s : State) (d : Byte),
    (let r := busRead s 0x4015
     (∀ j, j < 8 → bitOf r.1 j =
        if j = 0 then decide (s.apu.pulse1.length ≠ 0)
        else if j = 1 then decide (s.apu.pulse2.length ≠ 0)
        else if j = 2 then decide (s.apu.triangle.length ≠ 0)
        else if j = 3 then decide (s.apu.noise.length ≠ 0)
        else if j = 4 then decide (s.apu.dmc.bytesLeft ≠ 0)
        else if j = 6 then s.apu.frameIrq
        else if j = 7 then s.apu.dmcIrq
        else false) ∧
       r.2 = { s with apu := { s.apu with frameIrq := false } }) ∧
    (let a := (busWrite s 0x4015 d).apu
     a.pulse1.enabled = bitOf d 0 ∧ a.pulse2.enabled = bitOf d 1 ∧ a.triangle.enabled = bitOf d 2 ∧
       a.noise.enabled = bitOf d 3 ∧
       a.pulse1.length = (if bitOf d 0 = true then s.apu.pulse1.length else 0) ∧
       a.pulse2.length = (if bitOf d 1 = true then s.apu.pulse2.length else 0) ∧
       a.triangle.length = (if bitOf d 2 = true then s.apu.triangle.length else 0) ∧
       a.noise.length = (if bitOf d 3 = true then s.apu.noise.length else 0) ∧
       a.dmc.bytesLeft =
         (if bitOf d 4 = false then 0
           else if s.apu.dmc.bytesLeft = 0 then s.apu.dmc.sampleLen else s.apu.dmc.bytesLeft) ∧
       a.dmcIrq = false ∧ a.frameIrq = s.apu.frameIrq) ∧
    (let a := (busWrite s 0x4017 d).apu
     a.fsMode = bitOf d 7 ∧ a.fsInhibit = bitOf d 6 ∧ a.fsCount = 0 ∧ a.fsStep = 0 ∧
       a.frameIrq = (s.apu.frameIrq && !bitOf d 6) ∧ a.dmcIrq = s.apu.dmcIrq) ∧
    SameMemory s (busWrite s 0x4015 d) ∧ SameMemory s (busWrite s 0x4017 d)

/-- 63 R418 to R420: the frame flag is set exactly when the sequencer completes step 3 of the 4-step mode with
inhibit clear; the step then advances modulo 4 or 5. -/
def Obligations.FrameFlagRule : Prop :=
  ∀ (a : Apu) (period : Nat),
    let b := a.frameSequencer period
    let due := (a.fsCount + 1).toNat = period
    (b.frameIrq = true ↔
      a.frameIrq = true ∨ (due ∧ a.fsMode = false ∧ a.fsInhibit = false ∧ a.fsStep = 3)) ∧
    (due → b.fsCount = 0 ∧
      b.fsStep.toNat = (a.fsStep.toNat + 1) % (if a.fsMode = true then 5 else 4)) ∧
    (¬ due → b = { a with fsCount := a.fsCount + 1 }) ∧
    b.fsMode = a.fsMode ∧ b.fsInhibit = a.fsInhibit ∧ b.dmcIrq = a.dmcIrq

/-- 63 R425, R427, R428, 61 R309: when the shift register empties with bytes left, the next byte is read through
the bus; the address wraps to `$8000`; the last byte loops or, with the interrupt enabled, raises the flag; the
CPU is not stalled. D20. -/
def Obligations.SampleFetch : Prop :=
  ∀ s : State,
    (dmcTimer s).cpu = s.cpu ∧
    (s.apu.dmc.timer = 0 → s.apu.dmc.bitsLeft = 1 → s.apu.dmc.bytesLeft ≠ 0 →
      isMemory s.apu.dmc.curAddr →
      let c := s.apu.dmc
      let d := (dmcTimer s).apu.dmc
      let last := c.bytesLeft = 1
      d.shift = byteAt s c.curAddr ∧ d.bitsLeft = 8 ∧ d.silence = false ∧
      (¬ (last ∧ c.loop = true) →
        d.bytesLeft = c.bytesLeft - 1 ∧
        d.curAddr = if c.curAddr.toNat = 0xFFFF then 0x8000 else c.curAddr + 1) ∧
      (last → c.loop = true → d.bytesLeft = c.sampleLen ∧ d.curAddr = c.sampleAddr) ∧
      ((dmcTimer s).apu.dmcIrq = true ↔
        s.apu.dmcIrq = true ∨ (last ∧ c.loop = false ∧ c.irqEnable = true)))

/-- 60 R273, 61 R316: at the end of every master cycle the IRQ request is set if a device's interrupt flag is
set, and otherwise kept. D8, D18. -/
def Obligations.IrqRearm : Prop :=
  ∀ s : State,
    let t := deviceTicks s
    (t.cpu.latch.irq = true ↔
      s.cpu.latch.irq = true ∨ t.apu.frameIrq = true ∨ t.apu.dmcIrq = true ∨ t.mapper.irqFlag = true) ∧
    t.cpu =
      { s.cpu with latch := { s.cpu.latch with irq := t.cpu.latch.irq, nmi := t.cpu.latch.nmi } }

/-! ## The mappers -/

/-- 64 R463, R464: mapper 1 takes five bits, the first written lowest, into the register of the fifth write's
address, whatever addresses the first four go to; a byte with bit 7 set restarts the sequence and selects PRG
mode 3. -/
def Obligations.Mmc1SerialLoad : Prop :=
  ∀ (s : State) (r : Mmc1) (a0 a1 a2 a3 a4 : Word) (d0 d1 d2 d3 d4 : Byte),
    s.mapper = .mmc1 r → r.shift = 0x10 →
    (∀ a, a ∈ [a0, a1, a2, a3, a4] → 0x8000 ≤ a.toNat) →
    (∀ d, d ∈ [d0, d1, d2, d3, d4] → bitOf d 7 = false) →
    let value := d0.toNat % 2 + 2 * (d1.toNat % 2) + 4 * (d2.toNat % 2) + 8 * (d3.toNat % 2) +
      16 * (d4.toNat % 2)
    (writeAll [(a0, d0), (a1, d1), (a2, d2), (a3, d3), (a4, d4)] s).mapper =
      .mmc1
        (if a4.toNat < 0xA000 then { r with control := BitVec.ofNat 5 value }
          else if a4.toNat < 0xC000 then { r with chr0 := BitVec.ofNat 5 value }
          else if a4.toNat < 0xE000 then { r with chr1 := BitVec.ofNat 5 value }
          else { r with prg := BitVec.ofNat 5 value }) ∧
    ∀ (a : Word) (d : Byte) (r' : Mmc1) (u : State), 0x8000 ≤ a.toNat → u.mapper = .mmc1 r' → bitOf d 7 = true →
      (busWrite u a d).mapper = .mmc1 { r' with shift := 0x10, control := r'.control ||| 0x0C }

/-- 64 R480, R481, R489, 60 R273: mapper 4's counter reloads from the latch at 0 or on request, else counts down,
and sets the flag at 0 while enabled; the even address of `$E000-$FFFF` clears and disables it. Mapper 65's
timer counts master cycles down to 0 while enabled and sets the flag when it gets there. Every other mapper's
hooks do nothing. -/
def Obligations.MapperCounters : Prop :=
  (∀ (r : Mmc3),
    (∃ c, (Mapper.mmc3 r).scanlineHook =
        .mmc3 { r with
          irqCounter := c
          irqReload := false
          irqFlag := r.irqFlag || (decide (c = 0) && r.irqEnable) } ∧
      c = if r.irqCounter = 0 ∨ r.irqReload = true then r.irqLatch else r.irqCounter - 1) ∧
    ∀ (s : State) (a : Word) (d : Byte), s.mapper = .mmc3 r → 0xE000 ≤ a.toNat →
      (busWrite s a d).mapper =
        .mmc3 (if a.toNat % 2 = 0 then { r with irqEnable := false, irqFlag := false }
          else { r with irqEnable := true })) ∧
  ∀ m : Mapper,
    (∀ r, m = .m65 r →
      m.cycleHook =
        .m65 (if r.irqEnable = true ∧ 0 < r.irqCounter.toNat then
          { r with
            irqCounter := r.irqCounter - 1
            irqFlag := r.irqFlag || decide (r.irqCounter.toNat = 1) }
        else r)) ∧
    ((∀ r, m ≠ .m65 r) → m.cycleHook = m ∧ (m.cycleHook.irqFlag = true → ∃ r, m = .mmc3 r)) ∧
    ((∀ r, m ≠ .mmc3 r) → m.scanlineHook = m)

/-! ## Reset, images, save and load -/

/-- 70 R520 to R522, 10 R40, 61 R310, 62 R334, 63 R393, 64 R462, R466, R471, R474, R477, R485: `Reset()` gives every
register of the CPU, the picture unit, the audio unit, the controllers and the mapper its reset value, loads `PC`
through the reset mapper, and changes no memory. D3, D4, D23, D27, D42. The model's choices in it: the buttons and
the frames stay (log 12), `p[2]` of mapper 65 is the low byte (log 13), `acc` has 64 bits (log 11). -/
def Obligations.ResetSetsRegisters : Prop :=
  ∀ s : State,
    let t := hostReset s
    let silent : Pulse :=
      { enabled := false, duty := 0, seq := 0, timerPeriod := 0, timer := 0, length := 0, halt := false
        env := { const := false, vol := 0, start := false, div := 0, decay := 0 }
        swEnable := false, swPeriod := 0, swNegate := false, swShift := 0, swDiv := 0, swReload := false }
    t.cpu =
      { pc := word (byteAt t 0xFFFD) (byteAt t 0xFFFC), a := s.cfg.resetA, x := s.cfg.resetX, y := s.cfg.resetY
        sp := 0xFD, p := 0x24, latch := { nmi := false, irq := false, brk := false }, skip := 0
        pageCross := false, inInterrupt := false, intKind := none, cyclesTotal := 0 } ∧
    t.ppu =
      { s.ppu with
        ctrl := 0, mask := 0, status := 0, oamAddr := 0, v := 0, t := 0, w := false, x := 0, buffer := 0
        ioLatch := 0, spriteList := t.ppu.spriteList, spriteCount := 0, scanline := 261, dot := 0, frame := 0
        ntLatch := 0, atLatch := 0, plLatch := 0, phLatch := 0, bgLo := 0, bgHi := 0, atCur := 0, atNext := 0
        nmiSent := false, suppressVbl := false, mirroring := t.ppu.mirroring } ∧
    ((∀ r, s.mapper ≠ .mmc1 r) → t.ppu.mirroring = s.ppu.mirroring) ∧
    t.apu =
      { pulse1 := silent, pulse2 := silent
        triangle :=
          { enabled := false, timerPeriod := 0, timer := 0, seq := 0, length := 0, control := false
            linReloadVal := 0, lin := 0, linReload := false }
        noise :=
          { enabled := false, mode := false, periodIdx := 0, timer := 0, lfsr := 1, length := 0, halt := false
            env := silent.env }
        dmc :=
          { irqEnable := false, loop := false, rateIdx := 0, timer := 0, level := 0, sampleAddr := 0xC000
            sampleLen := 1, curAddr := 0, bytesLeft := 0, shift := 0, bitsLeft := 8, silence := true }
        fsMode := false, fsInhibit := false, fsCount := 0, fsStep := 0, frameIrq := false, dmcIrq := false
        half := false, acc := 0 } ∧
    t.pad = { s.pad with strobe := false, shift0 := 0, shift1 := 0 } ∧
    (s.mapper = .nrom → t.mapper = .nrom) ∧
    (∀ r, s.mapper = .mmc1 r →
      t.mapper = .mmc1 { shift := 0x10, control := 0x0C, chr0 := 0, chr1 := 0, prg := 0 } ∧
      t.ppu.mirroring = .singleLower) ∧
    (∀ b, s.mapper = .uxrom b → t.mapper = .uxrom 0) ∧
    (∀ b, s.mapper = .cnrom b → t.mapper = .cnrom 0) ∧
    (∀ r, s.mapper = .mmc3 r →
      t.mapper =
        .mmc3
          { select := 0, r := #v[0, 2, 4, 5, 6, 7, 0, 1], irqLatch := 0, irqCounter := 0, irqReload := false
            irqEnable := false, irqFlag := false }) ∧
    (∀ r, s.mapper = .m65 r →
      t.mapper =
        .m65
          { p0 := 0, p1 := 1, p2 := BitVec.ofNat 8 (2 * s.cart.prgUnits - 2), layout := false
            c := #v[0, 1, 2, 3, 4, 5, 6, 7], irqEnable := false, irqCounter := 0, irqReloadVal := 0
            irqFlag := false }) ∧
    t.ram = s.ram ∧ t.prgRam = s.prgRam ∧ t.chrRam = s.chrRam ∧ t.cart = s.cart ∧ t.cfg = s.cfg

/-- 65 R510, R501, R503 to R509: `Save()` followed by `Load()` gives back the whole state. D39; the byte layout and the
reading of a field are the model's choice: logs 9 and 14. -/
def Obligations.SaveThenLoadRestores : Prop :=
  ∀ s : State, Inv s → load s (save s) = (true, s)

/-- 65 R505, R509: a load whose header or length does not match changes nothing; any load leaves the
configuration, the cartridge, PRG RAM, the controllers, the frames and the audio queue, and a loaded status
has its fixed bits. D39. That every version but `SAVE_VERSION` is refused is the model's choice: log 14. -/
def Obligations.LoadIsAllOrNothing : Prop :=
  ∀ (s : State) (file : List Byte),
    let r := load s file
    (file.take 8 ≠ (save s).take 8 ∨ file.length ≠ (save s).length → r = (false, s)) ∧
    (r.1 = false → r.2 = s) ∧
    (r.1 = true → statusOk r.2.cpu.p = true) ∧
    r.2.cfg = s.cfg ∧ r.2.cart = s.cart ∧ r.2.prgRam = s.prgRam ∧ r.2.pad = s.pad ∧
    r.2.audio = s.audio ∧ r.2.ppu.frameDraw = s.ppu.frameDraw ∧ r.2.ppu.frameShown = s.ppu.frameShown

/-! ## Invariants -/

/-- 10 R26, R28, R30, R33, 62 R334, 63 R393, 70 R521, R522: the invariants of the CPU, the memories and the devices
hold after reset and after power-on with any cartridge. The machine of `State.reset` (log 3), an unlisted byte's 0
(log 6) and the frames' zeros (log 12) are the model's choices. -/
def Obligations.ResetMeetsInvariants : Prop :=
  Inv State.reset ∧ ∀ (cfg : Config) (cart : Cartridge) (m : Mapper), Inv (powerOn cfg cart m)

/-- 10 R26, R28, R30, 50 R254: every step keeps the CPU's invariant: bit 5 of the status 1 and B 0, no BRK
request, `skip` within one slot, and a sequence in progress before its vector. Log 22. -/
def Obligations.StepKeepsCpuInvariant : Prop :=
  ∀ s t : State, CpuInv s → step s = .next t → CpuInv t

/-- 61 R302, R305, 62 R330, 64 R451, log 6: every step keeps every memory in canonical form and inside its
size, and palette entries and pixels at six bits. -/
def Obligations.StepKeepsMemoryInvariant : Prop :=
  ∀ s t : State, MemInv s → step s = .next t → MemInv t

/-- 62 R330, R331, 63 R392, R411: every step keeps the picture unit's position and counters and the audio unit's
counters in their ranges; the noise register never becomes 0. -/
def Obligations.StepKeepsDeviceInvariant : Prop :=
  ∀ s t : State, DeviceInv s → step s = .next t → DeviceInv t
end

