-- ==== Sys2Proof/Laws/Memory.lean ====
section
/-! SUPPORT. The laws of memories: read after write, the frame, and that every operation keeps the canonical
form. -/

namespace Sys2Proof.Machine

/-! ## The canonical form bounds what is listed -/

theorem wfFrom_mono {low low' : Nat} {m : Memory} (h : low' ≤ low) (hm : m.wfFrom low = true) :
    m.wfFrom low' = true := by
  cases m with
  | nil => rfl
  | cons c m =>
    simp only [Memory.wfFrom, Bool.and_eq_true, decide_eq_true_eq] at hm ⊢
    exact ⟨⟨by omega, hm.1.2⟩, hm.2⟩

theorem read_below_low {low n : Nat} {m : Memory} (hm : m.wfFrom low = true) (h : n < low) :
    m.read n = unlistedByte := by
  induction m generalizing low with
  | nil => rfl
  | cons c m ih =>
    simp only [Memory.wfFrom, Bool.and_eq_true, decide_eq_true_eq] at hm
    rw [Memory.read, if_neg (by omega)]
    exact ih hm.2 (by omega)

/-! ## Read after write -/

theorem read_write {low : Nat} {m : Memory} (hm : m.wfFrom low = true) (n k : Nat) (v : Byte) :
    (m.write n v).read k = if k = n then v else m.read k := by
  induction m generalizing low with
  | nil =>
    by_cases hv : v = unlistedByte <;> simp [Memory.write, Memory.read, hv]
  | cons c m ih =>
    obtain ⟨i, b⟩ := c
    simp only [Memory.wfFrom, Bool.and_eq_true, decide_eq_true_eq] at hm
    have hlow : ∀ j, j ≤ i → Memory.read m j = unlistedByte :=
      fun j hj => read_below_low hm.2 (by omega)
    have key := ih hm.2
    simp only [Memory.write]
    by_cases h1 : n < i
    · rw [if_pos h1]
      by_cases hv : v = unlistedByte
      · rw [if_pos hv]
        by_cases hk : k = n
        · subst hk
          rw [if_pos rfl, Memory.read, if_neg (by omega), hlow k (by omega), hv]
        · rw [if_neg hk]
      · rw [if_neg hv, Memory.read]
    · rw [if_neg h1]
      by_cases h2 : n = i
      · subst h2
        rw [if_pos rfl]
        by_cases hv : v = unlistedByte
        · rw [if_pos hv]
          by_cases hk : k = n
          · subst hk
            rw [if_pos rfl, hlow k (by omega), hv]
          · rw [if_neg hk, Memory.read, if_neg hk]
        · rw [if_neg hv, Memory.read, Memory.read]
          by_cases hk : k = n
          · rw [if_pos hk, if_pos hk]
          · rw [if_neg hk, if_neg hk, if_neg hk]
      · rw [if_neg h2, Memory.read, Memory.read, key]
        by_cases hk : k = i
        · rw [if_pos hk, if_pos hk, if_neg (by omega)]
        · rw [if_neg hk, if_neg hk]

/-- A write leaves every other index alone, whatever the list. -/
theorem read_write_other (m : Memory) {n k : Nat} (v : Byte) (h : k ≠ n) :
    (m.write n v).read k = m.read k := by
  induction m with
  | nil => by_cases hv : v = unlistedByte <;> simp [Memory.write, Memory.read, hv, h]
  | cons c m ih =>
    obtain ⟨i, b⟩ := c
    simp only [Memory.write]
    split
    · split
      · rfl
      · rw [Memory.read, if_neg h]
    · split
      · rename_i h2
        subst h2
        split
        · rw [Memory.read, if_neg h]
        · rw [Memory.read, Memory.read, if_neg h, if_neg h]
      · rw [Memory.read, Memory.read, ih]

theorem read_write_same {m : Memory} (hm : m.wf = true) (n : Nat) (v : Byte) :
    (m.write n v).read n = v := by
  rw [read_write (low := 0) hm, if_pos rfl]

/-! ## Every operation keeps the canonical form -/

theorem wfFrom_write {low n : Nat} {m : Memory} (v : Byte) (hm : m.wfFrom low = true) (hn : low ≤ n) :
    (m.write n v).wfFrom low = true := by
  induction m generalizing low with
  | nil =>
    by_cases hv : v = unlistedByte
    · simp [Memory.write, Memory.wfFrom, hv]
    · simp [Memory.write, Memory.wfFrom, hv, hn]
  | cons c m ih =>
    obtain ⟨i, b⟩ := c
    have hm' := hm
    simp only [Memory.wfFrom, Bool.and_eq_true, decide_eq_true_eq] at hm
    simp only [Memory.write]
    split
    · rename_i h1
      split
      · exact hm'
      · rename_i hv
        simp only [Memory.wfFrom, Bool.and_eq_true, decide_eq_true_eq, bne_iff_ne, ne_eq]
        exact ⟨⟨hn, hv⟩, ⟨by omega, by simpa using hm.1.2⟩, hm.2⟩
    · split
      · rename_i h2
        subst h2
        split
        · exact wfFrom_mono (by omega) hm.2
        · rename_i hv
          simp only [Memory.wfFrom, Bool.and_eq_true, decide_eq_true_eq, bne_iff_ne, ne_eq]
          exact ⟨⟨hn, hv⟩, hm.2⟩
      · simp only [Memory.wfFrom, Bool.and_eq_true, decide_eq_true_eq]
        exact ⟨hm.1, ih hm.2 (by omega)⟩

theorem wf_write {m : Memory} (n : Nat) (v : Byte) (hm : m.wf = true) : (m.write n v).wf = true :=
  wfFrom_write v hm (Nat.zero_le n)

/-- A predicate of every listed cell holds after a write if it holds before and of the written cell. -/
theorem all_write {p : Host.Cell → Bool} {m : Memory} {n : Nat} {v : Byte} (hm : m.all p = true)
    (hv : p (n, v) = true) : (m.write n v).all p = true := by
  induction m with
  | nil =>
    simp only [Memory.write]
    split <;> simp [hv]
  | cons c m ih =>
    obtain ⟨i, b⟩ := c
    simp only [List.all_cons, Bool.and_eq_true] at hm
    simp only [Memory.write]
    split
    · split <;> simp [hm, hv]
    · split
      · split <;> simp [hm, hv]
      · simp [hm.1, ih hm.2]

theorem below_write {size n : Nat} {m : Memory} (v : Byte) (hm : m.below size = true) (hn : n < size) :
    (m.write n v).below size = true := all_write hm (by simpa using hn)

theorem sixBit_write {n : Nat} {m : Memory} {v : Byte} (hm : m.sixBit = true) (hv : v.toNat < 64) :
    (m.write n v).sixBit = true := all_write hm (by simpa using hv)

theorem fits_write {size n : Nat} {m : Memory} (v : Byte) (hm : m.fits size = true) (hn : n < size) :
    (m.write n v).fits size = true := by
  simp only [Memory.fits, Bool.and_eq_true] at hm ⊢
  exact ⟨wf_write n v hm.1, below_write v hm.2 hn⟩

@[simp] theorem fits_nil (size : Nat) : Memory.fits size [] = true := rfl

/-! ## Memories from byte lists -/

theorem wfFrom_ofBytes (start : Nat) (bs : List Byte) : (Memory.ofBytes start bs).wfFrom start = true := by
  induction bs generalizing start with
  | nil => rfl
  | cons b bs ih =>
    simp only [Memory.ofBytes]
    split
    · exact wfFrom_mono (Nat.le_succ start) (ih (start + 1))
    · rename_i hb
      simp [Memory.wfFrom, hb, ih (start + 1)]

theorem read_ofBytes (start : Nat) (bs : List Byte) (n : Nat) :
    (Memory.ofBytes start bs).read (start + n) = bs.getD n unlistedByte := by
  induction bs generalizing start n with
  | nil => simp [Memory.ofBytes, Memory.read]
  | cons b bs ih =>
    have hrest : ∀ k, (Memory.ofBytes (start + 1) bs).read (start + (k + 1)) = bs.getD k unlistedByte := by
      intro k
      rw [show start + (k + 1) = start + 1 + k by omega]
      exact ih (start + 1) k
    have h0 : (Memory.ofBytes (start + 1) bs).read start = unlistedByte :=
      read_below_low (wfFrom_ofBytes (start + 1) bs) (Nat.lt_succ_self start)
    simp only [Memory.ofBytes]
    cases n with
    | zero =>
      split
      · rename_i hb
        simpa [hb] using h0
      · simp [Memory.read]
    | succ k =>
      split
      · simpa using hrest k
      · rw [Memory.read, if_neg (by omega)]
        simpa using hrest k

theorem below_ofBytes (start : Nat) (bs : List Byte) :
    (Memory.ofBytes start bs).below (start + bs.length) = true := by
  induction bs generalizing start with
  | nil => rfl
  | cons b bs ih =>
    have h := ih (start + 1)
    rw [show start + 1 + bs.length = start + (b :: bs).length by simp; omega] at h
    simp only [Memory.ofBytes]
    split
    · exact h
    · simp only [Memory.below, List.all_cons, Bool.and_eq_true, decide_eq_true_eq]
      exact ⟨by simp, h⟩

/-- Two memories in canonical form that read the same are equal. -/
theorem eq_of_read_eq {low : Nat} {m m' : Memory} (hm : m.wfFrom low = true) (hm' : m'.wfFrom low = true)
    (h : ∀ n, m.read n = m'.read n) : m = m' := by
  induction m generalizing low m' with
  | nil =>
    cases m' with
    | nil => rfl
    | cons c m' =>
      simp only [Memory.wfFrom, Bool.and_eq_true, bne_iff_ne] at hm'
      exact absurd (h c.1).symm (by simpa [Memory.read] using hm'.1.2)
  | cons c m ih =>
    obtain ⟨i, b⟩ := c
    have hmc := hm
    simp only [Memory.wfFrom, Bool.and_eq_true, bne_iff_ne, decide_eq_true_eq] at hm
    cases m' with
    | nil => exact absurd (h i) (by simpa [Memory.read] using hm.1.2)
    | cons c' m' =>
      obtain ⟨i', b'⟩ := c'
      have hmc' := hm'
      simp only [Memory.wfFrom, Bool.and_eq_true, bne_iff_ne, decide_eq_true_eq] at hm'
      have hi : i = i' := by
        by_contra hne
        rcases Nat.lt_or_gt_of_ne hne with hlt | hlt
        · have h' : b = Memory.read m' i := by simpa [Memory.read, hne] using h i
          rw [read_below_low hm'.2 (by omega)] at h'
          exact hm.1.2 h'
        · have h' : Memory.read m i' = b' := by simpa [Memory.read, Ne.symm hne] using h i'
          rw [read_below_low hm.2 (by omega)] at h'
          exact hm'.1.2 h'.symm
      subst hi
      have hb : b = b' := by simpa [Memory.read] using h i
      subst hb
      rw [ih hm.2 hm'.2]
      intro n
      by_cases hn : n = i
      · subst hn
        rw [read_below_low hm.2 (by omega), read_below_low hm'.2 (by omega)]
      · simpa [Memory.read, hn] using h n

theorem read_of_below {size n : Nat} {m : Memory} (hm : m.below size = true) (hn : size ≤ n) :
    m.read n = unlistedByte := by
  induction m with
  | nil => rfl
  | cons c m ih =>
    simp only [Memory.below, List.all_cons, Bool.and_eq_true, decide_eq_true_eq] at hm
    rw [Memory.read, if_neg (by omega)]
    exact ih hm.2

/-- The bytes of a memory that fits in `size`, read back, are the memory: what a save record keeps. -/
theorem ofBytes_toBytes {size : Nat} {m : Memory} (hm : m.fits size = true) :
    Memory.ofBytes 0 (m.toBytes size) = m := by
  simp only [Memory.fits, Bool.and_eq_true] at hm
  refine eq_of_read_eq (wfFrom_ofBytes 0 _) hm.1 fun n => ?_
  have h := read_ofBytes 0 (m.toBytes size) n
  rw [Nat.zero_add] at h
  rw [h]
  by_cases hn : n < size
  · simp [Memory.toBytes, List.getD, hn]
  · rw [read_of_below hm.2 (by omega)]
    simp [Memory.toBytes, List.getD, hn]

end Sys2Proof.Machine
end

