-- ==== Sys2Proof/Laws/Bus.lean ====
section
/-! SUPPORT. Everything a bus read and a bus write can do, said once each, and the plain memory windows. -/

namespace Sys2Proof.Machine

/-! ## What a read can change (20 R66) -/

theorem busRead_changes (s : State) (a : Word) :
    (busRead s a).2 =
      { s with
        ppu := { s.ppu with
          status := (busRead s a).2.ppu.status
          w := (busRead s a).2.ppu.w
          suppressVbl := (busRead s a).2.ppu.suppressVbl
          ioLatch := (busRead s a).2.ppu.ioLatch
          buffer := (busRead s a).2.ppu.buffer
          v := (busRead s a).2.ppu.v }
        apu := { s.apu with frameIrq := (busRead s a).2.apu.frameIrq }
        pad := { s.pad with
          shift0 := (busRead s a).2.pad.shift0
          shift1 := (busRead s a).2.pad.shift1 } } := by
  unfold busRead
  dsimp only
  split
  · rfl
  split
  · unfold ppuRegRead
    split <;> rfl
  split
  · rfl
  split
  · rfl
  split
  · rfl
  split
  · rfl
  split <;> rfl

@[simp] theorem busRead_cfg (s : State) (a : Word) : (busRead s a).2.cfg = s.cfg := by rw [busRead_changes]
@[simp] theorem busRead_cart (s : State) (a : Word) : (busRead s a).2.cart = s.cart := by rw [busRead_changes]
@[simp] theorem busRead_cpu (s : State) (a : Word) : (busRead s a).2.cpu = s.cpu := by rw [busRead_changes]
@[simp] theorem busRead_ram (s : State) (a : Word) : (busRead s a).2.ram = s.ram := by rw [busRead_changes]
@[simp] theorem busRead_prgRam (s : State) (a : Word) : (busRead s a).2.prgRam = s.prgRam := by
  rw [busRead_changes]
@[simp] theorem busRead_chrRam (s : State) (a : Word) : (busRead s a).2.chrRam = s.chrRam := by
  rw [busRead_changes]
@[simp] theorem busRead_mapper (s : State) (a : Word) : (busRead s a).2.mapper = s.mapper := by
  rw [busRead_changes]
@[simp] theorem busRead_audio (s : State) (a : Word) : (busRead s a).2.audio = s.audio := by
  rw [busRead_changes]
@[simp] theorem busRead_vram (s : State) (a : Word) : (busRead s a).2.ppu.vram = s.ppu.vram := by
  rw [busRead_changes]
@[simp] theorem busRead_pal (s : State) (a : Word) : (busRead s a).2.ppu.pal = s.ppu.pal := by
  rw [busRead_changes]
@[simp] theorem busRead_oam (s : State) (a : Word) : (busRead s a).2.ppu.oam = s.ppu.oam := by
  rw [busRead_changes]
@[simp] theorem busRead_oamAddr (s : State) (a : Word) : (busRead s a).2.ppu.oamAddr = s.ppu.oamAddr := by
  rw [busRead_changes]

/-! ## Reads of memory (61 R302, R305, R307) -/

theorem busRead_ram_window (s : State) {a : Word} (h : a.toNat < 0x2000) :
    busRead s a = (s.ram.read (a.toNat &&& 0x07FF), s) := by
  simp [busRead, h]

theorem busRead_prgRam_window (s : State) {a : Word} (h : 0x6000 ≤ a.toNat) (h' : a.toNat < 0x8000) :
    busRead s a = (s.prgRam.read (a.toNat - 0x6000), s) := by
  unfold busRead
  dsimp only
  rw [if_neg (by omega), if_neg (by omega), if_neg (by omega), if_neg (by omega), if_neg (by omega),
    if_neg (by omega), if_pos h']

theorem busRead_rom_window (s : State) {a : Word} (h : 0x8000 ≤ a.toNat) : busRead s a = (readPrg s a, s) := by
  unfold busRead
  dsimp only
  rw [if_neg (by omega), if_neg (by omega), if_neg (by omega), if_neg (by omega), if_neg (by omega),
    if_neg (by omega), if_neg (by omega)]

/-- A read of memory changes nothing (20 R66). -/
theorem busRead_isMemory (s : State) {a : Word} (h : isMemory a) : busRead s a = (byteAt s a, s) := by
  unfold byteAt
  rcases h with h | h
  · rw [busRead_ram_window s h]
  · by_cases h' : a.toNat < 0x8000
    · rw [busRead_prgRam_window s h h']
    · rw [busRead_rom_window s (by omega)]

/-- What a read of memory depends on. -/
theorem byteAt_congr {s t : State} (hram : t.ram = s.ram) (hprg : t.prgRam = s.prgRam) (hcart : t.cart = s.cart)
    (hmap : t.mapper = s.mapper) {a : Word} (h : isMemory a) : byteAt t a = byteAt s a := by
  unfold byteAt
  rcases h with h | h
  · rw [busRead_ram_window s h, busRead_ram_window t h, hram]
  · by_cases h' : a.toNat < 0x8000
    · rw [busRead_prgRam_window s h h', busRead_prgRam_window t h h', hprg]
    · rw [busRead_rom_window s (by omega), busRead_rom_window t (by omega)]
      simp only [readPrg, hcart, hmap]

/-- Memories equal field by field read the same. -/
theorem sameMemory_of_eq {s t : State} (hram : t.ram = s.ram) (hprg : t.prgRam = s.prgRam)
    (hcart : t.cart = s.cart) (hmap : t.mapper = s.mapper) (hchr : t.chrRam = s.chrRam)
    (hvram : t.ppu.vram = s.ppu.vram) (hpal : t.ppu.pal = s.ppu.pal) (hoam : t.ppu.oam = s.ppu.oam) :
    SameMemory s t where
  cpu _ h := byteAt_congr hram hprg hcart hmap h
  chr a := by simp only [readChr, hcart, hmap, hchr]
  vram i := by rw [hvram]
  pal i := by rw [hpal]
  oam i := by rw [hoam]

/-- A bus read leaves every byte of memory. -/
theorem sameMemory_busRead (s : State) (a : Word) : SameMemory s (busRead s a).2 :=
  sameMemory_of_eq (by simp) (by simp) (by simp) (by simp) (by simp) (by simp) (by simp) (by simp)

/-! ## What a write can change -/

/-- The copy of a DMA changes what 256 reads change, and OAM. -/
theorem dmaCopy_changes (v : Byte) (is : List Nat) (s : State) :
    dmaCopy v is s =
      { s with
        ppu := { s.ppu with
          status := (dmaCopy v is s).ppu.status
          w := (dmaCopy v is s).ppu.w
          suppressVbl := (dmaCopy v is s).ppu.suppressVbl
          ioLatch := (dmaCopy v is s).ppu.ioLatch
          buffer := (dmaCopy v is s).ppu.buffer
          v := (dmaCopy v is s).ppu.v
          oam := (dmaCopy v is s).ppu.oam }
        apu := { s.apu with frameIrq := (dmaCopy v is s).apu.frameIrq }
        pad := { s.pad with
          shift0 := (dmaCopy v is s).pad.shift0
          shift1 := (dmaCopy v is s).pad.shift1 } } := by
  induction is generalizing s with
  | nil => rfl
  | cons i is ih =>
    rw [dmaCopy, ih]
    generalize dmaCopy v is _ = d
    rw [busRead_changes]

/-- Everything of the CPU that a bus write can change: the DMA's stall in `skip`, and the NMI request of a
PPUCTRL write (50 R250, 62 R363). -/
theorem busWrite_cpu (s : State) (a : Word) (v : Byte) :
    (busWrite s a v).cpu =
      { s.cpu with
        skip := (busWrite s a v).cpu.skip
        latch := { s.cpu.latch with nmi := (busWrite s a v).cpu.latch.nmi } } := by
  unfold busWrite
  dsimp only
  split
  · rfl
  split
  · unfold ppuRegWrite
    split
    · rfl
    · rfl
    · rfl
    · rfl
    · rfl
    · rfl
    · unfold writePpuData ppuWrite writeChr setIoLatch
      dsimp only
      split
      · split <;> rfl
      · split <;> rfl
    · rfl
  split
  · unfold oamDma
    rw [dmaCopy_changes]
  split
  · rfl
  split
  · rfl
  split
  · rfl
  split <;> rfl

@[simp] theorem busWrite_cfg (s : State) (a : Word) (v : Byte) : (busWrite s a v).cfg = s.cfg := by
  unfold busWrite
  dsimp only
  repeat' split
  · rfl
  · unfold ppuRegWrite writePpuData ppuWrite writeChr setIoLatch
    dsimp only
    repeat' split
    all_goals rfl
  · unfold oamDma
    rw [dmaCopy_changes]
  all_goals rfl

/-- A bus write never changes the cartridge image (61 R307, 64 R453). -/
@[simp] theorem busWrite_cart (s : State) (a : Word) (v : Byte) : (busWrite s a v).cart = s.cart := by
  unfold busWrite
  dsimp only
  repeat' split
  · rfl
  · unfold ppuRegWrite writePpuData ppuWrite writeChr setIoLatch
    dsimp only
    repeat' split
    all_goals rfl
  · unfold oamDma
    rw [dmaCopy_changes]
  all_goals rfl

@[simp] theorem busWrite_audio (s : State) (a : Word) (v : Byte) : (busWrite s a v).audio = s.audio := by
  unfold busWrite
  dsimp only
  repeat' split
  · rfl
  · unfold ppuRegWrite writePpuData ppuWrite writeChr setIoLatch
    dsimp only
    repeat' split
    all_goals rfl
  · unfold oamDma
    rw [dmaCopy_changes]
  all_goals rfl

/-! ## The bus sees the devices, not the CPU -/

theorem busRead_withCpu (s : State) (c : Cpu) (a : Word) :
    busRead { s with cpu := c } a = ((busRead s a).1, { (busRead s a).2 with cpu := c }) := by
  unfold busRead
  dsimp only
  split
  · rfl
  split
  · unfold ppuRegRead
    split <;> rfl
  split
  · rfl
  split
  · rfl
  split
  · rfl
  split
  · rfl
  split <;> rfl

theorem dmaCopy_withCpu (v : Byte) (is : List Nat) (s : State) (c : Cpu) :
    dmaCopy v is { s with cpu := c } = { dmaCopy v is s with cpu := c } := by
  induction is generalizing s with
  | nil => rfl
  | cons i is ih =>
    rw [dmaCopy, dmaCopy, busRead_withCpu]
    dsimp only
    exact ih
      { (busRead s (word v (BitVec.ofNat 8 i))).2 with
        ppu := { (busRead s (word v (BitVec.ofNat 8 i))).2.ppu with
          oam := (busRead s (word v (BitVec.ofNat 8 i))).2.ppu.oam.write
            (((busRead s (word v (BitVec.ofNat 8 i))).2.ppu.oamAddr.toNat + i) % 256)
            (busRead s (word v (BitVec.ofNat 8 i))).1 } }

/-- What a bus write does to the devices does not depend on the CPU. -/
theorem busWrite_devices (s : State) (c d : Cpu) (a : Word) (v : Byte) :
    { busWrite { s with cpu := c } a v with cpu := d } = { busWrite s a v with cpu := d } := by
  unfold busWrite
  dsimp only
  split
  · rfl
  split
  · unfold ppuRegWrite writeCtrl writePpuData ppuWrite writeChr setIoLatch
    dsimp only
    repeat' split
    all_goals rfl
  split
  · unfold oamDma
    rw [dmaCopy_withCpu]
  repeat' split
  all_goals rfl

/-- The NMI request after a bus write, from the request before it. -/
theorem busWrite_nmi (s : State) (c : Cpu) (a : Word) (v : Byte) (h : c.latch.nmi = s.cpu.latch.nmi) :
    (busWrite { s with cpu := c } a v).cpu.latch.nmi = (busWrite s a v).cpu.latch.nmi := by
  unfold busWrite
  dsimp only
  split
  · exact h
  split
  · unfold ppuRegWrite writeCtrl writePpuData ppuWrite writeChr setIoLatch
    dsimp only
    split
    · simp only [h]
    all_goals (repeat' split)
    all_goals exact h
  split
  · unfold oamDma
    rw [dmaCopy_withCpu, dmaCopy_changes]
    exact h
  repeat' split
  all_goals exact h

/-! ## Writes window by window (61 R301) -/

theorem busWrite_ram_window (s : State) {a : Word} (v : Byte) (h : a.toNat < 0x2000) :
    busWrite s a v = { s with ram := s.ram.write (a.toNat &&& 0x07FF) v } := by
  simp [busWrite, h]

theorem busWrite_ppu_window (s : State) {a : Word} (v : Byte) (h : 0x2000 ≤ a.toNat) (h' : a.toNat < 0x4000) :
    busWrite s a v = ppuRegWrite s (a.toNat &&& 0x0007) v := by
  unfold busWrite
  dsimp only
  rw [if_neg (by omega), if_pos h']

theorem busWrite_prgRam_window (s : State) {a : Word} (v : Byte) (h : 0x6000 ≤ a.toNat) (h' : a.toNat < 0x8000) :
    busWrite s a v = { s with prgRam := s.prgRam.write (a.toNat - 0x6000) v } := by
  unfold busWrite
  dsimp only
  rw [if_neg (by omega), if_neg (by omega), if_neg (by omega), if_neg (by omega), if_neg (by omega),
    if_neg (by omega), if_pos h']

theorem busWrite_rom_window (s : State) {a : Word} (v : Byte) (h : 0x8000 ≤ a.toNat) :
    busWrite s a v = writePrg s a v := by
  unfold busWrite
  dsimp only
  rw [if_neg (by omega), if_neg (by omega), if_neg (by omega), if_neg (by omega), if_neg (by omega),
    if_neg (by omega), if_neg (by omega)]

theorem and_7FF (n : Nat) : n &&& 0x07FF = n % 2048 := Nat.and_two_pow_sub_one_eq_mod n 11

/-- A write to work RAM is read back in all four mirrors, and changes no other byte of CPU memory (61 R302). -/
theorem byteAt_write_ram {s : State} (hram : s.ram.wf = true) {ea a : Word} (v : Byte) (hea : ea.toNat < 0x2000)
    (ha : isMemory a) : byteAt (busWrite s ea v) a =
      if a.toNat < 0x2000 ∧ a.toNat % 2048 = ea.toNat % 2048 then v else byteAt s a := by
  rw [busWrite_ram_window s v hea]
  by_cases h : a.toNat < 0x2000
  · unfold byteAt
    rw [busRead_ram_window _ h, busRead_ram_window _ h]
    simp only [and_7FF]
    rw [read_write (low := 0) hram]
    simp [h]
  · rw [if_neg (by omega)]
    rcases ha with ha | ha
    · omega
    unfold byteAt
    by_cases h' : a.toNat < 0x8000
    · rw [busRead_prgRam_window _ ha h', busRead_prgRam_window _ ha h']
    · rw [busRead_rom_window _ (by omega), busRead_rom_window _ (by omega)]
      rfl

end Sys2Proof.Machine
end

