-- ==== Sys2Proof/Laws/Decode.lean ====
section
/-! SUPPORT. What the decoder gives for each opcode byte: its length, format and opcode do not depend on the
operand bytes, and its instruction is well-formed. -/

namespace Sys2Proof

/-- Splits the opcode map into its rows and columns. -/
theorem decodeBytes_length (op b1 b2 : Byte) : (decodeBytes op b1 b2).length = opcodeLength op := by
  unfold opcodeLength decodeBytes
  split <;> simp only [decodeRow0, decodeRow1, decodeRow2, decodeRow3, decodeRow4, decodeRow5, decodeRow6,
    decodeRow7, decodeRow8, decodeRow9, decodeRowA, decodeRowB, decodeRowC, decodeRowD, decodeRowE,
    decodeRowF] <;> split <;> rfl

theorem decodeBytes_opcode_zero (op b1 b2 : Byte) :
    (decodeBytes op b1 b2).opcode = (decodeBytes op 0 0).opcode := by
  unfold decodeBytes
  split <;> simp only [decodeRow0, decodeRow1, decodeRow2, decodeRow3, decodeRow4, decodeRow5, decodeRow6,
    decodeRow7, decodeRow8, decodeRow9, decodeRowA, decodeRowB, decodeRowC, decodeRowD, decodeRowE,
    decodeRowF] <;> split <;> rfl

theorem decodeBytes_wellFormed_zero (op b1 b2 : Byte) :
    wellFormed (decodeBytes op b1 b2) = wellFormed (decodeBytes op 0 0) := by
  unfold decodeBytes
  split <;> simp only [decodeRow0, decodeRow1, decodeRow2, decodeRow3, decodeRow4, decodeRow5, decodeRow6,
    decodeRow7, decodeRow8, decodeRow9, decodeRowA, decodeRowB, decodeRowC, decodeRowD, decodeRowE,
    decodeRowF] <;> split <;> rfl

/-- A one-byte opcode's instruction does not depend on the bytes after it. -/
theorem decodeBytes_one (op b1 b2 c1 c2 : Byte) (h : opcodeLength op = 1) :
    decodeBytes op b1 b2 = decodeBytes op c1 c2 := by
  revert h
  unfold opcodeLength decodeBytes
  split <;> simp only [decodeRow0, decodeRow1, decodeRow2, decodeRow3, decodeRow4, decodeRow5, decodeRow6,
    decodeRow7, decodeRow8, decodeRow9, decodeRowA, decodeRowB, decodeRowC, decodeRowD, decodeRowE,
    decodeRowF] <;> split <;> intro h <;> first | rfl | exact absurd h (by decide)

/-- A two-byte opcode's instruction does not depend on the byte after the second. -/
theorem decodeBytes_two (op b1 b2 c2 : Byte) (h : opcodeLength op = 2) :
    decodeBytes op b1 b2 = decodeBytes op b1 c2 := by
  revert h
  unfold opcodeLength decodeBytes
  split <;> simp only [decodeRow0, decodeRow1, decodeRow2, decodeRow3, decodeRow4, decodeRow5, decodeRow6,
    decodeRow7, decodeRow8, decodeRow9, decodeRowA, decodeRowB, decodeRowC, decodeRowD, decodeRowE,
    decodeRowF] <;> split <;> intro h <;> first | rfl | exact absurd h (by decide)

/-- The decoder answers a well-formed instruction for every opcode byte (30 R118). -/
theorem decodeBytes_wellFormed (op b1 b2 : Byte) : wellFormed (decodeBytes op b1 b2) = true := by
  rw [decodeBytes_wellFormed_zero]
  revert op
  decide

/-- Its opcode byte is the one that was decoded (30 R118). -/
theorem decodeBytes_opcode (op b1 b2 : Byte) : (decodeBytes op b1 b2).opcode = some op := by
  rw [decodeBytes_opcode_zero]
  revert op
  decide

theorem opcodeLength_range (op : Byte) : 1 ≤ opcodeLength op ∧ opcodeLength op ≤ 3 := by
  revert op
  decide

end Sys2Proof
end

