-- ==== Sys2Proof/Laws/Flags.lean ====
section
/-! SUPPORT. The status byte bit by bit: what each flag update does to each bit. -/

namespace Sys2Proof.Machine

theorem bitOf_putBit {n : Nat} (v : BitVec n) (i j : Nat) (b : Bool) (hi : i < n) :
    bitOf (putBit v i b) j = if j = i then b else bitOf v j := by
  unfold bitOf putBit
  by_cases hj : j = i
  · subst hj
    cases b <;> simp [hi]
  · cases b
    · by_cases hjn : j < n
      · simp [hj, hjn]
      · simp [hj, BitVec.getLsbD_of_ge v j (by omega)]
    · simp [hj, Ne.symm hj]

@[simp] theorem bitOf_putC (p : Byte) (b : Bool) (j : Nat) :
    bitOf (putC p b) j = if j = 0 then b else bitOf p j := bitOf_putBit p 0 j b (by decide)
@[simp] theorem bitOf_putZ (p : Byte) (b : Bool) (j : Nat) :
    bitOf (putZ p b) j = if j = 1 then b else bitOf p j := bitOf_putBit p 1 j b (by decide)
@[simp] theorem bitOf_putI (p : Byte) (b : Bool) (j : Nat) :
    bitOf (putI p b) j = if j = 2 then b else bitOf p j := bitOf_putBit p 2 j b (by decide)
@[simp] theorem bitOf_putD (p : Byte) (b : Bool) (j : Nat) :
    bitOf (putD p b) j = if j = 3 then b else bitOf p j := bitOf_putBit p 3 j b (by decide)
@[simp] theorem bitOf_putV (p : Byte) (b : Bool) (j : Nat) :
    bitOf (putV p b) j = if j = 6 then b else bitOf p j := bitOf_putBit p 6 j b (by decide)
@[simp] theorem bitOf_putN (p : Byte) (b : Bool) (j : Nat) :
    bitOf (putN p b) j = if j = 7 then b else bitOf p j := bitOf_putBit p 7 j b (by decide)

@[simp] theorem bitOf_putZN (p v : Byte) (j : Nat) :
    bitOf (putZN p v) j = if j = 7 then bitOf v 7 else if j = 1 then v == 0 else bitOf p j := by
  simp [putZN]

/-- A byte is settled by its eight bits. -/
theorem byte_ext {p q : Byte} (h : ∀ j, j < 8 → bitOf p j = bitOf q j) : p = q :=
  BitVec.eq_of_getLsbD_eq fun j hj => h j hj

theorem bitOf_loadedStatus (b : Byte) (j : Nat) :
    bitOf (loadedStatus b) j = if j = 5 then true else if j = 4 then false else bitOf b j := by
  by_cases hj : j < 8
  · have h : ∀ b : Byte, ∀ j : Fin 8,
        bitOf (loadedStatus b) j = if j.val = 5 then true else if j.val = 4 then false else bitOf b j := by
      decide
    exact h b ⟨j, hj⟩
  · unfold bitOf
    rw [BitVec.getLsbD_of_ge _ _ (by omega), BitVec.getLsbD_of_ge b _ (by omega)]
    simp; omega

/-! ## The fixed bits of the status (10 R26) -/

theorem statusOk_iff (p : Byte) : statusOk p = true ↔ bitOf p 5 = true ∧ bitOf p 4 = false := by
  simp [statusOk]

@[simp] theorem statusOk_putC (p : Byte) (b : Bool) : statusOk (putC p b) = statusOk p := by simp [statusOk]
@[simp] theorem statusOk_putI (p : Byte) (b : Bool) : statusOk (putI p b) = statusOk p := by simp [statusOk]
@[simp] theorem statusOk_putD (p : Byte) (b : Bool) : statusOk (putD p b) = statusOk p := by simp [statusOk]
@[simp] theorem statusOk_putV (p : Byte) (b : Bool) : statusOk (putV p b) = statusOk p := by simp [statusOk]
@[simp] theorem statusOk_putZN (p v : Byte) : statusOk (putZN p v) = statusOk p := by simp [statusOk]
@[simp] theorem statusOk_addStatus (p a m : Byte) : statusOk (addStatus p a m) = statusOk p := by
  simp [addStatus]
@[simp] theorem statusOk_compareStatus (p r m : Byte) : statusOk (compareStatus p r m) = statusOk p := by
  simp [compareStatus]
@[simp] theorem statusOk_bitStatus (p a m : Byte) : statusOk (bitStatus p a m) = statusOk p := by
  simp [bitStatus, statusOk]
@[simp] theorem statusOk_loadedStatus (b : Byte) : statusOk (loadedStatus b) = true := by
  simp [statusOk, bitOf_loadedStatus]

/-! ## Which bits an update keeps -/

theorem flagsKept_iff (m p q : Byte) :
    flagsKept m p q ↔ ∀ j, j < 8 → bitOf m j = false → bitOf q j = bitOf p j := by
  constructor
  · intro h j hj hm
    have hb := congrArg (fun b : Byte => bitOf b j) h
    simpa only [bitOf, BitVec.getLsbD_and, BitVec.getLsbD_not, hj, decide_true, Bool.true_and,
      show m.getLsbD j = false from hm, Bool.not_false, Bool.and_true] using hb
  · intro h
    refine byte_ext fun j hj => ?_
    have hb := h j hj
    simp only [bitOf, BitVec.getLsbD_and, BitVec.getLsbD_not, hj, decide_true, Bool.true_and] at hb ⊢
    cases hm : m.getLsbD j
    · simpa using hb hm
    · simp

/-- `SetZN(v)` sets Z and N by `v` and keeps the rest. -/
theorem setsZN_putZN (p v : Byte) : setsZN p v (putZN p v) := by
  refine ⟨by simp [flagZ, beq_eq_decide], ?_, ?_⟩
  · have h : ∀ v : Byte, bitOf v 7 = decide (0x80 ≤ v) := by decide
    rw [← h v]
    simp [flagN]
  · rw [flagsKept_iff]
    intro j _ hm
    have h7 : j ≠ 7 := by rintro rfl; exact absurd hm (by decide)
    have h1 : j ≠ 1 := by rintro rfl; exact absurd hm (by decide)
    simp [h7, h1]

/-! ## Numbers -/

theorem bit7_eq (b : Byte) : bitOf b 7 = decide (128 ≤ b.toNat) := by
  have h : ∀ b : Byte, bitOf b 7 = decide (128 ≤ b.toNat) := by decide
  exact h b

theorem bit0_eq (b : Byte) : bitOf b 0 = decide (b.toNat % 2 = 1) := by
  have h : ∀ b : Byte, bitOf b 0 = decide (b.toNat % 2 = 1) := by decide
  exact h b

theorem le_0x80_iff (b : Byte) : (0x80 : Byte) ≤ b ↔ 128 ≤ b.toNat := Iff.rfl

theorem signed_eq (b : Byte) : signed b = if 128 ≤ b.toNat then (b.toNat : Int) - 256 else b.toNat := by
  have h : ∀ b : Byte, signed b = if 128 ≤ b.toNat then (b.toNat : Int) - 256 else b.toNat := by
    unfold signed; decide
  exact h b

/-- A carry bit as a number. -/
def carryNat (c : Bool) : Nat := if c then 1 else 0

theorem addSum_toNat (a m : Byte) (c : Bool) : (addSum a m c).toNat = a.toNat + m.toNat + carryNat c := by
  have ha := a.isLt
  have hm := m.isLt
  unfold addSum carryNat
  have h0 : (0 : BitVec 9).toNat = 0 := rfl
  have h1 : (1 : BitVec 9).toNat = 1 := rfl
  cases c <;> simp only [Bool.false_eq_true, if_true, if_false, BitVec.toNat_add, BitVec.toNat_setWidth,
    h0, h1] <;> omega

/-- The result of an addition is the sum modulo 256 (41 R159). -/
theorem addResult_toNat (a m : Byte) (c : Bool) :
    (addResult a m c).toNat = (a.toNat + m.toNat + carryNat c) % 256 := by
  unfold addResult
  rw [BitVec.extractLsb'_toNat, addSum_toNat]
  simp

/-- Its carry says that the sum passed 255 (41 R159). -/
theorem addCarry_eq (a m : Byte) (c : Bool) :
    addCarry a m c = decide (256 ≤ a.toNat + m.toNat + carryNat c) := by
  have h : ∀ v : BitVec 9, bitOf v 8 = decide (256 ≤ v.toNat) := by decide
  unfold addCarry
  rw [h, addSum_toNat]

/-- Its overflow says that the signed sum is outside -128 to 127 (41 R159, R161). -/
theorem addOverflow_eq (a m : Byte) (c : Bool) :
    addOverflow a m c =
      decide (signed a + signed m + carryNat c < -128 ∨ 127 < signed a + signed m + carryNat c) := by
  have hbit : addOverflow a m c =
      (!(bitOf a 7 ^^ bitOf m 7) && (bitOf a 7 ^^ bitOf (addResult a m c) 7)) := by
    simp [addOverflow, bitOf]
  have ha := a.isLt
  have hm := m.isLt
  have hc : carryNat c ≤ 1 := by cases c <;> decide
  rw [hbit, bit7_eq, bit7_eq, bit7_eq, addResult_toNat, signed_eq, signed_eq, Bool.eq_iff_iff]
  by_cases h1 : 128 ≤ a.toNat <;> by_cases h2 : 128 ≤ m.toNat <;> simp [h1, h2] <;> omega

/-- The four flags of an addition, and that the other bits keep (41 R159). -/
theorem addStatus_spec (p a m : Byte) :
    flagC (addStatus p a m) = addCarry a m (flagC p) ∧
    flagV (addStatus p a m) = addOverflow a m (flagC p) ∧
    flagZ (addStatus p a m) = decide (addResult a m (flagC p) = 0) ∧
    flagN (addStatus p a m) = decide (0x80 ≤ addResult a m (flagC p)) ∧
    flagsKept 0xC3 p (addStatus p a m) := by
  refine ⟨by simp [addStatus, flagC], by simp [addStatus, flagV, flagC],
    by simp [addStatus, flagZ, beq_eq_decide], ?_, ?_⟩
  · simp only [addStatus, flagN, bitOf_putZN]
    rw [if_pos trivial, bit7_eq]
    rfl
  · rw [flagsKept_iff]
    intro j _ hm
    have h0 : j ≠ 0 := by rintro rfl; exact absurd hm (by decide)
    have h1 : j ≠ 1 := by rintro rfl; exact absurd hm (by decide)
    have h6 : j ≠ 6 := by rintro rfl; exact absurd hm (by decide)
    have h7 : j ≠ 7 := by rintro rfl; exact absurd hm (by decide)
    simp [addStatus, h0, h1, h6, h7]

/-- The three flags of a compare, and that the other bits keep (41 R165). -/
theorem compareStatus_spec (p r m : Byte) :
    flagC (compareStatus p r m) = decide (m.toNat ≤ r.toNat) ∧
    flagZ (compareStatus p r m) = decide (r = m) ∧
    flagN (compareStatus p r m) = decide (128 ≤ (256 + r.toNat - m.toNat) % 256) ∧
    flagsKept 0x83 p (compareStatus p r m) := by
  have hr := r.isLt
  have hm := m.isLt
  refine ⟨?_, ?_, ?_, ?_⟩
  · simp [compareStatus, flagC, BitVec.le_def]
  · simp only [compareStatus, flagZ, bitOf_putZN, beq_eq_decide]
    rw [if_neg (by decide), if_pos trivial, decide_eq_decide]
    constructor
    · intro h
      refine BitVec.eq_of_toNat_eq ?_
      have h' := congrArg BitVec.toNat h
      rw [BitVec.toNat_sub, show (0 : Byte).toNat = 0 from rfl] at h'
      omega
    · rintro rfl
      simp
  · simp only [compareStatus, flagN, bitOf_putZN]
    rw [if_pos trivial, bit7_eq, BitVec.toNat_sub, decide_eq_decide]
    omega
  · rw [flagsKept_iff]
    intro j _ hm
    have h0 : j ≠ 0 := by rintro rfl; exact absurd hm (by decide)
    have h1 : j ≠ 1 := by rintro rfl; exact absurd hm (by decide)
    have h7 : j ≠ 7 := by rintro rfl; exact absurd hm (by decide)
    simp [compareStatus, h0, h1, h7]

theorem xor_FF_toNat (m : Byte) : (m ^^^ 0xFF).toNat = 255 - m.toNat := by
  have h : ∀ m : Byte, (m ^^^ 0xFF).toNat = 255 - m.toNat := by decide
  exact h m

end Sys2Proof.Machine
end

