-- ==== Sys2Proof/Laws/State.lean ====
section
/-! SUPPORT. One lemma per field per register update, so that no proof unfolds a record update. The CPU's
fields after an update are the projections of the record in the `_cpu` lemma. -/

namespace Sys2Proof.Machine

@[simp] theorem setA_cfg (s : State) (v : Byte) : (s.setA v).cfg = s.cfg := rfl
@[simp] theorem setA_cart (s : State) (v : Byte) : (s.setA v).cart = s.cart := rfl
@[simp] theorem setA_cpu (s : State) (v : Byte) : (s.setA v).cpu = { s.cpu with a := v } := rfl
@[simp] theorem setA_ram (s : State) (v : Byte) : (s.setA v).ram = s.ram := rfl
@[simp] theorem setA_prgRam (s : State) (v : Byte) : (s.setA v).prgRam = s.prgRam := rfl
@[simp] theorem setA_chrRam (s : State) (v : Byte) : (s.setA v).chrRam = s.chrRam := rfl
@[simp] theorem setA_mapper (s : State) (v : Byte) : (s.setA v).mapper = s.mapper := rfl
@[simp] theorem setA_pad (s : State) (v : Byte) : (s.setA v).pad = s.pad := rfl
@[simp] theorem setA_ppu (s : State) (v : Byte) : (s.setA v).ppu = s.ppu := rfl
@[simp] theorem setA_apu (s : State) (v : Byte) : (s.setA v).apu = s.apu := rfl
@[simp] theorem setA_audio (s : State) (v : Byte) : (s.setA v).audio = s.audio := rfl

@[simp] theorem setX_cfg (s : State) (v : Byte) : (s.setX v).cfg = s.cfg := rfl
@[simp] theorem setX_cart (s : State) (v : Byte) : (s.setX v).cart = s.cart := rfl
@[simp] theorem setX_cpu (s : State) (v : Byte) : (s.setX v).cpu = { s.cpu with x := v } := rfl
@[simp] theorem setX_ram (s : State) (v : Byte) : (s.setX v).ram = s.ram := rfl
@[simp] theorem setX_prgRam (s : State) (v : Byte) : (s.setX v).prgRam = s.prgRam := rfl
@[simp] theorem setX_chrRam (s : State) (v : Byte) : (s.setX v).chrRam = s.chrRam := rfl
@[simp] theorem setX_mapper (s : State) (v : Byte) : (s.setX v).mapper = s.mapper := rfl
@[simp] theorem setX_pad (s : State) (v : Byte) : (s.setX v).pad = s.pad := rfl
@[simp] theorem setX_ppu (s : State) (v : Byte) : (s.setX v).ppu = s.ppu := rfl
@[simp] theorem setX_apu (s : State) (v : Byte) : (s.setX v).apu = s.apu := rfl
@[simp] theorem setX_audio (s : State) (v : Byte) : (s.setX v).audio = s.audio := rfl

@[simp] theorem setY_cfg (s : State) (v : Byte) : (s.setY v).cfg = s.cfg := rfl
@[simp] theorem setY_cart (s : State) (v : Byte) : (s.setY v).cart = s.cart := rfl
@[simp] theorem setY_cpu (s : State) (v : Byte) : (s.setY v).cpu = { s.cpu with y := v } := rfl
@[simp] theorem setY_ram (s : State) (v : Byte) : (s.setY v).ram = s.ram := rfl
@[simp] theorem setY_prgRam (s : State) (v : Byte) : (s.setY v).prgRam = s.prgRam := rfl
@[simp] theorem setY_chrRam (s : State) (v : Byte) : (s.setY v).chrRam = s.chrRam := rfl
@[simp] theorem setY_mapper (s : State) (v : Byte) : (s.setY v).mapper = s.mapper := rfl
@[simp] theorem setY_pad (s : State) (v : Byte) : (s.setY v).pad = s.pad := rfl
@[simp] theorem setY_ppu (s : State) (v : Byte) : (s.setY v).ppu = s.ppu := rfl
@[simp] theorem setY_apu (s : State) (v : Byte) : (s.setY v).apu = s.apu := rfl
@[simp] theorem setY_audio (s : State) (v : Byte) : (s.setY v).audio = s.audio := rfl

@[simp] theorem setSp_cfg (s : State) (v : Byte) : (s.setSp v).cfg = s.cfg := rfl
@[simp] theorem setSp_cart (s : State) (v : Byte) : (s.setSp v).cart = s.cart := rfl
@[simp] theorem setSp_cpu (s : State) (v : Byte) : (s.setSp v).cpu = { s.cpu with sp := v } := rfl
@[simp] theorem setSp_ram (s : State) (v : Byte) : (s.setSp v).ram = s.ram := rfl
@[simp] theorem setSp_prgRam (s : State) (v : Byte) : (s.setSp v).prgRam = s.prgRam := rfl
@[simp] theorem setSp_chrRam (s : State) (v : Byte) : (s.setSp v).chrRam = s.chrRam := rfl
@[simp] theorem setSp_mapper (s : State) (v : Byte) : (s.setSp v).mapper = s.mapper := rfl
@[simp] theorem setSp_pad (s : State) (v : Byte) : (s.setSp v).pad = s.pad := rfl
@[simp] theorem setSp_ppu (s : State) (v : Byte) : (s.setSp v).ppu = s.ppu := rfl
@[simp] theorem setSp_apu (s : State) (v : Byte) : (s.setSp v).apu = s.apu := rfl
@[simp] theorem setSp_audio (s : State) (v : Byte) : (s.setSp v).audio = s.audio := rfl

@[simp] theorem setP_cfg (s : State) (v : Byte) : (s.setP v).cfg = s.cfg := rfl
@[simp] theorem setP_cart (s : State) (v : Byte) : (s.setP v).cart = s.cart := rfl
@[simp] theorem setP_cpu (s : State) (v : Byte) : (s.setP v).cpu = { s.cpu with p := v } := rfl
@[simp] theorem setP_ram (s : State) (v : Byte) : (s.setP v).ram = s.ram := rfl
@[simp] theorem setP_prgRam (s : State) (v : Byte) : (s.setP v).prgRam = s.prgRam := rfl
@[simp] theorem setP_chrRam (s : State) (v : Byte) : (s.setP v).chrRam = s.chrRam := rfl
@[simp] theorem setP_mapper (s : State) (v : Byte) : (s.setP v).mapper = s.mapper := rfl
@[simp] theorem setP_pad (s : State) (v : Byte) : (s.setP v).pad = s.pad := rfl
@[simp] theorem setP_ppu (s : State) (v : Byte) : (s.setP v).ppu = s.ppu := rfl
@[simp] theorem setP_apu (s : State) (v : Byte) : (s.setP v).apu = s.apu := rfl
@[simp] theorem setP_audio (s : State) (v : Byte) : (s.setP v).audio = s.audio := rfl

@[simp] theorem setPc_cfg (s : State) (v : Word) : (s.setPc v).cfg = s.cfg := rfl
@[simp] theorem setPc_cart (s : State) (v : Word) : (s.setPc v).cart = s.cart := rfl
@[simp] theorem setPc_cpu (s : State) (v : Word) : (s.setPc v).cpu = { s.cpu with pc := v } := rfl
@[simp] theorem setPc_ram (s : State) (v : Word) : (s.setPc v).ram = s.ram := rfl
@[simp] theorem setPc_prgRam (s : State) (v : Word) : (s.setPc v).prgRam = s.prgRam := rfl
@[simp] theorem setPc_chrRam (s : State) (v : Word) : (s.setPc v).chrRam = s.chrRam := rfl
@[simp] theorem setPc_mapper (s : State) (v : Word) : (s.setPc v).mapper = s.mapper := rfl
@[simp] theorem setPc_pad (s : State) (v : Word) : (s.setPc v).pad = s.pad := rfl
@[simp] theorem setPc_ppu (s : State) (v : Word) : (s.setPc v).ppu = s.ppu := rfl
@[simp] theorem setPc_apu (s : State) (v : Word) : (s.setPc v).apu = s.apu := rfl
@[simp] theorem setPc_audio (s : State) (v : Word) : (s.setPc v).audio = s.audio := rfl

@[simp] theorem setPageCross_cfg (s : State) (v : Bool) : (s.setPageCross v).cfg = s.cfg := rfl
@[simp] theorem setPageCross_cart (s : State) (v : Bool) : (s.setPageCross v).cart = s.cart := rfl
@[simp] theorem setPageCross_cpu (s : State) (v : Bool) : (s.setPageCross v).cpu = { s.cpu with pageCross := v } := rfl
@[simp] theorem setPageCross_ram (s : State) (v : Bool) : (s.setPageCross v).ram = s.ram := rfl
@[simp] theorem setPageCross_prgRam (s : State) (v : Bool) : (s.setPageCross v).prgRam = s.prgRam := rfl
@[simp] theorem setPageCross_chrRam (s : State) (v : Bool) : (s.setPageCross v).chrRam = s.chrRam := rfl
@[simp] theorem setPageCross_mapper (s : State) (v : Bool) : (s.setPageCross v).mapper = s.mapper := rfl
@[simp] theorem setPageCross_pad (s : State) (v : Bool) : (s.setPageCross v).pad = s.pad := rfl
@[simp] theorem setPageCross_ppu (s : State) (v : Bool) : (s.setPageCross v).ppu = s.ppu := rfl
@[simp] theorem setPageCross_apu (s : State) (v : Bool) : (s.setPageCross v).apu = s.apu := rfl
@[simp] theorem setPageCross_audio (s : State) (v : Bool) : (s.setPageCross v).audio = s.audio := rfl

@[simp] theorem charge_cfg (s : State) (n : Nat) : (s.charge n).cfg = s.cfg := rfl
@[simp] theorem charge_cart (s : State) (n : Nat) : (s.charge n).cart = s.cart := rfl
@[simp] theorem charge_cpu (s : State) (n : Nat) : (s.charge n).cpu = { s.cpu with skip := s.cpu.skip + BitVec.ofNat 32 n } := rfl
@[simp] theorem charge_ram (s : State) (n : Nat) : (s.charge n).ram = s.ram := rfl
@[simp] theorem charge_prgRam (s : State) (n : Nat) : (s.charge n).prgRam = s.prgRam := rfl
@[simp] theorem charge_chrRam (s : State) (n : Nat) : (s.charge n).chrRam = s.chrRam := rfl
@[simp] theorem charge_mapper (s : State) (n : Nat) : (s.charge n).mapper = s.mapper := rfl
@[simp] theorem charge_pad (s : State) (n : Nat) : (s.charge n).pad = s.pad := rfl
@[simp] theorem charge_ppu (s : State) (n : Nat) : (s.charge n).ppu = s.ppu := rfl
@[simp] theorem charge_apu (s : State) (n : Nat) : (s.charge n).apu = s.apu := rfl
@[simp] theorem charge_audio (s : State) (n : Nat) : (s.charge n).audio = s.audio := rfl

@[simp] theorem setZN_cfg (s : State) (v : Byte) : (s.setZN v).cfg = s.cfg := rfl
@[simp] theorem setZN_cart (s : State) (v : Byte) : (s.setZN v).cart = s.cart := rfl
@[simp] theorem setZN_cpu (s : State) (v : Byte) : (s.setZN v).cpu = { s.cpu with p := putZN s.cpu.p v } := rfl
@[simp] theorem setZN_ram (s : State) (v : Byte) : (s.setZN v).ram = s.ram := rfl
@[simp] theorem setZN_prgRam (s : State) (v : Byte) : (s.setZN v).prgRam = s.prgRam := rfl
@[simp] theorem setZN_chrRam (s : State) (v : Byte) : (s.setZN v).chrRam = s.chrRam := rfl
@[simp] theorem setZN_mapper (s : State) (v : Byte) : (s.setZN v).mapper = s.mapper := rfl
@[simp] theorem setZN_pad (s : State) (v : Byte) : (s.setZN v).pad = s.pad := rfl
@[simp] theorem setZN_ppu (s : State) (v : Byte) : (s.setZN v).ppu = s.ppu := rfl
@[simp] theorem setZN_apu (s : State) (v : Byte) : (s.setZN v).apu = s.apu := rfl
@[simp] theorem setZN_audio (s : State) (v : Byte) : (s.setZN v).audio = s.audio := rfl

end Sys2Proof.Machine
end

