-- ==== Sys2Proof/Laws/Operands.lean ====
section
/-! SUPPORT. What the stack operations, the effective addresses and the operand reads can do. -/

namespace Sys2Proof.Machine

/-! ## Stack (10 R24) -/

theorem stackAddr_toNat (sp : Byte) : (stackAddr sp).toNat = 256 + sp.toNat := by
  unfold stackAddr word
  rw [BitVec.toNat_append, Nat.shiftLeft_eq, show ((0x01 : Byte).toNat * 2 ^ 8) = 2 ^ 8 * 1 from rfl,
    ← Nat.two_pow_add_eq_or_of_lt sp.isLt]

theorem stackAddr_lt (sp : Byte) : (stackAddr sp).toNat < 0x2000 := by
  rw [stackAddr_toNat]; have := sp.isLt; omega

/-- A push stores one byte in the stack page and decrements `SP`; nothing else changes. -/
theorem push_eq (s : State) (v : Byte) :
    push s v =
      { s with
        ram := s.ram.write (256 + s.cpu.sp.toNat) v
        cpu := { s.cpu with sp := s.cpu.sp - 1 } } := by
  unfold push
  rw [busWrite_ram_window s v (stackAddr_lt _)]
  have h : (stackAddr s.cpu.sp).toNat &&& 0x07FF = 256 + s.cpu.sp.toNat := by
    rw [and_7FF, stackAddr_toNat]
    have := s.cpu.sp.isLt
    omega
  rw [h]
  rfl

/-- A pull increments `SP` and reads the stack page; nothing else changes. -/
theorem pull_eq (s : State) :
    pull s = (s.ram.read (256 + (s.cpu.sp + 1).toNat), { s with cpu := { s.cpu with sp := s.cpu.sp + 1 } }) := by
  unfold pull
  dsimp only
  rw [busRead_ram_window _ (stackAddr_lt _)]
  have h : (stackAddr (s.cpu.sp + 1)).toNat &&& 0x07FF = 256 + (s.cpu.sp + 1).toNat := by
    rw [and_7FF, stackAddr_toNat]
    have := (s.cpu.sp + 1).isLt
    omega
  show (s.ram.read ((stackAddr (s.cpu.sp + 1)).toNat &&& 0x07FF), s.setSp (s.cpu.sp + 1)) = _
  rw [h]
  rfl

/-! ## Pointers -/

theorem zext16_toNat (b : Byte) : (zext16 b).toNat = b.toNat := by
  unfold zext16
  rw [BitVec.toNat_setWidth]
  have := b.isLt
  omega

theorem zext16_lt (b : Byte) : (zext16 b).toNat < 0x2000 := by
  rw [zext16_toNat]; have := b.isLt; omega

/-- A pair read from memory changes nothing. -/
theorem readPair_isMemory (s : State) {l h : Word} (hl : isMemory l) (hh : isMemory h) :
    readPair s l h = (word (byteAt s h) (byteAt s l), s) := by
  unfold readPair
  rw [busRead_isMemory s hl]
  simp only
  rw [busRead_isMemory s hh]

/-- A pointer in the zero page (30 R112, R113). -/
theorem readPair_zeroPage (s : State) (l h : Byte) :
    readPair s (zext16 l) (zext16 h) = (word (byteAt s (zext16 h)) (byteAt s (zext16 l)), s) :=
  readPair_isMemory s (.inl (zext16_lt l)) (.inl (zext16_lt h))

/-- A pair read leaves the CPU and every byte of memory. -/
@[simp] theorem readPair_cpu (s : State) (l h : Word) : (readPair s l h).2.cpu = s.cpu := by
  simp [readPair]

/-! ## Effective addresses (30 R106 to R113) -/

/-- Computing an effective address changes `page_cross` alone: its pointer reads are reads of work RAM. -/
theorem effAddr_state (m : AddrMode) (s : State) :
    (effAddr m s).2 = s.setPageCross (effAddr m s).2.cpu.pageCross := by
  cases m <;> simp only [effAddr, indexed, readPair_zeroPage] <;> rfl

theorem effAddr_cpu (m : AddrMode) (s : State) :
    (effAddr m s).2.cpu = { s.cpu with pageCross := (effAddr m s).2.cpu.pageCross } := by
  conv => lhs; rw [effAddr_state]
  rfl

/-! ## Operand reads -/

/-- The CPU after an operand read: `page_cross` alone may have changed. -/
theorem readOperand_cpu (o : ReadOp) (s : State) :
    (readOperand o s).2.cpu = { s.cpu with pageCross := (readOperand o s).2.cpu.pageCross } := by
  cases o with
  | imm b => rfl
  | mem m =>
    simp only [readOperand, readMem, busRead_cpu]
    conv => lhs; rw [effAddr_state]
    rfl

/-- An operand read leaves every byte of memory. -/
theorem sameMemory_readOperand (o : ReadOp) (s : State) : SameMemory s (readOperand o s).2 := by
  cases o with
  | imm b => exact sameMemory_of_eq rfl rfl rfl rfl rfl rfl rfl rfl
  | mem m =>
    simp only [readOperand, readMem]
    apply sameMemory_of_eq <;> simp only [busRead_ram, busRead_prgRam, busRead_cart, busRead_mapper,
      busRead_chrRam, busRead_vram, busRead_pal, busRead_oam] <;> rw [effAddr_state] <;> rfl

/-- An operand in memory is the byte there, and reading it changes `page_cross` alone. -/
theorem readOperand_isMemory (m : AddrMode) (s : State) (h : isMemory (effAddr m s).1) :
    readOperand (.mem m) s =
      (byteAt s (effAddr m s).1, s.setPageCross (effAddr m s).2.cpu.pageCross) := by
  simp only [readOperand, readMem]
  rw [busRead_isMemory _ h, effAddr_state]
  have hb : byteAt (s.setPageCross (effAddr m s).2.cpu.pageCross) (effAddr m s).1 =
      byteAt s (effAddr m s).1 := byteAt_congr (by simp) (by simp) (by simp) (by simp) h
  rw [hb]
  rfl

end Sys2Proof.Machine
end

