-- ==== Sys2Proof/Laws/HostCalls.lean ====
section
/-! SUPPORT. What `Save`, `Load`, `Reset()` and the image parser answer, said once (65 R501, R505, 70 R520,
61 R321). -/

namespace Sys2Proof.Machine

theorem leBytes_length (n v : Nat) : (leBytes n v).length = n := by
  induction n generalizing v with
  | zero => rfl
  | succ n ih => simp [leBytes, ih]

theorem leNat_leBytes (n v : Nat) : leNat (leBytes n v) = v % 256 ^ n := by
  induction n generalizing v with
  | zero => simp [leBytes, leNat, Nat.mod_one]
  | succ n ih =>
    simp only [leBytes, leNat, ih, BitVec.toNat_ofNat]
    exact (by rw [pow_succ']; exact (Nat.mod_mul).symm : v % 256 + 256 * (v / 256 % 256 ^ n) = v % 256 ^ (n + 1))

theorem saveHeader_length (cfg : Config) : (saveHeader cfg).length = 8 := by
  simp [saveHeader, leBytes_length]

/-- The fields of a record are cut back where they were joined. -/
theorem cutFields_flatten (fields : List (List Byte)) :
    cutFields (fields.map List.length) fields.flatten = fields := by
  induction fields with
  | nil => rfl
  | cons f fs ih => simp [cutFields, ih]

/-- A machine accepts its own save file (65 R505). -/
theorem saveAccepted_save (s : State) : saveAccepted s (save s) = true := by
  have h := saveHeader_length s.cfg
  simp [saveAccepted, save, h, List.take_append_of_le_length (Nat.le_of_eq h.symm), List.take_of_length_le,
    List.length_flatten]

/-- What a load answers: the file's fields applied, or the state unchanged (65 R505). -/
theorem load_eq (s : State) (file : List Byte) :
    load s file =
      if saveAccepted s file = true then
        (true, applySave s (cutFields ((saveFields s).map List.length) (file.drop 8)))
      else (false, s) := by
  unfold load
  split <;> rfl

/-- An accepted image: the checks it passed, the cartridge and the mapper (61 R321). -/
theorem parseImage_ok {file : List Byte} {c : Cartridge} {m : Mapper} (h : parseImage file = .ok (c, m)) :
    file.take 4 = [0x4E, 0x45, 0x53, 0x1A] ∧ (fileByte file 7).extractLsb' 2 2 ≠ 2 ∧
    imagePrgStart file + imagePrgSize file + imageChrSize file ≤ file.length ∧ imagePrgSize file ≠ 0 ∧
    Mapper.ofNumber (imageMapper file) = some m ∧ c = imageCartridge file := by
  unfold parseImage at h
  split at h
  · cases h
  split at h
  · cases h
  split at h
  · cases h
  split at h
  · cases h
  split at h
  · cases h
  rename_i h1 h2 h3 h4 _ m' h5
  cases h
  exact ⟨not_not.mp h1, h2, by omega, h4, h5, rfl⟩

/-- Everything `Reset()` does: each unit's reset, and the vector's two bytes, which no read there changes (70 R520). -/
theorem hostReset_eq (s : State) :
    hostReset s =
      { s with
        cpu := Cpu.initial s.cfg (word (byteAt (hostReset s) 0xFFFD) (byteAt (hostReset s) 0xFFFC))
        mapper := s.mapper.afterReset s.cart
        ppu := { s.ppu.afterReset with mirroring := s.mapper.resetMirroring.getD s.ppu.mirroring }
        apu := Apu.initial
        pad := { s.pad with strobe := false, shift0 := 0, shift1 := 0 } } := by
  conv => lhs; unfold hostReset
  unfold hostReset resetCpu
  rw [show ∀ u, read16 u 0xFFFC = (word (byteAt u 0xFFFD) (byteAt u 0xFFFC), u) from
    fun u => readPair_isMemory u (.inr (by decide)) (.inr (by decide))]
  rfl

/-- The model's reset state is power-on with the empty cartridge on mapper 0 (70 R521, log entry 3). -/
theorem reset_eq_powerOn : State.reset = powerOn Config.standard Cartridge.empty .nrom := rfl

/-- The memories of the reset state are in canonical form. -/
theorem reset_memory_wf :
    State.reset.ram.wf = true ∧ State.reset.prgRam.wf = true ∧ State.reset.chrRam.wf = true ∧
    State.reset.ppu.vram.wf = true ∧ State.reset.ppu.pal.wf = true ∧ State.reset.ppu.oam.wf = true := by decide

end Sys2Proof.Machine
end

