-- ==== Sys2Proof/Laws/Stores.lean ====
section
/-! SUPPORT. What a store does to the machine's memories, and the shape of the store and the
read-modify-write instructions. -/

namespace Sys2Proof.Machine

/-! ## The fields a bus write leaves -/

theorem busWrite_ram_other (s : State) {a : Word} (v : Byte) (h : 0x2000 ≤ a.toNat) :
    (busWrite s a v).ram = s.ram := by
  unfold busWrite
  dsimp only
  rw [if_neg (by omega)]
  repeat' split
  · unfold ppuRegWrite writePpuData ppuWrite writeChr setIoLatch
    dsimp only
    repeat' split
    all_goals rfl
  · unfold oamDma
    rw [dmaCopy_changes]
  all_goals rfl

theorem busWrite_prgRam_other (s : State) {a : Word} (v : Byte) (h : ¬ (0x6000 ≤ a.toNat ∧ a.toNat < 0x8000)) :
    (busWrite s a v).prgRam = s.prgRam := by
  unfold busWrite
  dsimp only
  split
  · rfl
  split
  · unfold ppuRegWrite writePpuData ppuWrite writeChr setIoLatch
    dsimp only
    repeat' split
    all_goals rfl
  split
  · unfold oamDma
    rw [dmaCopy_changes]
  split
  · rfl
  split
  · rfl
  split
  · rfl
  rw [if_neg (by omega)]
  rfl

theorem busWrite_mapper_other (s : State) {a : Word} (v : Byte) (h : a.toNat < 0x8000) :
    (busWrite s a v).mapper = s.mapper := by
  unfold busWrite
  dsimp only
  repeat' split
  · rfl
  · unfold ppuRegWrite writePpuData ppuWrite writeChr setIoLatch
    dsimp only
    repeat' split
    all_goals rfl
  · unfold oamDma
    rw [dmaCopy_changes]
  all_goals rfl

theorem and_7 (n : Nat) : n &&& 0x0007 = n % 8 := Nat.and_two_pow_sub_one_eq_mod n 3

/-- A register write other than PPUDATA leaves the memories behind the picture unit's own address space. -/
theorem ppuRegWrite_space (s : State) {r : Nat} (d : Byte) (h : r ≠ 7) :
    (ppuRegWrite s r d).chrRam = s.chrRam ∧ (ppuRegWrite s r d).ppu.vram = s.ppu.vram ∧
      (ppuRegWrite s r d).ppu.pal = s.ppu.pal := by
  unfold ppuRegWrite
  dsimp only
  split
  · exact ⟨rfl, rfl, rfl⟩
  · exact ⟨rfl, rfl, rfl⟩
  · exact ⟨rfl, rfl, rfl⟩
  · exact ⟨rfl, rfl, rfl⟩
  · unfold Ppu.writeScroll
    split <;> exact ⟨rfl, rfl, rfl⟩
  · unfold Ppu.writeAddr
    split <;> exact ⟨rfl, rfl, rfl⟩
  · exact absurd rfl h
  · exact ⟨rfl, rfl, rfl⟩

/-- A register write other than OAMDATA leaves OAM. -/
theorem ppuRegWrite_oam (s : State) {r : Nat} (d : Byte) (h : r ≠ 4) :
    (ppuRegWrite s r d).ppu.oam = s.ppu.oam := by
  unfold ppuRegWrite
  dsimp only
  split
  · rfl
  · rfl
  · rfl
  · exact absurd rfl h
  · unfold Ppu.writeScroll
    split <;> rfl
  · unfold Ppu.writeAddr
    split <;> rfl
  · unfold writePpuData ppuWrite writeChr setIoLatch
    dsimp only
    repeat' split
    all_goals rfl
  · rfl

theorem busWrite_space (s : State) {a : Word} (v : Byte)
    (h : ¬ (0x2000 ≤ a.toNat ∧ a.toNat < 0x4000 ∧ a.toNat % 8 = 7)) :
    (busWrite s a v).chrRam = s.chrRam ∧ (busWrite s a v).ppu.vram = s.ppu.vram ∧
      (busWrite s a v).ppu.pal = s.ppu.pal := by
  by_cases hp : 0x2000 ≤ a.toNat ∧ a.toNat < 0x4000
  · rw [busWrite_ppu_window s v hp.1 hp.2]
    exact ppuRegWrite_space s v (by rw [and_7]; omega)
  · unfold busWrite
    dsimp only
    split
    · exact ⟨rfl, rfl, rfl⟩
    split
    · omega
    split
    · unfold oamDma
      rw [dmaCopy_changes]
      exact ⟨rfl, rfl, rfl⟩
    split
    · unfold Pad.strobeWrite
      split <;> exact ⟨rfl, rfl, rfl⟩
    split
    · exact ⟨rfl, rfl, rfl⟩
    split
    · exact ⟨rfl, rfl, rfl⟩
    split <;> exact ⟨rfl, rfl, rfl⟩

theorem busWrite_oam_other (s : State) {a : Word} (v : Byte) (hd : a ≠ 0x4014)
    (h : ¬ (0x2000 ≤ a.toNat ∧ a.toNat < 0x4000 ∧ a.toNat % 8 = 4)) :
    (busWrite s a v).ppu.oam = s.ppu.oam := by
  by_cases hp : 0x2000 ≤ a.toNat ∧ a.toNat < 0x4000
  · rw [busWrite_ppu_window s v hp.1 hp.2]
    exact ppuRegWrite_oam s v (by rw [and_7]; omega)
  · have hd' : a.toNat ≠ 0x4014 := fun h => hd (BitVec.eq_of_toNat_eq h)
    unfold busWrite
    dsimp only
    split
    · rfl
    rw [if_neg (by omega)]
    repeat' split
    all_goals rfl

theorem dmaStall_eq (c : BitVec 64) : dmaStall c = if bitOf c 0 then 514 else 513 := by
  unfold dmaStall
  cases bitOf c 0 <;> decide

theorem busWrite_dma (s : State) {a : Word} (v : Byte) (h : a.toNat = 0x4014) :
    busWrite s a v = oamDma s v := by
  unfold busWrite
  dsimp only
  rw [if_neg (by omega), if_neg (by omega), if_pos h]

/-- The DMA's stall is all that a write adds to `skip` (50 R250). -/
theorem busWrite_skip (s : State) (a : Word) (v : Byte) :
    (busWrite s a v).cpu.skip = s.cpu.skip + storeStall s a := by
  unfold storeStall
  by_cases hd : a = 0x4014
  · rw [if_pos hd, busWrite_dma s v (by rw [hd]; rfl)]
    unfold oamDma
    rw [dmaCopy_changes, ← dmaStall_eq]
  · rw [if_neg hd]
    have hd' : a.toNat ≠ 0x4014 := fun h => hd (BitVec.eq_of_toNat_eq h)
    have h0 : s.cpu.skip + 0 = s.cpu.skip := by simp
    rw [h0]
    unfold busWrite
    dsimp only
    split
    · rfl
    split
    · unfold ppuRegWrite writeCtrl writePpuData ppuWrite writeChr setIoLatch
      dsimp only
      repeat' split
      all_goals rfl
    repeat' split
    all_goals rfl

/-! ## Stores -/

/-- A change of the CPU alone is no change of memory. -/
theorem byteAt_withCpu (s : State) (c : Cpu) (a : Word) (h : isMemory a) :
    byteAt { s with cpu := c } a = byteAt s a :=
  byteAt_congr (by rfl) (by rfl) (by rfl) (by rfl) h

theorem storeFrame_busWrite (s : State) (ea : Word) (v : Byte) : StoreFrame s (busWrite s ea v) ea where
  cart := busWrite_cart s ea v
  chrRam h := (busWrite_space s v h).1
  vram h := (busWrite_space s v h).2.1
  pal h := (busWrite_space s v h).2.2
  oam h h' := busWrite_oam_other s v h h'
  cpu a ha hs hw := by
    by_cases h1 : ea.toNat < 0x2000
    · rw [busWrite_ram_window s v h1]
      rcases Nat.lt_or_ge a.toNat 0x2000 with h2 | h2
      · unfold byteAt
        rw [busRead_ram_window _ h2, busRead_ram_window _ h2]
        simp only [and_7FF]
        refine read_write_other s.ram v fun h => hs (.inl ⟨h1, h2, h.symm⟩)
      · have ha' : 0x6000 ≤ a.toNat := by rcases ha with ha | ha <;> omega
        unfold byteAt
        by_cases h3 : a.toNat < 0x8000
        · rw [busRead_prgRam_window _ ha' h3, busRead_prgRam_window _ ha' h3]
        · rw [busRead_rom_window _ (by omega), busRead_rom_window _ (by omega)]
          rfl
    · by_cases h2 : 0x6000 ≤ ea.toNat ∧ ea.toNat < 0x8000
      · rw [busWrite_prgRam_window s v h2.1 h2.2]
        unfold byteAt
        rcases Nat.lt_or_ge a.toNat 0x2000 with h3 | h3
        · rw [busRead_ram_window _ h3, busRead_ram_window _ h3]
        · have ha' : 0x6000 ≤ a.toNat := by rcases ha with ha | ha <;> omega
          by_cases h4 : a.toNat < 0x8000
          · rw [busRead_prgRam_window _ ha' h4, busRead_prgRam_window _ ha' h4]
            refine read_write_other s.prgRam v fun h => hs (.inr (BitVec.eq_of_toNat_eq (by omega)))
          · rw [busRead_rom_window _ (by omega), busRead_rom_window _ (by omega)]
            rfl
      · have hr := busWrite_ram_other s v (a := ea) (by omega)
        have hp := busWrite_prgRam_other s v h2
        by_cases h3 : ea.toNat < 0x8000
        · exact byteAt_congr hr hp (busWrite_cart s ea v) (busWrite_mapper_other s v h3) ha
        · unfold byteAt
          rcases Nat.lt_or_ge a.toNat 0x2000 with h4 | h4
          · rw [busRead_ram_window _ h4, busRead_ram_window _ h4, hr]
          · have ha' : 0x6000 ≤ a.toNat := by rcases ha with ha | ha <;> omega
            rw [busRead_prgRam_window _ ha' (by omega), busRead_prgRam_window _ ha' (by omega), hp]

theorem storedAt_busWrite {s : State} (hram : s.ram.wf = true) (hprg : s.prgRam.wf = true) (ea : Word)
    (v : Byte) : StoredAt (busWrite s ea v) ea v := by
  intro hea a hs
  rcases hea with h | h
  · have ha : a.toNat < 0x2000 := by rcases hs with hs | rfl <;> omega
    rw [byteAt_write_ram hram v h (.inl ha), if_pos]
    exact ⟨ha, by rcases hs with hs | rfl <;> omega⟩
  · have ha : ea = a := by rcases hs with hs | hs
                           · omega
                           · exact hs
    subst ha
    rw [busWrite_prgRam_window s v h.1 h.2]
    unfold byteAt
    rw [busRead_prgRam_window _ h.1 h.2]
    exact read_write_same hprg _ v

/-- A frame taken from a state whose memories are those of the start, with the CPU changed after. -/
theorem StoreFrame.congr {s0 s t : State} {ea : Word} (h : StoreFrame s t ea) (hram : s.ram = s0.ram)
    (hprg : s.prgRam = s0.prgRam) (hcart : s.cart = s0.cart) (hmap : s.mapper = s0.mapper)
    (hchr : s.chrRam = s0.chrRam) (hvram : s.ppu.vram = s0.ppu.vram) (hpal : s.ppu.pal = s0.ppu.pal)
    (hoam : s.ppu.oam = s0.ppu.oam) (c : Cpu) : StoreFrame s0 { t with cpu := c } ea where
  cpu a ha hs hw := by
    rw [byteAt_withCpu t c a ha, h.cpu a ha hs hw]
    exact byteAt_congr hram hprg hcart hmap ha
  cart := by rw [← hcart]; exact h.cart
  chrRam h' := by rw [← hchr]; exact h.chrRam h'
  vram h' := by rw [← hvram]; exact h.vram h'
  pal h' := by rw [← hpal]; exact h.pal h'
  oam h1 h2 := by rw [← hoam]; exact h.oam h1 h2

theorem StoredAt.withCpu {t : State} {ea : Word} {v : Byte} (h : StoredAt t ea v) (c : Cpu) :
    StoredAt { t with cpu := c } ea v := by
  intro hea a hs
  have ha : isMemory a := by
    rcases hea with h1 | h1
    · exact .inl (by rcases hs with hs | rfl <;> omega)
    · exact .inr (by rcases hs with hs | rfl <;> omega)
  rw [byteAt_withCpu t c a ha]
  exact h hea a hs

/-- A store after an effective address: the bus write, the frame, and the value, whatever the CPU does after
with the registers. -/
theorem stored_of_write {s0 s : State} {ea : Word} {v : Byte} (hram : s.ram = s0.ram)
    (hprg : s.prgRam = s0.prgRam) (hcart : s.cart = s0.cart) (hmap : s.mapper = s0.mapper)
    (hchr : s.chrRam = s0.chrRam) (hvram : s.ppu.vram = s0.ppu.vram) (hpal : s.ppu.pal = s0.ppu.pal)
    (hoam : s.ppu.oam = s0.ppu.oam) (hinv : MemInv s0) (c : Cpu)
    (hc : c.latch.nmi = (busWrite s ea v).cpu.latch.nmi) :
    Stored s0 s { busWrite s ea v with cpu := c } ea v where
  devices := rfl
  nmi := hc
  frame := (storeFrame_busWrite s ea v).congr hram hprg hcart hmap hchr hvram hpal hoam c
  value := by
    have h1 : s.ram.wf = true := by
      have := hinv.ram
      simp only [Memory.fits, Bool.and_eq_true] at this
      rw [hram]; exact this.1
    have h2 : s.prgRam.wf = true := by
      have := hinv.prgRam
      simp only [Memory.fits, Bool.and_eq_true] at this
      rw [hprg]; exact this.1
    exact (storedAt_busWrite h1 h2 ea v).withCpu c

end Sys2Proof.Machine
end

