-- ==== Sys2Proof/Laws/Meanings.lean ====
section
/-! SUPPORT. What the shared instruction shapes do, said once each: a write-class instruction, a
read-modify-write instruction, an addition, a push and a pull. -/

namespace Sys2Proof.Machine

/-- The memories after an operand or pointer read are those before. -/
theorem effAddr_fields (m : AddrMode) (s : State) :
    (effAddr m s).2 = { s with cpu := (effAddr m s).2.cpu } := by
  conv => lhs; rw [effAddr_state]
  conv => rhs; rw [effAddr_state]
  rfl

/-- A write-class instruction: one store, the registers kept (30 R102, 50 R244). -/
theorem writeInstr_spec (m : AddrMode) (f : State → Byte) (s : State) (hi : MemInv s) :
    Stored s s (writeInstr m f s) (effAddr m s).1 (f (effAddr m s).2) ∧
      (writeInstr m f s).cpu =
        { s.cpu with
          pageCross := (effAddr m s).2.cpu.pageCross
          skip := s.cpu.skip + storeStall s (effAddr m s).1 + BitVec.ofNat 32 (writeCycles m)
          latch := { s.cpu.latch with nmi := (writeInstr m f s).cpu.latch.nmi } } := by
  generalize hv : f (effAddr m s).2 = v
  have hcpu := effAddr_cpu m s
  have hs := effAddr_fields m s
  generalize hea : (effAddr m s).1 = ea
  generalize he : (effAddr m s).2 = e at *
  have hw : writeInstr m f s = (busWrite e ea v).charge (writeCycles m) := by
    unfold writeInstr
    simp only [he, hea, hv]
  have hdev : writeInstr m f s = { busWrite s ea v with cpu := (writeInstr m f s).cpu } := by
    rw [hw, hs, ← busWrite_devices s e.cpu _ ea v]
    rfl
  have hskip : storeStall e ea = storeStall s ea := by
    unfold storeStall
    rw [hcpu]
  constructor
  · rw [hdev]
    refine stored_of_write rfl rfl rfl rfl rfl rfl rfl rfl hi _ ?_
    rw [hw, hs, charge_cpu]
    exact busWrite_nmi s e.cpu ea v (by rw [hcpu])
  · rw [hw, charge_cpu, busWrite_cpu, busWrite_skip, hskip, hcpu]

/-- A read-modify-write instruction whose last part acts on `A` and the status alone: one read, one store of the
transformed byte, the other registers kept (30 R102, 20 R65, 50 R244). -/
theorem rmwInstr_spec (m : AddrMode) (transform : Byte → Byte → Byte × Byte)
    (after : Byte → State → State) (fa fp : Byte → Byte → Byte → Byte)
    (hafter : ∀ v u, after v u = { u with cpu := { u.cpu with a := fa v u.cpu.a u.cpu.p, p := fp v u.cpu.a u.cpu.p } })
    (s : State) (hi : MemInv s) :
    let ea := (effAddr m s).1
    let r := busRead (effAddr m s).2 ea
    let t := transform r.1 s.cpu.p
    Stored s r.2 (rmwInstr m transform after s) ea t.1 ∧
      (rmwInstr m transform after s).cpu =
        { s.cpu with
          a := fa t.1 s.cpu.a t.2
          p := fp t.1 s.cpu.a t.2
          pageCross := (effAddr m s).2.cpu.pageCross
          skip := s.cpu.skip + storeStall s ea + BitVec.ofNat 32 (rmwCycles m)
          latch := { s.cpu.latch with nmi := (rmwInstr m transform after s).cpu.latch.nmi } } := by
  intro ea r t
  have hcpu := effAddr_cpu m s
  have hrcpu : r.2.cpu = { s.cpu with pageCross := (effAddr m s).2.cpu.pageCross } := by
    show (busRead _ _).2.cpu = _
    rw [busRead_cpu, hcpu]
  have hs := effAddr_fields m s
  have hp : r.2.cpu.p = s.cpu.p := by rw [hrcpu]
  have hw : rmwInstr m transform after s =
      (after t.1 (busWrite (r.2.setP t.2) ea t.1)).charge (rmwCycles m) := by
    unfold rmwInstr
    show (after (transform r.1 r.2.cpu.p).1
      (busWrite (r.2.setP (transform r.1 r.2.cpu.p).2) ea (transform r.1 r.2.cpu.p).1)).charge _ = _
    rw [hp]
  have hsetP : r.2.setP t.2 = { r.2 with cpu := { r.2.cpu with p := t.2 } } := rfl
  have hdev : rmwInstr m transform after s =
      { busWrite r.2 ea t.1 with cpu := (rmwInstr m transform after s).cpu } := by
    rw [hw, hafter, hsetP, ← busWrite_devices r.2 { r.2.cpu with p := t.2 } _ ea t.1]
    rfl
  have hskip : storeStall (r.2.setP t.2) ea = storeStall s ea := by
    unfold storeStall
    rw [hsetP]
    simp only [hrcpu]
  constructor
  · rw [hdev]
    have hf : ∀ {α : Type} (g : State → α), (∀ (u : State) (c : Cpu), g { u with cpu := c } = g u) →
        (g (effAddr m s).2 = g s) := by
      intro α g hg
      rw [hs, hg]
    refine stored_of_write ?_ ?_ ?_ ?_ ?_ ?_ ?_ ?_ hi _ ?_
    · exact (busRead_ram _ _).trans (hf State.ram fun _ _ => rfl)
    · exact (busRead_prgRam _ _).trans (hf State.prgRam fun _ _ => rfl)
    · exact (busRead_cart _ _).trans (hf State.cart fun _ _ => rfl)
    · exact (busRead_mapper _ _).trans (hf State.mapper fun _ _ => rfl)
    · exact (busRead_chrRam _ _).trans (hf State.chrRam fun _ _ => rfl)
    · exact (busRead_vram _ _).trans (hf (fun u => u.ppu.vram) fun _ _ => rfl)
    · exact (busRead_pal _ _).trans (hf (fun u => u.ppu.pal) fun _ _ => rfl)
    · exact (busRead_oam _ _).trans (hf (fun u => u.ppu.oam) fun _ _ => rfl)
    · rw [hw, hafter, charge_cpu]
      exact busWrite_nmi r.2 { r.2.cpu with p := t.2 } ea t.1 rfl
  · rw [hw, hafter, charge_cpu]
    dsimp only
    rw [busWrite_cpu, busWrite_skip, hskip, hsetP]
    simp only [hrcpu]

/-! ## Shapes of the last part of a read-modify-write -/

/-- `SetZN` of the byte written acts on the status alone. -/
theorem afterSetZN (v : Byte) (u : State) :
    u.setZN v = { u with cpu := { u.cpu with a := u.cpu.a, p := putZN u.cpu.p v } } := rfl

/-! ## Stack -/

/-- Reading the stack page. -/
theorem byteAt_stack (s : State) (sp : Byte) : byteAt s (stackAddr sp) = s.ram.read (256 + sp.toNat) := by
  unfold byteAt
  rw [busRead_ram_window s (stackAddr_lt sp)]
  simp only [and_7FF]
  rw [stackAddr_toNat, Nat.mod_eq_of_lt]
  have := sp.isLt
  omega

/-- A pull reads the byte above `SP` (10 R24). -/
theorem pull_eq_byteAt (s : State) :
    pull s = (byteAt s (stackAddr (s.cpu.sp + 1)), { s with cpu := { s.cpu with sp := s.cpu.sp + 1 } }) := by
  rw [pull_eq, byteAt_stack]

/-- Two different stack addresses share no byte. -/
theorem stackAddr_inj {p q : Byte} (h : sharesByte (stackAddr p) (stackAddr q)) : p = q := by
  have hp := stackAddr_toNat p
  have hq := stackAddr_toNat q
  have h1 := p.isLt
  have h2 := q.isLt
  rcases h with h | h
  · exact BitVec.eq_of_toNat_eq (by omega)
  · have := congrArg BitVec.toNat h
    exact BitVec.eq_of_toNat_eq (by omega)

/-- A read of CPU memory where only work RAM and the CPU differ from `s`. -/
theorem byteAt_withRam (s : State) (m : Memory) (c : Cpu) {a : Word} (ha : isMemory a) :
    byteAt { s with ram := m, cpu := c } a =
      if a.toNat < 0x2000 then m.read (a.toNat % 2048) else byteAt s a := by
  unfold byteAt
  by_cases h : a.toNat < 0x2000
  · rw [if_pos h, busRead_ram_window _ h]
    simp only [and_7FF]
  · rw [if_neg h]
    rcases ha with ha | ha
    · omega
    by_cases h' : a.toNat < 0x8000
    · rw [busRead_prgRam_window _ ha h', busRead_prgRam_window _ ha h']
    · rw [busRead_rom_window _ (by omega), busRead_rom_window _ (by omega)]
      rfl

theorem byteAt_ram (s : State) {a : Word} (h : a.toNat < 0x2000) : byteAt s a = s.ram.read (a.toNat % 2048) := by
  unfold byteAt
  rw [busRead_ram_window s h]
  simp only [and_7FF]

/-- What CPU memory reads after a push (10 R24). -/
theorem byteAt_push {s : State} (hram : s.ram.wf = true) (v : Byte) {a : Word} (ha : isMemory a) :
    byteAt (push s v) a =
      if a.toNat < 0x2000 ∧ a.toNat % 2048 = 256 + s.cpu.sp.toNat then v else byteAt s a := by
  rw [push_eq, byteAt_withRam _ _ _ ha]
  by_cases h : a.toNat < 0x2000
  · rw [if_pos h, read_write (low := 0) hram, byteAt_ram s h]
    simp only [h, true_and]
  · rw [if_neg h, if_neg (by omega)]

theorem sub_one_sub_one (sp : Byte) : sp - 1 - 1 = sp - 2 := by
  have h : ∀ sp : Byte, sp - 1 - 1 = sp - 2 := by decide
  exact h sp

theorem sub_two_sub_one (sp : Byte) : sp - 2 - 1 = sp - 3 := by
  have h : ∀ sp : Byte, sp - 2 - 1 = sp - 3 := by decide
  exact h sp

theorem add_one_add_one (sp : Byte) : sp + 1 + 1 = sp + 2 := by rw [BitVec.add_assoc]; rfl
theorem add_two_add_one (sp : Byte) : sp + 2 + 1 = sp + 3 := by rw [BitVec.add_assoc]; rfl

/-- The two pushes of a 16-bit value, high byte first. -/
theorem push_push_eq (s : State) (h l : Byte) :
    push (push s h) l =
      { s with
        ram := (s.ram.write (256 + s.cpu.sp.toNat) h).write (256 + (s.cpu.sp - 1).toNat) l
        cpu := { s.cpu with sp := s.cpu.sp - 2 } } := by
  rw [push_eq (push s h), push_eq s]
  simp only [sub_one_sub_one]

/-! ## The interrupt sequence -/

/-- The first half of the sequence, written out (60 R276). -/
theorem beginInterrupt_eq (k : IntKind) (s : State) :
    beginInterrupt k s =
      { s with
        ram :=
          ((s.ram.write (256 + s.cpu.sp.toNat) (hi s.cpu.pc)).write (256 + (s.cpu.sp - 1).toNat)
            (lo s.cpu.pc)).write (256 + (s.cpu.sp - 2).toNat) (pushedStatus k s.cpu.p)
        cpu := { s.cpu with
          sp := s.cpu.sp - 3
          p := putI s.cpu.p true
          inInterrupt := true
          intKind := some k } } := by
  have h1 : beginInterrupt k s =
      (let u := push (push (push s (hi s.cpu.pc)) (lo s.cpu.pc)) (pushedStatus k s.cpu.p)
       { u with cpu := { u.cpu with p := putI u.cpu.p true, inInterrupt := true, intKind := some k } }) := by
    unfold beginInterrupt
    simp only [push_eq]
    rfl
  rw [h1]
  simp only [push_eq, sub_one_sub_one, sub_two_sub_one]

/-- The second half, written out: the vector's two bytes, the hijack's request consumed, the sequence ended
(60 R278, R279). -/
theorem resolveVector_eq (s : State) :
    resolveVector s =
      { s with
        cpu := { s.cpu with
          pc := word (byteAt s (vectorOf s + 1)) (byteAt s (vectorOf s))
          inInterrupt := false
          latch := { s.cpu.latch with nmi := if hijacked s then false else s.cpu.latch.nmi } } } := by
  have hv : isMemory (vectorOf s) ∧ isMemory (vectorOf s + 1) := by
    unfold vectorOf
    split <;> exact ⟨.inr (by decide), .inr (by decide)⟩
  unfold resolveVector
  dsimp only
  rw [read16, readPair_isMemory _ hv.1 hv.2]
  simp only [byteAt_withCpu _ _ _ hv.1, byteAt_withCpu _ _ _ hv.2]
  rfl

/-- A sequence of the stack's three pulls restores the pushed status and address (60 R283). -/
theorem returnFromInterrupt_eq (s : State) :
    returnFromInterrupt s =
      { s with
        cpu := { s.cpu with
          p := loadedStatus (byteAt s (stackAddr (s.cpu.sp + 1)))
          pc := word (byteAt s (stackAddr (s.cpu.sp + 3))) (byteAt s (stackAddr (s.cpu.sp + 2)))
          sp := s.cpu.sp + 3 } } := by
  have hs : ∀ (c : Cpu) (sp : Byte), byteAt { s with cpu := c } (stackAddr sp) = byteAt s (stackAddr sp) :=
    fun c sp => byteAt_withCpu s c _ (.inl (stackAddr_lt sp))
  unfold returnFromInterrupt
  simp only [pull_eq_byteAt, State.setP, State.setPc, hs, add_one_add_one, add_two_add_one]

/-! ## Shifts -/

/-- The byte and the carry of the four shift transforms as numbers; no other bit of the status changes
(42 R180 to R183). -/
theorem shiftTransform_spec (m p : Byte) (transform : Byte → Byte → Byte × Byte) (left rotate : Bool)
    (h : (transform = aslTransform ∧ left = true ∧ rotate = false) ∨
      (transform = lsrTransform ∧ left = false ∧ rotate = false) ∨
      (transform = rolTransform ∧ left = true ∧ rotate = true) ∨
      (transform = rorTransform ∧ left = false ∧ rotate = true)) :
    ((transform m p).1.toNat, flagC (transform m p).2) = shiftSpec m (flagC p) left rotate ∧
      flagsKept 0x01 p (transform m p).2 := by
  have hC : ∀ b, flagC (putC p b) = b := by intro b; simp [flagC]
  have hK : ∀ b, flagsKept 0x01 p (putC p b) := by
    intro b
    rw [flagsKept_iff]
    intro j _ hm
    have h0 : j ≠ 0 := by rintro rfl; exact absurd hm (by decide)
    simp [h0]
  have e1 : ∀ m : Byte, ∀ c : Bool,
      ((m <<< 1 : Byte) ||| boolByte c).toNat = (2 * m.toNat + if c then 1 else 0) % 256 := by decide
  have e2 : ∀ m : Byte, ∀ c : Bool,
      ((m >>> 1 : Byte) ||| (boolByte c <<< 7)).toNat = m.toNat / 2 + 128 * if c then 1 else 0 := by decide
  have e3 : ∀ m : Byte, (m <<< 1 : Byte).toNat = (2 * m.toNat) % 256 := by decide
  have e4 : ∀ m : Byte, (m >>> 1 : Byte).toNat = m.toNat / 2 := by decide
  rcases h with ⟨rfl, rfl, rfl⟩ | ⟨rfl, rfl, rfl⟩ | ⟨rfl, rfl, rfl⟩ | ⟨rfl, rfl, rfl⟩
  · exact ⟨by simp [aslTransform, aslResult, aslCarry, hC, shiftSpec, e3, bit7_eq], hK _⟩
  · exact ⟨by simp [lsrTransform, lsrResult, lsrCarry, hC, shiftSpec, e4, bit0_eq], hK _⟩
  · exact ⟨by simp only [rolTransform, rolResult, rolCarry, hC, shiftSpec, e1, bit7_eq]; simp, hK _⟩
  · exact ⟨by simp only [rorTransform, rorResult, rorCarry, hC, shiftSpec, e2, bit0_eq]; simp, hK _⟩

theorem flagsKept_trans {m1 m2 m3 p q r : Byte} (h1 : flagsKept m1 p q) (h2 : flagsKept m2 q r)
    (hm : m1 ||| m2 = m3) : flagsKept m3 p r := by
  subst hm
  rw [flagsKept_iff] at *
  intro j hj hm
  have hm' : bitOf m1 j = false ∧ bitOf m2 j = false := by simpa [bitOf] using hm
  rw [h2 j hj hm'.2, h1 j hj hm'.1]

/-! ## Words -/

theorem word_toNat (h l : Byte) : (word h l).toNat = 256 * h.toNat + l.toNat := by
  unfold word
  rw [BitVec.toNat_append, Nat.shiftLeft_eq, Nat.mul_comm, ← Nat.two_pow_add_eq_or_of_lt l.isLt]

theorem lo_toNat (w : Word) : (lo w).toNat = w.toNat % 256 := by
  unfold lo
  rw [BitVec.extractLsb'_toNat]
  simp

theorem hi_toNat (w : Word) : (hi w).toNat = w.toNat / 256 := by
  unfold hi
  rw [BitVec.extractLsb'_toNat, Nat.shiftRight_eq_div_pow]
  have := w.isLt
  simp only [Nat.reducePow]
  omega

theorem word_hi_lo (w : Word) : word (hi w) (lo w) = w := by
  apply BitVec.eq_of_toNat_eq
  rw [word_toNat, hi_toNat, lo_toNat]
  omega

end Sys2Proof.Machine
end

