-- ==== Sys2Proof/Laws/PerInstr.lean ====
section
/-! SUPPORT. A statement about every instruction as syntax, one lemma per constructor: a well-formed
instruction has an encoding, of as many bytes as its format announces (30 R100). -/

namespace Sys2Proof.Laws.EncodedLength

/-- 30 R100, R119: a well-formed instruction is encoded in the number of bytes its format gives. -/
def Statement (i : Instr) : Prop := wellFormed i = true → (encode i).map List.length = some i.length

theorem ofReadOp (f : ReadOp → Instr) (himm : ∀ b, Statement (f (.imm b)))
    (hmem : ∀ m, Statement (f (.mem m))) (o : ReadOp) : Statement (f o) := by
  cases o with
  | imm b => exact himm b
  | mem m => exact hmem m

theorem ofShiftOp (f : ShiftOp → Instr) (hacc : Statement (f .acc))
    (hmem : ∀ m, Statement (f (.mem m))) (o : ShiftOp) : Statement (f o) := by
  cases o with
  | acc => exact hacc
  | mem m => exact hmem m

theorem lda (o : ReadOp) : Statement (.lda o) :=
  ofReadOp .lda (fun _ _ => rfl) (fun m => by cases m <;> intro h <;> first | rfl | exact (Bool.false_ne_true h).elim) o
theorem ldx (o : ReadOp) : Statement (.ldx o) :=
  ofReadOp .ldx (fun _ _ => rfl) (fun m => by cases m <;> intro h <;> first | rfl | exact (Bool.false_ne_true h).elim) o
theorem ldy (o : ReadOp) : Statement (.ldy o) :=
  ofReadOp .ldy (fun _ _ => rfl) (fun m => by cases m <;> intro h <;> first | rfl | exact (Bool.false_ne_true h).elim) o
theorem sta (m : AddrMode) : Statement (.sta m) := by cases m <;> intro h <;> first | rfl | exact (Bool.false_ne_true h).elim
theorem stx (m : AddrMode) : Statement (.stx m) := by cases m <;> intro h <;> first | rfl | exact (Bool.false_ne_true h).elim
theorem sty (m : AddrMode) : Statement (.sty m) := by cases m <;> intro h <;> first | rfl | exact (Bool.false_ne_true h).elim
theorem tax : Statement .tax := fun _ => rfl
theorem tay : Statement .tay := fun _ => rfl
theorem txa : Statement .txa := fun _ => rfl
theorem tya : Statement .tya := fun _ => rfl
theorem tsx : Statement .tsx := fun _ => rfl
theorem txs : Statement .txs := fun _ => rfl
theorem pha : Statement .pha := fun _ => rfl
theorem php : Statement .php := fun _ => rfl
theorem pla : Statement .pla := fun _ => rfl
theorem plp : Statement .plp := fun _ => rfl
theorem adc (o : ReadOp) : Statement (.adc o) :=
  ofReadOp .adc (fun _ _ => rfl) (fun m => by cases m <;> intro h <;> first | rfl | exact (Bool.false_ne_true h).elim) o
theorem sbc (o : ReadOp) : Statement (.sbc o) :=
  ofReadOp .sbc (fun _ _ => rfl) (fun m => by cases m <;> intro h <;> first | rfl | exact (Bool.false_ne_true h).elim) o
theorem and (o : ReadOp) : Statement (.and o) :=
  ofReadOp .and (fun _ _ => rfl) (fun m => by cases m <;> intro h <;> first | rfl | exact (Bool.false_ne_true h).elim) o
theorem ora (o : ReadOp) : Statement (.ora o) :=
  ofReadOp .ora (fun _ _ => rfl) (fun m => by cases m <;> intro h <;> first | rfl | exact (Bool.false_ne_true h).elim) o
theorem eor (o : ReadOp) : Statement (.eor o) :=
  ofReadOp .eor (fun _ _ => rfl) (fun m => by cases m <;> intro h <;> first | rfl | exact (Bool.false_ne_true h).elim) o
theorem cmp (o : ReadOp) : Statement (.cmp o) :=
  ofReadOp .cmp (fun _ _ => rfl) (fun m => by cases m <;> intro h <;> first | rfl | exact (Bool.false_ne_true h).elim) o
theorem cpx (o : ReadOp) : Statement (.cpx o) :=
  ofReadOp .cpx (fun _ _ => rfl) (fun m => by cases m <;> intro h <;> first | rfl | exact (Bool.false_ne_true h).elim) o
theorem cpy (o : ReadOp) : Statement (.cpy o) :=
  ofReadOp .cpy (fun _ _ => rfl) (fun m => by cases m <;> intro h <;> first | rfl | exact (Bool.false_ne_true h).elim) o
theorem bit (m : AddrMode) : Statement (.bit m) := by cases m <;> intro h <;> first | rfl | exact (Bool.false_ne_true h).elim
theorem inc (m : AddrMode) : Statement (.inc m) := by cases m <;> intro h <;> first | rfl | exact (Bool.false_ne_true h).elim
theorem dec (m : AddrMode) : Statement (.dec m) := by cases m <;> intro h <;> first | rfl | exact (Bool.false_ne_true h).elim
theorem inx : Statement .inx := fun _ => rfl
theorem iny : Statement .iny := fun _ => rfl
theorem dex : Statement .dex := fun _ => rfl
theorem dey : Statement .dey := fun _ => rfl
theorem asl (o : ShiftOp) : Statement (.asl o) :=
  ofShiftOp .asl (fun _ => rfl) (fun m => by cases m <;> intro h <;> first | rfl | exact (Bool.false_ne_true h).elim) o
theorem lsr (o : ShiftOp) : Statement (.lsr o) :=
  ofShiftOp .lsr (fun _ => rfl) (fun m => by cases m <;> intro h <;> first | rfl | exact (Bool.false_ne_true h).elim) o
theorem rol (o : ShiftOp) : Statement (.rol o) :=
  ofShiftOp .rol (fun _ => rfl) (fun m => by cases m <;> intro h <;> first | rfl | exact (Bool.false_ne_true h).elim) o
theorem ror (o : ShiftOp) : Statement (.ror o) :=
  ofShiftOp .ror (fun _ => rfl) (fun m => by cases m <;> intro h <;> first | rfl | exact (Bool.false_ne_true h).elim) o
theorem jmp (target : Word) : Statement (.jmp target) := fun _ => rfl
theorem jmpInd (ptr : Word) : Statement (.jmpInd ptr) := fun _ => rfl
theorem jsr (target : Word) : Statement (.jsr target) := fun _ => rfl
theorem rts : Statement .rts := fun _ => rfl
theorem rti : Statement .rti := fun _ => rfl
theorem brk : Statement .brk := fun _ => rfl
theorem bpl (off : Byte) : Statement (.bpl off) := fun _ => rfl
theorem bmi (off : Byte) : Statement (.bmi off) := fun _ => rfl
theorem bvc (off : Byte) : Statement (.bvc off) := fun _ => rfl
theorem bvs (off : Byte) : Statement (.bvs off) := fun _ => rfl
theorem bcc (off : Byte) : Statement (.bcc off) := fun _ => rfl
theorem bcs (off : Byte) : Statement (.bcs off) := fun _ => rfl
theorem bne (off : Byte) : Statement (.bne off) := fun _ => rfl
theorem beq (off : Byte) : Statement (.beq off) := fun _ => rfl
theorem clc : Statement .clc := fun _ => rfl
theorem sec : Statement .sec := fun _ => rfl
theorem cli : Statement .cli := fun _ => rfl
theorem sei : Statement .sei := fun _ => rfl
theorem clv : Statement .clv := fun _ => rfl
theorem cld : Statement .cld := fun _ => rfl
theorem sed : Statement .sed := fun _ => rfl
theorem nop : Statement .nop := fun _ => rfl
theorem slo (m : AddrMode) : Statement (.slo m) := by cases m <;> intro h <;> first | rfl | exact (Bool.false_ne_true h).elim
theorem rla (m : AddrMode) : Statement (.rla m) := by cases m <;> intro h <;> first | rfl | exact (Bool.false_ne_true h).elim
theorem sre (m : AddrMode) : Statement (.sre m) := by cases m <;> intro h <;> first | rfl | exact (Bool.false_ne_true h).elim
theorem rra (m : AddrMode) : Statement (.rra m) := by cases m <;> intro h <;> first | rfl | exact (Bool.false_ne_true h).elim
theorem sax (m : AddrMode) : Statement (.sax m) := by cases m <;> intro h <;> first | rfl | exact (Bool.false_ne_true h).elim
theorem lax (m : AddrMode) : Statement (.lax m) := by cases m <;> intro h <;> first | rfl | exact (Bool.false_ne_true h).elim
theorem dcp (m : AddrMode) : Statement (.dcp m) := by cases m <;> intro h <;> first | rfl | exact (Bool.false_ne_true h).elim
theorem isc (m : AddrMode) : Statement (.isc m) := by cases m <;> intro h <;> first | rfl | exact (Bool.false_ne_true h).elim
theorem xxx (op : Byte) : Statement (.xxx op) := by
  intro h
  have hb : (Instr.xxx op).byteOk = true := (Bool.and_eq_true_iff.mp h).2
  simp only [encode, Instr.opcode, hb, if_true]
  rfl

end Sys2Proof.Laws.EncodedLength
end

