-- ==== Sys2Proof/Laws/Pipeline.lean ====
section
/-! SUPPORT. What a fetch and a boundary step do, said once. -/

namespace Sys2Proof.Machine

theorem fetch_cpu (s : State) : (fetch s).2.cpu = { s.cpu with pc := s.cpu.pc + 1 } := by
  simp [fetch]

/-- A fetch from memory changes `PC` alone. -/
theorem fetch_isMemory (s : State) (h : isMemory s.cpu.pc) :
    fetch s = (byteAt s s.cpu.pc, s.setPc (s.cpu.pc + 1)) := by
  unfold fetch
  rw [busRead_isMemory s h]

theorem sameMemory_fetch (s : State) : SameMemory s (fetch s).2 := by
  unfold fetch
  apply sameMemory_of_eq <;> simp

theorem SameMemory.trans {s t u : State} (h : SameMemory s t) (h' : SameMemory t u) : SameMemory s u where
  cpu a ha := (h'.cpu a ha).trans (h.cpu a ha)
  chr a := (h'.chr a).trans (h.chr a)
  vram i := (h'.vram i).trans (h.vram i)
  pal i := (h'.pal i).trans (h.pal i)
  oam i := (h'.oam i).trans (h.oam i)

theorem SameMemory.withCpu (s : State) (c : Cpu) : SameMemory s { s with cpu := c } :=
  sameMemory_of_eq rfl rfl rfl rfl rfl rfl rfl rfl

theorem add_one_one (pc : Word) : pc + 1 + 1 = pc + 2 := by rw [BitVec.add_assoc]; rfl
theorem add_two_one (pc : Word) : pc + 2 + 1 = pc + 3 := by rw [BitVec.add_assoc]; rfl

/-- The fetch of an instruction, whatever the addresses: a well-formed instruction, `PC` past its bytes,
`page_cross` cleared, no byte of memory changed (50 R241, R242). -/
theorem fetchInstr_spec (s : State) :
    wellFormed (fetchInstr s).1 = true ∧
    (fetchInstr s).1.length = opcodeLength (busRead s s.cpu.pc).1 ∧
    (fetchInstr s).2.cpu =
      { s.cpu with pc := s.cpu.pc + BitVec.ofNat 16 (fetchInstr s).1.length, pageCross := false } ∧
    SameMemory s (fetchInstr s).2 := by
  have hop : (fetch (s.setPageCross false)).1 = (busRead s s.cpu.pc).1 := by
    unfold fetch
    show (busRead { s with cpu := { s.cpu with pageCross := false } } s.cpu.pc).1 = _
    rw [busRead_withCpu]
  have hlen : (fetchInstr s).1.length = opcodeLength (busRead s s.cpu.pc).1 := by
    unfold fetchInstr
    dsimp only
    rw [decodeBytes_length, hop]
  refine ⟨decodeBytes_wellFormed _ _ _, hlen, ?_, ?_⟩
  · rw [hlen]
    have hr := opcodeLength_range (busRead s s.cpu.pc).1
    unfold fetchInstr
    dsimp only
    rw [hop]
    generalize opcodeLength (busRead s s.cpu.pc).1 = n at *
    have hn : n = 1 ∨ n = 2 ∨ n = 3 := by omega
    rcases hn with rfl | rfl | rfl
    · simp only [show ¬ (2 : Nat) ≤ 1 by decide, show ¬ (3 : Nat) ≤ 1 by decide, if_false, fetch_cpu]
      rfl
    · simp only [show (2 : Nat) ≤ 2 by decide, show ¬ (3 : Nat) ≤ 2 by decide, if_true, if_false, fetch_cpu]
      rw [show (s.setPageCross false).cpu.pc + 1 + 1 = s.cpu.pc + 2 from add_one_one _]
      rfl
    · simp only [show (2 : Nat) ≤ 3 by decide, show (3 : Nat) ≤ 3 by decide, if_true, fetch_cpu]
      rw [show (s.setPageCross false).cpu.pc + 1 + 1 = s.cpu.pc + 2 from add_one_one _, add_two_one]
      rfl
  · have h0 : SameMemory s (s.setPageCross false) := SameMemory.withCpu s _
    have h1 := h0.trans (sameMemory_fetch (s.setPageCross false))
    unfold fetchInstr
    dsimp only
    split
    · split
      · exact h1.trans ((sameMemory_fetch _).trans (sameMemory_fetch _))
      · exact h1.trans (sameMemory_fetch _)
    · split
      · exact h1.trans (sameMemory_fetch _)
      · exact h1

/-- The fetch of an instruction from memory: the instruction its bytes decode to, and nothing else changed. -/
theorem fetchInstr_isMemory (s : State) (h0 : isMemory s.cpu.pc) (h1 : isMemory (s.cpu.pc + 1))
    (h2 : isMemory (s.cpu.pc + 2)) :
    fetchInstr s =
      (decodeBytes (byteAt s s.cpu.pc) (byteAt s (s.cpu.pc + 1)) (byteAt s (s.cpu.pc + 2)),
        { s with
          cpu := { s.cpu with
            pc := s.cpu.pc + BitVec.ofNat 16 (opcodeLength (byteAt s s.cpu.pc))
            pageCross := false } }) := by
  have hb : ∀ (c : Cpu) {a : Word}, isMemory a → byteAt { s with cpu := c } a = byteAt s a :=
    fun c a ha => byteAt_withCpu s c a ha
  have f0 : fetch (s.setPageCross false) =
      (byteAt s s.cpu.pc, { s with cpu := { s.cpu with pageCross := false, pc := s.cpu.pc + 1 } }) := by
    refine (fetch_isMemory (s.setPageCross false) h0).trans ?_
    exact Prod.ext (hb _ h0) rfl
  have f1 : fetch { s with cpu := { s.cpu with pageCross := false, pc := s.cpu.pc + 1 } } =
      (byteAt s (s.cpu.pc + 1), { s with cpu := { s.cpu with pageCross := false, pc := s.cpu.pc + 2 } }) := by
    refine (fetch_isMemory { s with cpu := { s.cpu with pageCross := false, pc := s.cpu.pc + 1 } } h1).trans ?_
    refine Prod.ext (hb _ h1) ?_
    show State.setPc _ (s.cpu.pc + 1 + 1) = _
    rw [add_one_one]
    rfl
  have f2 : fetch { s with cpu := { s.cpu with pageCross := false, pc := s.cpu.pc + 2 } } =
      (byteAt s (s.cpu.pc + 2), { s with cpu := { s.cpu with pageCross := false, pc := s.cpu.pc + 3 } }) := by
    refine (fetch_isMemory { s with cpu := { s.cpu with pageCross := false, pc := s.cpu.pc + 2 } } h2).trans ?_
    refine Prod.ext (hb _ h2) ?_
    show State.setPc _ (s.cpu.pc + 2 + 1) = _
    rw [add_two_one]
    rfl
  unfold fetchInstr
  dsimp only
  rw [f0]
  dsimp only
  rw [f1]
  have hr := opcodeLength_range (byteAt s s.cpu.pc)
  have hn : opcodeLength (byteAt s s.cpu.pc) = 1 ∨ opcodeLength (byteAt s s.cpu.pc) = 2 ∨
      opcodeLength (byteAt s s.cpu.pc) = 3 := by omega
  rcases hn with hn | hn | hn
  · rw [hn, if_neg (by decide), if_neg (by decide)]
    exact Prod.ext (decodeBytes_one _ _ _ _ _ hn) rfl
  · rw [hn, if_pos (by decide), if_neg (by decide)]
    exact Prod.ext (decodeBytes_two _ _ _ _ hn) rfl
  · rw [hn, if_pos (by decide), if_pos (by decide)]
    dsimp only
    rw [f2]
    rfl

end Sys2Proof.Machine
end

