-- ==== Sys2Proof/Tests/Slice0.lean ====
section
/-! SUPPORT. The model's own tests. Expected values come from spec/95_test_vectors.md, from the "Encoding" lines of
the instruction rules and from spec/opcode_table.json; the witnesses at the end meet the hypotheses of the
statements, clause by clause. -/

open Sys2Proof.Machine

namespace Sys2Proof.Tests

/-! ## WellFormed: an ill-formed term for each check -/

/-- LDX has no format ZPX (30 R119). -/
theorem test_ill_formed_read : wellFormed (.ldx (.mem (.zpx 0x10))) = false := by decide
/-- STX has no format ZPX, and SAX no format ABX. -/
theorem test_ill_formed_write :
    wellFormed (.stx (.zpx 0x10)) = false ∧ wellFormed (.sax (.abx 0x0300)) = false := by decide
/-- ASL has no format ABY; the eight operations share no format beyond their own. -/
theorem test_ill_formed_rmw :
    wellFormed (.asl (.mem (.aby 0x0300))) = false ∧ wellFormed (.inc (.izy 0x10)) = false := by decide
/-- CPX has no indexed format, BIT no immediate-free indexed one. -/
theorem test_ill_formed_compare :
    wellFormed (.cpx (.mem (.abx 0x0300))) = false ∧ wellFormed (.bit (.zpx 0x10)) = false := by decide
/-- `0xEA` is NOP, not one of the 53 bytes (30 R122). -/
theorem test_ill_formed_xxx : wellFormed (.xxx 0xEA) = false ∧ wellFormed (.xxx 0x02) = true := by decide
/-- An ill-formed term has no encoding. -/
theorem test_ill_formed_encode : encode (.ldx (.mem (.zpx 0x10))) = none ∧ encode (.xxx 0xEA) = none := by
  decide
theorem test_xxx_bytes : xxxBytes.length = 53 := by decide

/-! ## Decode: a word of every constructor, from its rule's "Encoding" line -/

/-- The instruction a byte list decodes to, if it is all of the list. -/
def dec (bytes : List Byte) : Option Instr :=
  match decode bytes with
  | .ok (i, []) => some i
  | _ => none

/-- 40 R141 to R146 -/
theorem test_decode_load_store :
    dec [0xA9, 0x80] = some (.lda (.imm 0x80)) ∧ dec [0xB6, 0x10] = some (.ldx (.mem (.zpy 0x10))) ∧
    dec [0xBC, 0x00, 0x03] = some (.ldy (.mem (.abx 0x0300))) ∧ dec [0x91, 0x10] = some (.sta (.izy 0x10)) ∧
    dec [0x96, 0x10] = some (.stx (.zpy 0x10)) ∧ dec [0x8C, 0x05, 0x20] = some (.sty (.abs 0x2005)) := by decide
/-- 40 R147 to R156 -/
theorem test_decode_transfer_stack :
    dec [0xAA] = some .tax ∧ dec [0xA8] = some .tay ∧ dec [0x8A] = some .txa ∧ dec [0x98] = some .tya ∧
    dec [0xBA] = some .tsx ∧ dec [0x9A] = some .txs ∧ dec [0x48] = some .pha ∧ dec [0x08] = some .php ∧
    dec [0x68] = some .pla ∧ dec [0x28] = some .plp := by decide
/-- 41 R160 to R168 -/
theorem test_decode_arith :
    dec [0x7D, 0x80, 0x10] = some (.adc (.mem (.abx 0x1080))) ∧ dec [0xE1, 0x20] = some (.sbc (.mem (.izx 0x20))) ∧
    dec [0x39, 0x34, 0x12] = some (.and (.mem (.aby 0x1234))) ∧ dec [0x15, 0x44] = some (.ora (.mem (.zpx 0x44))) ∧
    dec [0x4D, 0x34, 0x12] = some (.eor (.mem (.abs 0x1234))) ∧ dec [0xD1, 0x10] = some (.cmp (.mem (.izy 0x10))) ∧
    dec [0xE0, 0x05] = some (.cpx (.imm 0x05)) ∧ dec [0xC4, 0x10] = some (.cpy (.mem (.zp 0x10))) ∧
    dec [0x2C, 0x02, 0x20] = some (.bit (.abs 0x2002)) := by decide
/-- 41 R169 to R174 -/
theorem test_decode_increment :
    dec [0xF6, 0xF0] = some (.inc (.zpx 0xF0)) ∧ dec [0xCE, 0x00, 0x03] = some (.dec (.abs 0x0300)) ∧
    dec [0xE8] = some .inx ∧ dec [0xC8] = some .iny ∧ dec [0xCA] = some .dex ∧ dec [0x88] = some .dey := by decide
/-- 42 R180 to R183 -/
theorem test_decode_shift :
    dec [0x0A] = some (.asl .acc) ∧ dec [0x56, 0xF8] = some (.lsr (.mem (.zpx 0xF8))) ∧
    dec [0x3E, 0x00, 0x03] = some (.rol (.mem (.abx 0x0300))) ∧
    dec [0x6E, 0x00, 0x02] = some (.ror (.mem (.abs 0x0200))) := by decide
/-- 43 R190 to R195 -/
theorem test_decode_jump :
    dec [0x4C, 0x34, 0x12] = some (.jmp 0x1234) ∧ dec [0x6C, 0xFF, 0x02] = some (.jmpInd 0x02FF) ∧
    dec [0x20, 0x00, 0x90] = some (.jsr 0x9000) ∧ dec [0x60] = some .rts ∧ dec [0x40] = some .rti ∧
    dec [0x00] = some .brk := by decide
/-- 43 R197 to R204 -/
theorem test_decode_branch :
    dec [0x10, 0x05] = some (.bpl 0x05) ∧ dec [0x30, 0xFC] = some (.bmi 0xFC) ∧ dec [0x50, 0x02] = some (.bvc 0x02) ∧
    dec [0x70, 0x02] = some (.bvs 0x02) ∧ dec [0x90, 0x7F] = some (.bcc 0x7F) ∧ dec [0xB0, 0x80] = some (.bcs 0x80) ∧
    dec [0xD0, 0xFD] = some (.bne 0xFD) ∧ dec [0xF0, 0xFE] = some (.beq 0xFE) := by decide
/-- 44 R210 to R217 -/
theorem test_decode_flag :
    dec [0x18] = some .clc ∧ dec [0x38] = some .sec ∧ dec [0x58] = some .cli ∧ dec [0x78] = some .sei ∧
    dec [0xB8] = some .clv ∧ dec [0xD8] = some .cld ∧ dec [0xF8] = some .sed ∧ dec [0xEA] = some .nop := by decide
/-- 45 R220 to R228 -/
theorem test_decode_unofficial :
    dec [0x1B, 0x00, 0x03] = some (.slo (.aby 0x0300)) ∧ dec [0x27, 0x10] = some (.rla (.zp 0x10)) ∧
    dec [0x43, 0x10] = some (.sre (.izx 0x10)) ∧ dec [0x7F, 0x00, 0x03] = some (.rra (.abx 0x0300)) ∧
    dec [0x97, 0x10] = some (.sax (.zpy 0x10)) ∧ dec [0xBF, 0xFF, 0x10] = some (.lax (.aby 0x10FF)) ∧
    dec [0xC7, 0x10] = some (.dcp (.zp 0x10)) ∧ dec [0xF3, 0x10] = some (.isc (.izy 0x10)) ∧
    dec [0x04] = some (.xxx 0x04) := by decide
/-- A byte list that ends early is no instruction; the table's numbering of a two-byte row. -/
theorem test_decode_table_word :
    dec [0xAD, 0x00] = none ∧ dec [] = none ∧ decodeTableWord 16 0x80A9 = some (.lda (.imm 0x80)) ∧
    decodeTableWord 8 0xEA = some .nop ∧ decodeTableWord 24 0x10807D = some (.adc (.mem (.abx 0x1080))) := by decide

/-! ## One step of the CPU -/

/-- The spec's parameters, with numbers in place of the three the spec leaves open. -/
def cfg : Config := { Config.standard with sampleRate := 44100, saveMagic := 0x1234, saveVersion := 1 }

/-- The state of the single-instruction vectors (95 §1): bytes in PRG ROM at `pc`, the registers, work RAM. -/
def start (pc : Word) (bytes : List Byte) (a x y sp p : Byte) (ram : Memory) : State :=
  { State.reset with
    cfg := cfg
    cart := { Cartridge.empty with prg := Memory.ofBytes ((pc.toNat - 0x8000) % 16384) bytes }
    cpu := { State.reset.cpu with pc := pc, a := a, x := x, y := y, sp := sp, p := p }
    ram := ram }

/-- `A`, `X`, `Y`, `SP`, `P`, `PC`, `skip` and the byte at an address after a CPU step. -/
def after (addr : Word) : Host.Outcome State Fault Refusal → Option (List Nat)
  | .next t =>
    some [t.cpu.a.toNat, t.cpu.x.toNat, t.cpu.y.toNat, t.cpu.sp.toNat, t.cpu.p.toNat, t.cpu.pc.toNat,
      t.cpu.skip.toNat, (byteAt t addr).toNat]
  | _ => none

/-- LDA ($FF),Y pointer wraps, page cross (+1) -/
theorem test_lda :
    after 0x0000 (cpuStep (start 0x8000 [0xB1, 0xFF] 0x00 0x00 0x01 0xFD 0x24
      [(0x0000, 0x02), (0x00FF, 0xFF), (0x0300, 0x99)])) =
    some [0x99, 0x00, 0x01, 0xFD, 0xA4, 0x8002, 6, 0x02] := by decide

/-- LDX $F0,Y (ZPY wraps) -/
theorem test_ldx :
    after 0x0000 (cpuStep (start 0x8000 [0xB6, 0xF0] 0x00 0x00 0x20 0xFD 0x24
      [(0x0010, 0xAB)])) =
    some [0x00, 0xAB, 0x20, 0xFD, 0xA4, 0x8002, 4, 0x00] := by decide

/-- LDY $0300,X -/
theorem test_ldy :
    after 0x0000 (cpuStep (start 0x8000 [0xBC, 0x00, 0x03] 0x00 0x05 0x00 0xFD 0x24
      [(0x0305, 0x80)])) =
    some [0x00, 0x05, 0x80, 0xFD, 0xA4, 0x8003, 4, 0x00] := by decide

/-- STA $10FF,X page cross, no bonus -/
theorem test_sta :
    after 0x1100 (cpuStep (start 0x8000 [0x9D, 0xFF, 0x10] 0x5A 0x01 0x00 0xFD 0x24 [])) =
    some [0x5A, 0x01, 0x00, 0xFD, 0x24, 0x8003, 5, 0x5A] := by decide

/-- STX $10,Y (ZPY) -/
theorem test_stx :
    after 0x000F (cpuStep (start 0x8000 [0x96, 0x10] 0x00 0x77 0xFF 0xFD 0x24 [])) =
    some [0x00, 0x77, 0xFF, 0xFD, 0x24, 0x8002, 4, 0x77] := by decide

/-- STY $10,X (ZPX) -/
theorem test_sty :
    after 0x0011 (cpuStep (start 0x8000 [0x94, 0x10] 0x00 0x01 0x66 0xFD 0x24 [])) =
    some [0x00, 0x01, 0x66, 0xFD, 0x24, 0x8002, 4, 0x66] := by decide

/-- TAX -/
theorem test_tax :
    after 0x0000 (cpuStep (start 0x8000 [0xAA] 0x80 0x00 0x00 0xFD 0x24 [])) =
    some [0x80, 0x80, 0x00, 0xFD, 0xA4, 0x8001, 2, 0x00] := by decide

/-- TAY (zero) -/
theorem test_tay :
    after 0x0000 (cpuStep (start 0x8000 [0xA8] 0x00 0x00 0x55 0xFD 0xA4 [])) =
    some [0x00, 0x00, 0x00, 0xFD, 0x26, 0x8001, 2, 0x00] := by decide

/-- TXA -/
theorem test_txa :
    after 0x0000 (cpuStep (start 0x8000 [0x8A] 0x00 0x7F 0x00 0xFD 0xA6 [])) =
    some [0x7F, 0x7F, 0x00, 0xFD, 0x24, 0x8001, 2, 0x00] := by decide

/-- TYA -/
theorem test_tya :
    after 0x0000 (cpuStep (start 0x8000 [0x98] 0x00 0x00 0xFF 0xFD 0x24 [])) =
    some [0xFF, 0x00, 0xFF, 0xFD, 0xA4, 0x8001, 2, 0x00] := by decide

/-- TSX after reset -/
theorem test_tsx :
    after 0x0000 (cpuStep (start 0x8000 [0xBA] 0x00 0x00 0x00 0xFD 0x24 [])) =
    some [0x00, 0xFD, 0x00, 0xFD, 0xA4, 0x8001, 2, 0x00] := by decide

/-- TXS writes no flag -/
theorem test_txs :
    after 0x0000 (cpuStep (start 0x8000 [0x9A] 0x00 0x00 0x00 0xFD 0xA4 [])) =
    some [0x00, 0x00, 0x00, 0x00, 0xA4, 0x8001, 2, 0x00] := by decide

/-- PHA with SP=00 (wraps to FF) -/
theorem test_pha :
    after 0x0100 (cpuStep (start 0x8000 [0x48] 0x42 0x00 0x00 0x00 0x24 [])) =
    some [0x42, 0x00, 0x00, 0xFF, 0x24, 0x8001, 3, 0x42] := by decide

/-- PHP with all flags -/
theorem test_php :
    after 0x01FD (cpuStep (start 0x8000 [0x08] 0x00 0x00 0x00 0xFD 0xEF [])) =
    some [0x00, 0x00, 0x00, 0xFC, 0xEF, 0x8001, 3, 0xFF] := by decide

/-- PLA (zero) -/
theorem test_pla :
    after 0x0000 (cpuStep (start 0x8000 [0x68] 0x55 0x00 0x00 0xFF 0x24 [])) =
    some [0x00, 0x00, 0x00, 0x00, 0x26, 0x8001, 4, 0x00] := by decide

/-- PLP of FF: B dropped, bit 5 kept -/
theorem test_plp :
    after 0x0000 (cpuStep (start 0x8000 [0x28] 0x00 0x00 0x00 0xFC 0x24
      [(0x01FD, 0xFF)])) =
    some [0x00, 0x00, 0x00, 0xFD, 0xEF, 0x8001, 4, 0x00] := by decide

/-- ADC #$50 (source §8: signed overflow) -/
theorem test_adc :
    after 0x0000 (cpuStep (start 0x8000 [0x69, 0x50] 0x50 0x00 0x00 0xFD 0x24 [])) =
    some [0xA0, 0x00, 0x00, 0xFD, 0xE4, 0x8002, 2, 0x00] := by decide

/-- SBC #$B0 (50-B0: V, borrow) -/
theorem test_sbc :
    after 0x0000 (cpuStep (start 0x8000 [0xE9, 0xB0] 0x50 0x00 0x00 0xFD 0x25 [])) =
    some [0xA0, 0x00, 0x00, 0xFD, 0xE4, 0x8002, 2, 0x00] := by decide

/-- AND #$00 (Z) -/
theorem test_and :
    after 0x0000 (cpuStep (start 0x8000 [0x29, 0x00] 0xFF 0x00 0x00 0xFD 0xA4 [])) =
    some [0x00, 0x00, 0x00, 0xFD, 0x26, 0x8002, 2, 0x00] := by decide

/-- ORA ($10,X) -/
theorem test_ora :
    after 0x0000 (cpuStep (start 0x8000 [0x01, 0x10] 0x0F 0x02 0x00 0xFD 0x24
      [(0x0013, 0x02), (0x0200, 0xF0)])) =
    some [0xFF, 0x02, 0x00, 0xFD, 0xA4, 0x8002, 6, 0x00] := by decide

/-- EOR $10 -/
theorem test_eor :
    after 0x0000 (cpuStep (start 0x8000 [0x45, 0x10] 0x55 0x00 0x00 0xFD 0x24
      [(0x0010, 0xFF)])) =
    some [0xAA, 0x00, 0x00, 0xFD, 0xA4, 0x8002, 3, 0x00] := by decide

/-- CMP #$01 (80 vs 01: C, no N, V untouched) -/
theorem test_cmp :
    after 0x0000 (cpuStep (start 0x8000 [0xC9, 0x01] 0x80 0x00 0x00 0xFD 0x64 [])) =
    some [0x80, 0x00, 0x00, 0xFD, 0x65, 0x8002, 2, 0x00] := by decide

/-- CPX #$05 less -/
theorem test_cpx :
    after 0x0000 (cpuStep (start 0x8000 [0xE0, 0x05] 0x00 0x04 0x00 0xFD 0x25 [])) =
    some [0x00, 0x04, 0x00, 0xFD, 0xA4, 0x8002, 2, 0x00] := by decide

/-- CPY $0300 -/
theorem test_cpy :
    after 0x0000 (cpuStep (start 0x8000 [0xCC, 0x00, 0x03] 0x00 0x00 0x01 0xFD 0x24
      [(0x0300, 0x02)])) =
    some [0x00, 0x00, 0x01, 0xFD, 0xA4, 0x8003, 4, 0x00] := by decide

/-- BIT $10 (N,V from memory, Z from and) -/
theorem test_bit :
    after 0x0000 (cpuStep (start 0x8000 [0x24, 0x10] 0x01 0x00 0x00 0xFD 0x24
      [(0x0010, 0xC0)])) =
    some [0x01, 0x00, 0x00, 0xFD, 0xE6, 0x8002, 3, 0x00] := by decide

/-- INC $F0,X -/
theorem test_inc :
    after 0x0010 (cpuStep (start 0x8000 [0xF6, 0xF0] 0x00 0x20 0x00 0xFD 0x24
      [(0x0010, 0x7F)])) =
    some [0x00, 0x20, 0x00, 0xFD, 0xA4, 0x8002, 6, 0x80] := by decide

/-- DEC $0300 wraps to FF -/
theorem test_dec :
    after 0x0300 (cpuStep (start 0x8000 [0xCE, 0x00, 0x03] 0x00 0x00 0x00 0xFD 0x24 [])) =
    some [0x00, 0x00, 0x00, 0xFD, 0xA4, 0x8003, 6, 0xFF] := by decide

/-- INX wraps -/
theorem test_inx :
    after 0x0000 (cpuStep (start 0x8000 [0xE8] 0x00 0xFF 0x00 0xFD 0x24 [])) =
    some [0x00, 0x00, 0x00, 0xFD, 0x26, 0x8001, 2, 0x00] := by decide

/-- INY -/
theorem test_iny :
    after 0x0000 (cpuStep (start 0x8000 [0xC8] 0x00 0x00 0x7F 0xFD 0x24 [])) =
    some [0x00, 0x00, 0x80, 0xFD, 0xA4, 0x8001, 2, 0x00] := by decide

/-- DEX to zero -/
theorem test_dex :
    after 0x0000 (cpuStep (start 0x8000 [0xCA] 0x00 0x01 0x00 0xFD 0x24 [])) =
    some [0x00, 0x00, 0x00, 0xFD, 0x26, 0x8001, 2, 0x00] := by decide

/-- DEY wraps -/
theorem test_dey :
    after 0x0000 (cpuStep (start 0x8000 [0x88] 0x00 0x00 0x00 0xFD 0x24 [])) =
    some [0x00, 0x00, 0xFF, 0xFD, 0xA4, 0x8001, 2, 0x00] := by decide

/-- ASL A -/
theorem test_asl :
    after 0x0000 (cpuStep (start 0x8000 [0x0A] 0x81 0x00 0x00 0xFD 0x24 [])) =
    some [0x02, 0x00, 0x00, 0xFD, 0x25, 0x8001, 2, 0x00] := by decide

/-- LSR $F8,X (ZPX wraps) -/
theorem test_lsr :
    after 0x0008 (cpuStep (start 0x8000 [0x56, 0xF8] 0x00 0x10 0x00 0xFD 0x24
      [(0x0008, 0x03)])) =
    some [0x00, 0x10, 0x00, 0xFD, 0x25, 0x8002, 6, 0x01] := by decide

/-- ROL $0300,X (7 cycles) -/
theorem test_rol :
    after 0x0305 (cpuStep (start 0x8000 [0x3E, 0x00, 0x03] 0x00 0x05 0x00 0xFD 0x25
      [(0x0305, 0x80)])) =
    some [0x00, 0x05, 0x00, 0xFD, 0x25, 0x8003, 7, 0x01] := by decide

/-- ROR $0200 with carry -/
theorem test_ror :
    after 0x0200 (cpuStep (start 0x8000 [0x6E, 0x00, 0x02] 0x00 0x00 0x00 0xFD 0x25 [])) =
    some [0x00, 0x00, 0x00, 0xFD, 0xA4, 0x8003, 6, 0x80] := by decide

/-- JMP $1234 -/
theorem test_jmp :
    after 0x0000 (cpuStep (start 0x8000 [0x4C, 0x34, 0x12] 0x00 0x00 0x00 0xFD 0x24 [])) =
    some [0x00, 0x00, 0x00, 0xFD, 0x24, 0x1234, 3, 0x00] := by decide

/-- JSR at 80FE (pushed 8100) -/
theorem test_jsr :
    after 0x01FD (cpuStep (start 0x80FE [0x20, 0x00, 0x90] 0x00 0x00 0x00 0xFD 0x24 [])) =
    some [0x00, 0x00, 0x00, 0xFB, 0x24, 0x9000, 6, 0x81] := by decide

/-- RTS of FFFF wraps to 0000 -/
theorem test_rts :
    after 0x0000 (cpuStep (start 0x9000 [0x60] 0x00 0x00 0x00 0xFB 0x24
      [(0x01FC, 0xFF), (0x01FD, 0xFF)])) =
    some [0x00, 0x00, 0x00, 0xFD, 0x24, 0x0000, 6, 0x00] := by decide

/-- RTI (status FF: B dropped; no +1 on PC) -/
theorem test_rti :
    after 0x0000 (cpuStep (start 0x9000 [0x40] 0x00 0x00 0x00 0xFA 0x24
      [(0x01FB, 0xFF), (0x01FC, 0x05), (0x01FD, 0x80)])) =
    some [0x00, 0x00, 0x00, 0xFD, 0xEF, 0x8005, 6, 0x00] := by decide

/-- BRK with D=1: D kept -/
theorem test_brk :
    after 0x01FB (cpuStep (start 0x8000 [0x00] 0x00 0x00 0x00 0xFD 0x29 [])) =
    some [0x00, 0x00, 0x00, 0xFA, 0x2D, 0x8002, 7, 0x39] := by decide

/-- BPL taken forward, same page -/
theorem test_bpl :
    after 0x0000 (cpuStep (start 0x8000 [0x10, 0x05] 0x00 0x00 0x00 0xFD 0x24 [])) =
    some [0x00, 0x00, 0x00, 0xFD, 0x24, 0x8007, 3, 0x00] := by decide

/-- BMI taken backward, same page -/
theorem test_bmi :
    after 0x0000 (cpuStep (start 0x8010 [0x30, 0xFC] 0x00 0x00 0x00 0xFD 0xA4 [])) =
    some [0x00, 0x00, 0x00, 0xFD, 0xA4, 0x800E, 3, 0x00] := by decide

/-- BVC taken -/
theorem test_bvc :
    after 0x0000 (cpuStep (start 0x8000 [0x50, 0x02] 0x00 0x00 0x00 0xFD 0x24 [])) =
    some [0x00, 0x00, 0x00, 0xFD, 0x24, 0x8004, 3, 0x00] := by decide

/-- BVS taken -/
theorem test_bvs :
    after 0x0000 (cpuStep (start 0x8000 [0x70, 0x02] 0x00 0x00 0x00 0xFD 0x64 [])) =
    some [0x00, 0x00, 0x00, 0xFD, 0x64, 0x8004, 3, 0x00] := by decide

/-- BCC taken across a page forward (+2) -/
theorem test_bcc :
    after 0x0000 (cpuStep (start 0x80F0 [0x90, 0x7F] 0x00 0x00 0x00 0xFD 0x24 [])) =
    some [0x00, 0x00, 0x00, 0xFD, 0x24, 0x8171, 4, 0x00] := by decide

/-- BCS taken across a page backward (+2) -/
theorem test_bcs :
    after 0x0000 (cpuStep (start 0x8000 [0xB0, 0x80] 0x00 0x00 0x00 0xFD 0x25 [])) =
    some [0x00, 0x00, 0x00, 0xFD, 0x25, 0x7F82, 4, 0x00] := by decide

/-- BNE at 80FD, next at 80FF, target 8101 (+2) -/
theorem test_bne :
    after 0x0000 (cpuStep (start 0x80FD [0xD0, 0x02] 0x00 0x00 0x00 0xFD 0x24 [])) =
    some [0x00, 0x00, 0x00, 0xFD, 0x24, 0x8101, 4, 0x00] := by decide

/-- BEQ to itself -/
theorem test_beq :
    after 0x0000 (cpuStep (start 0x8000 [0xF0, 0xFE] 0x00 0x00 0x00 0xFD 0x26 [])) =
    some [0x00, 0x00, 0x00, 0xFD, 0x26, 0x8000, 3, 0x00] := by decide

/-- CLC -/
theorem test_clc :
    after 0x0000 (cpuStep (start 0x8000 [0x18] 0x00 0x00 0x00 0xFD 0x25 [])) =
    some [0x00, 0x00, 0x00, 0xFD, 0x24, 0x8001, 2, 0x00] := by decide

/-- SEC -/
theorem test_sec :
    after 0x0000 (cpuStep (start 0x8000 [0x38] 0x00 0x00 0x00 0xFD 0x24 [])) =
    some [0x00, 0x00, 0x00, 0xFD, 0x25, 0x8001, 2, 0x00] := by decide

/-- CLI -/
theorem test_cli :
    after 0x0000 (cpuStep (start 0x8000 [0x58] 0x00 0x00 0x00 0xFD 0x24 [])) =
    some [0x00, 0x00, 0x00, 0xFD, 0x20, 0x8001, 2, 0x00] := by decide

/-- SEI -/
theorem test_sei :
    after 0x0000 (cpuStep (start 0x8000 [0x78] 0x00 0x00 0x00 0xFD 0x20 [])) =
    some [0x00, 0x00, 0x00, 0xFD, 0x24, 0x8001, 2, 0x00] := by decide

/-- CLV -/
theorem test_clv :
    after 0x0000 (cpuStep (start 0x8000 [0xB8] 0x00 0x00 0x00 0xFD 0x64 [])) =
    some [0x00, 0x00, 0x00, 0xFD, 0x24, 0x8001, 2, 0x00] := by decide

/-- CLD -/
theorem test_cld :
    after 0x0000 (cpuStep (start 0x8000 [0xD8] 0x00 0x00 0x00 0xFD 0x2C [])) =
    some [0x00, 0x00, 0x00, 0xFD, 0x24, 0x8001, 2, 0x00] := by decide

/-- SED -/
theorem test_sed :
    after 0x0000 (cpuStep (start 0x8000 [0xF8] 0x00 0x00 0x00 0xFD 0x24 [])) =
    some [0x00, 0x00, 0x00, 0xFD, 0x2C, 0x8001, 2, 0x00] := by decide

/-- NOP -/
theorem test_nop :
    after 0x0000 (cpuStep (start 0x8000 [0xEA] 0x12 0x34 0x56 0xFD 0xE5 [])) =
    some [0x12, 0x34, 0x56, 0xFD, 0xE5, 0x8001, 2, 0x00] := by decide

/-- SLO $0300,Y (7 cycles) -/
theorem test_slo :
    after 0x0301 (cpuStep (start 0x8000 [0x1B, 0x00, 0x03] 0x00 0x00 0x01 0xFD 0x24
      [(0x0301, 0x80)])) =
    some [0x00, 0x00, 0x01, 0xFD, 0x27, 0x8003, 7, 0x00] := by decide

/-- RLA $10 -/
theorem test_rla :
    after 0x0010 (cpuStep (start 0x8000 [0x27, 0x10] 0x0F 0x00 0x00 0xFD 0x25
      [(0x0010, 0x81)])) =
    some [0x03, 0x00, 0x00, 0xFD, 0x25, 0x8002, 5, 0x03] := by decide

/-- SRE $10 -/
theorem test_sre :
    after 0x0010 (cpuStep (start 0x8000 [0x47, 0x10] 0xFF 0x00 0x00 0xFD 0x24
      [(0x0010, 0x03)])) =
    some [0xFE, 0x00, 0x00, 0xFD, 0xA5, 0x8002, 5, 0x01] := by decide

/-- RRA $10 (ROR gives 00 with carry out 1; ADC adds that carry) -/
theorem test_rra :
    after 0x0010 (cpuStep (start 0x8000 [0x67, 0x10] 0x7F 0x00 0x00 0xFD 0x24
      [(0x0010, 0x01)])) =
    some [0x80, 0x00, 0x00, 0xFD, 0xE4, 0x8002, 5, 0x00] := by decide

/-- SAX ($10,X) -/
theorem test_sax :
    after 0x0200 (cpuStep (start 0x8000 [0x83, 0x10] 0xAA 0x0A 0x00 0xFD 0x24
      [(0x001B, 0x02)])) =
    some [0xAA, 0x0A, 0x00, 0xFD, 0x24, 0x8002, 6, 0x0A] := by decide

/-- LAX $10FF,Y page cross (+1) -/
theorem test_lax :
    after 0x0000 (cpuStep (start 0x8000 [0xBF, 0xFF, 0x10] 0x00 0x00 0x01 0xFD 0x24
      [(0x0100, 0x80)])) =
    some [0x80, 0x80, 0x01, 0xFD, 0xA4, 0x8003, 5, 0x00] := by decide

/-- DCP $10 below -/
theorem test_dcp :
    after 0x0010 (cpuStep (start 0x8000 [0xC7, 0x10] 0x10 0x00 0x00 0xFD 0x25
      [(0x0010, 0x21)])) =
    some [0x10, 0x00, 0x00, 0xFD, 0xA4, 0x8002, 5, 0x20] := by decide

/-- ISC ($10),Y (8 cycles, no bonus) -/
theorem test_isc :
    after 0x0300 (cpuStep (start 0x8000 [0xF3, 0x10] 0x05 0x00 0x01 0xFD 0x25
      [(0x0010, 0xFF), (0x0011, 0x02), (0x0300, 0x01)])) =
    some [0x03, 0x00, 0x01, 0xFD, 0x25, 0x8002, 8, 0x02] := by decide

/-- XXX (silicon: SHX) -/
theorem test_xxx :
    after 0x0201 (cpuStep (start 0x8000 [0x9E, 0x00, 0x02] 0x00 0xFF 0x01 0xFD 0x24
      [(0x0201, 0x55)])) =
    some [0x00, 0xFF, 0x01, 0xFD, 0x24, 0x8001, 0, 0x55] := by decide

/-- JMP ($02FF): high byte from $0200, not $0300 -/
theorem test_jmp_indirect :
    after 0x0000 (cpuStep (start 0x8000 [0x6C, 0xFF, 0x02] 0x00 0x00 0x00 0xFD 0x24
      [(0x0200, 0x12), (0x02FF, 0x34), (0x0300, 0x99)])) =
    some [0x00, 0x00, 0x00, 0xFD, 0x24, 0x1234, 5, 0x00] := by decide

/-! ## The opcode table: length and cycles of all 256 rows (spec/opcode_table.json)

The four branches whose condition holds with the flags clear are charged one cycle more (43 R196). -/

/-- Length and cycles of the opcode byte, run from registers 0 with operand bytes 0x10, 0x03. -/
def rowOf (op : Byte) : Nat × Nat :=
  match exec (decodeBytes op 0x10 0x03) (start 0x8000 [] 0 0 0 0xFD 0x24 []) with
  | .next t => (opcodeLength op, t.cpu.skip.toNat)
  | _ => (0, 0)

/-- The sixteen opcode bytes with high digit `h`. -/
def row (h : Nat) : List (Nat × Nat) := (List.range 16).map fun l => rowOf (BitVec.ofNat 8 (16 * h + l))

theorem test_row_0 : row 0x0 =
    [(1, 7), (2, 6), (1, 0), (2, 8), (1, 0), (2, 3), (2, 5), (2, 5),
      (1, 3), (2, 2), (1, 2), (1, 0), (1, 0), (3, 4), (3, 6), (3, 6)] := by decide
theorem test_row_1 : row 0x1 =
    [(2, 3), (2, 5), (1, 0), (2, 8), (1, 0), (2, 4), (2, 6), (2, 6),
      (1, 2), (3, 4), (1, 0), (3, 7), (1, 0), (3, 4), (3, 7), (3, 7)] := by decide
theorem test_row_2 : row 0x2 =
    [(3, 6), (2, 6), (1, 0), (2, 8), (2, 3), (2, 3), (2, 5), (2, 5),
      (1, 4), (2, 2), (1, 2), (1, 0), (3, 4), (3, 4), (3, 6), (3, 6)] := by decide
theorem test_row_3 : row 0x3 =
    [(2, 2), (2, 5), (1, 0), (2, 8), (1, 0), (2, 4), (2, 6), (2, 6),
      (1, 2), (3, 4), (1, 0), (3, 7), (1, 0), (3, 4), (3, 7), (3, 7)] := by decide
theorem test_row_4 : row 0x4 =
    [(1, 6), (2, 6), (1, 0), (2, 8), (1, 0), (2, 3), (2, 5), (2, 5),
      (1, 3), (2, 2), (1, 2), (1, 0), (3, 3), (3, 4), (3, 6), (3, 6)] := by decide
theorem test_row_5 : row 0x5 =
    [(2, 3), (2, 5), (1, 0), (2, 8), (1, 0), (2, 4), (2, 6), (2, 6),
      (1, 2), (3, 4), (1, 0), (3, 7), (1, 0), (3, 4), (3, 7), (3, 7)] := by decide
theorem test_row_6 : row 0x6 =
    [(1, 6), (2, 6), (1, 0), (2, 8), (1, 0), (2, 3), (2, 5), (2, 5),
      (1, 4), (2, 2), (1, 2), (1, 0), (3, 5), (3, 4), (3, 6), (3, 6)] := by decide
theorem test_row_7 : row 0x7 =
    [(2, 2), (2, 5), (1, 0), (2, 8), (1, 0), (2, 4), (2, 6), (2, 6),
      (1, 2), (3, 4), (1, 0), (3, 7), (1, 0), (3, 4), (3, 7), (3, 7)] := by decide
theorem test_row_8 : row 0x8 =
    [(1, 0), (2, 6), (1, 0), (2, 6), (2, 3), (2, 3), (2, 3), (2, 3),
      (1, 2), (1, 0), (1, 2), (1, 0), (3, 4), (3, 4), (3, 4), (3, 4)] := by decide
theorem test_row_9 : row 0x9 =
    [(2, 3), (2, 6), (1, 0), (1, 0), (2, 4), (2, 4), (2, 4), (2, 4),
      (1, 2), (3, 5), (1, 2), (1, 0), (1, 0), (3, 5), (1, 0), (1, 0)] := by decide
theorem test_row_A : row 0xA =
    [(2, 2), (2, 6), (2, 2), (2, 6), (2, 3), (2, 3), (2, 3), (2, 3),
      (1, 2), (2, 2), (1, 2), (1, 0), (3, 4), (3, 4), (3, 4), (3, 4)] := by decide
theorem test_row_B : row 0xB =
    [(2, 2), (2, 5), (1, 0), (2, 5), (2, 4), (2, 4), (2, 4), (2, 4),
      (1, 2), (3, 4), (1, 2), (1, 0), (3, 4), (3, 4), (3, 4), (3, 4)] := by decide
theorem test_row_C : row 0xC =
    [(2, 2), (2, 6), (1, 0), (2, 8), (2, 3), (2, 3), (2, 5), (2, 5),
      (1, 2), (2, 2), (1, 2), (1, 0), (3, 4), (3, 4), (3, 6), (3, 6)] := by decide
theorem test_row_D : row 0xD =
    [(2, 3), (2, 5), (1, 0), (2, 8), (1, 0), (2, 4), (2, 6), (2, 6),
      (1, 2), (3, 4), (1, 0), (3, 7), (1, 0), (3, 4), (3, 7), (3, 7)] := by decide
theorem test_row_E : row 0xE =
    [(2, 2), (2, 6), (1, 0), (2, 8), (2, 3), (2, 3), (2, 5), (2, 5),
      (1, 2), (2, 2), (1, 2), (1, 0), (3, 4), (3, 4), (3, 6), (3, 6)] := by decide
theorem test_row_F : row 0xF =
    [(2, 2), (2, 5), (1, 0), (2, 8), (1, 0), (2, 4), (2, 6), (2, 6),
      (1, 2), (3, 4), (1, 0), (3, 7), (1, 0), (3, 4), (3, 7), (3, 7)] := by decide

/-! ## Interrupts, devices, reset (95 §5 to §7) -/

/-- Power-on with a cartridge of `n` PRG units and a mapper. -/
def machine (n : Nat) (m : Mapper) : State := powerOn cfg { Cartridge.empty with prgUnits := n } m

/-- S6: both requests latched with I clear: NMI first, the IRQ stays latched. -/
theorem test_nmi_first :
    (let s := start 0x8001 [0xEA] 0 0 0 0xFD 0x20 []
     let s := { s with cpu := { s.cpu with latch := { nmi := true, irq := true, brk := false } } }
     match cpuStep s with
     | .next t => (t.cpu.intKind, t.cpu.latch.irq, t.cpu.skip, t.ram)
     | _ => (none, false, 0, [])) =
    (some .nmi, true, 7, [(0x1FB, 0x20), (0x1FC, 0x01), (0x1FD, 0x80)]) := by decide
/-- S3: a BRK sequence whose vector is chosen with an NMI latched goes to the NMI vector. -/
theorem test_hijack :
    (let s := start 0xFFFA [0x00, 0x90, 0x00, 0x80, 0x00, 0xA0] 0 0 0 0xFA 0x24 []
     let s := { s with
       cpu := { s.cpu with
         pc := 0x8002, skip := 3, inInterrupt := true, intKind := some .brk
         latch := { nmi := true, irq := false, brk := false } } }
     match cpuStep s with
     | .next t => (t.cpu.pc, t.cpu.latch.nmi, t.cpu.inInterrupt, t.cpu.skip)
     | _ => (0, true, true, 0)) = (0x9000, false, false, 2) := by decide
/-- 95 §6: the stall of an OAM DMA begun in an odd and in an even CPU cycle. -/
theorem test_dma_stall :
    (let s := start 0x8000 [0x8D, 0x14, 0x40] 2 0 0 0xFD 0x24 []
     let run := fun n : BitVec 64 =>
       match cpuStep { s with cpu := { s.cpu with cyclesTotal := n } } with
       | .next t => t.cpu.skip.toNat
       | _ => 0
     (run 2, run 3)) = (518, 517) := by decide
/-- BUS-1, BUS-2, BUS-6, BUS-7. -/
theorem test_bus_windows :
    (let s := machine 1 .nrom
     (byteAt (busWrite s 0x0000 0xAA) 0x1800, byteAt (busWrite s 0x1FFF 0x55) 0x07FF,
       byteAt (busWrite s 0x6000 0x12) 0x6000, byteAt (busWrite s 0x8000 0xFF) 0x8000,
       byteAt s 0x5000)) = (0xAA, 0x55, 0x12, 0x00, 0x00) := by decide
/-- CTL-1. -/
theorem test_controller :
    (let s := writeAll [(0x4016, 0x01), (0x4016, 0x00)] (setButtons (machine 1 .nrom) 0x09 0x00)
     (List.range 9).map fun n => (busRead (readTimes 0x4016 n s) 0x4016).1.toNat) =
    [0x41, 0x40, 0x40, 0x41, 0x40, 0x40, 0x40, 0x40, 0x40] := by decide
/-- PPU-1: the two-write registers. -/
theorem test_scroll_writes :
    (let s := writeAll [(0x2005, 0x7D), (0x2005, 0x5E)] (machine 1 .nrom)
     let u := writeAll [(0x2000, 0x03), (0x2006, 0x3D), (0x2006, 0xF0)] s
     (s.ppu.t, s.ppu.x, s.ppu.w, u.ppu.t, u.ppu.v, u.ppu.w)) =
    (0x616F, 5, false, 0x3DF0, 0x3DF0, false) := by decide
/-- PPU-2: the read buffer. -/
theorem test_read_buffer :
    (let s := writeAll [(0x2006, 0x20), (0x2006, 0x00), (0x2007, 0x11), (0x2007, 0x22), (0x2006, 0x20),
       (0x2006, 0x00)] (machine 1 .nrom)
     ((busRead s 0x2007).1, (busRead (readTimes 0x2007 1 s) 0x2007).1,
       (busRead (readTimes 0x2007 2 s) 0x2007).1)) = (0x00, 0x11, 0x22) := by decide
/-- PPU-3: the palette: index 10 aliases 00, six bits are kept, index 11 aliases nothing. -/
theorem test_palette :
    (let s := writeAll [(0x2006, 0x3F), (0x2006, 0x14), (0x2007, 0xFF)] (machine 1 .nrom)
     (ppuRead s 0x3F04, ppuRead s 0x3F14, ppuRead s 0x3F11)) = (0x3F, 0x3F, 0x00) := by decide
/-- PPU-6: the scroll increments and reloads. -/
theorem test_scroll_increments :
    (incCoarseX 0x041F, incY 0x73A0, incY 0x73E0, incY 0x7BA0, reloadX 0x7BFF 0, reloadY 0x7FFF 0) =
    (0x0000, 0x0800, 0x0000, 0x0000, 0x7BE0, 0x041F) := by decide
/-- 62 R337: greyscale and emphasis go to the host with the frame published at (241, 1). -/
theorem test_frame_colour :
    (let s := writeAll [(0x2001, 0xA1)] (machine 1 .nrom)
     let t := ppuStep { s with ppu := { s.ppu with scanline := 241, dot := 1 } }
     (shownColour s, shownColour t)) = ((false, 0), (true, 5)) := by decide
/-- PPU-10: a status read at (241, 1) suppresses the flag and the NMI. -/
theorem test_vblank_race :
    (let s := busWrite (machine 1 .nrom) 0x2000 0x80
     let s := { s with ppu := { s.ppu with scanline := 241, dot := 1 } }
     let t := ppuStep (busRead s 0x2002).2
     (bitOf t.ppu.status 7, t.cpu.latch.nmi, bitOf (ppuStep s).ppu.status 7, (ppuStep s).cpu.latch.nmi)) =
    (false, false, true, true) := by decide
/-- 62 R352, E5: the short pre-render line of an odd frame. -/
theorem test_short_line :
    (let s := busWrite (machine 1 .nrom) 0x2001 0x08
     let t := ppuStep { s with ppu := { s.ppu with dot := 339, frame := 1 } }
     (t.ppu.scanline, t.ppu.dot, t.ppu.frame)) = (0, 0, 2) := by decide
/-- APU-2 and APU-3: the length load, the first sweep step, and the targets with negate. -/
theorem test_pulse :
    (let s := writeAll [(0x4015, 0x01), (0x4002, 0xC8), (0x4003, 0x08), (0x4001, 0x81)] (machine 1 .nrom)
     let u := busWrite s 0x4001 0x89
     (s.apu.pulse1.length, (busRead s 0x4015).1, (u.apu.pulse1.target true, u.apu.pulse1.target false))) =
    (254, 0x01, (200 - 100 - 1, 200 - 100)) := by decide
/-- APU-5: a status read clears the frame flag alone. -/
theorem test_audio_status :
    (let s := machine 1 .nrom
     let s := { s with apu := { s.apu with frameIrq := true, dmcIrq := true } }
     ((busRead s 0x4015).1, (busRead (busRead s 0x4015).2 0x4015).1)) = (0xC0, 0x80) := by decide
/-- D35: the noise timer runs in the ticks that leave `half` 0. -/
theorem test_noise_half_rate :
    (let a := { Apu.initial with noise := { Apu.initial.noise with timer := 3 } }
     let b := a.tickBefore
     (b.half, b.noise.timer, b.tickBefore.half, b.tickBefore.noise.timer)) = (true, 3, false, 2) := by decide
/-- E6: silence maps to zero. -/
theorem test_silence : pulseTable 0 = 0 ∧ tndTable 0 = 0 := ⟨rfl, rfl⟩
/-- MAP-2: five serial writes into `control`; the mirroring follows. -/
theorem test_mmc1 :
    (let s := machine 8 (.mmc1 { shift := 0, control := 0, chr0 := 0, chr1 := 0, prg := 0 })
     let t := writeAll ([0x00, 0x01, 0x01, 0x01, 0x00].map fun d => (0x8000, d)) s
     (t.mapper, t.ppu.mirroring)) =
    (.mmc1 { shift := 0x10, control := 0x0E, chr0 := 0, chr1 := 0, prg := 0 }, .vertical) := by decide
/-- 64 R463: the first four writes go to other registers' ranges, the fifth to `$E000`: `prg` takes the value. -/
theorem test_mmc1_fifth_address :
    (let s := machine 8 (.mmc1 { shift := 0, control := 0, chr0 := 0, chr1 := 0, prg := 0 })
     (writeAll [(0x8000, 0x01), (0x9FFF, 0x7F), (0xA000, 0x00), (0xDFFF, 0x01), (0xE000, 0x01)] s).mapper) =
    .mmc1 { shift := 0x10, control := 0x0C, chr0 := 0, chr1 := 0, prg := 0x1B } := by decide
/-- MAP-5: the windows of mapper 4 with the PRG invert bit (256 KB). -/
theorem test_mmc3_windows :
    (let s := machine 16 ((Mapper.ofNumber 4).getD .nrom)
     let t := writeAll [(0x8000, 0x46), (0x8001, 0x05)] s
     [(0 : Nat), 0x2000, 0x4000, 0x6000].map fun o => (prgWindow t.mapper t.cart.prgSize o).2) =
    [0x1E, 0x01, 0x05, 0x1F] := by decide
/-- MAP-7: mapper 65's timer, 15 cycles after the enabling write. -/
theorem test_mapper65_timer :
    (let s := machine 8 ((Mapper.ofNumber 65).getD .nrom)
     let t := writeAll [(0x9005, 0x00), (0x9006, 0x10), (0x9004, 0x00), (0x9003, 0x80)] s
     let ticks := fun n : Nat => (List.range n).foldl (fun m _ => m.cycleHook) t.mapper
     ((ticks 15).irqFlag, (ticks 16).irqFlag)) = (false, true) := by decide
/-- MAP-8: the mapper number of a header; an unsupported one and NES 2.0 are refused. -/
theorem test_images :
    (let file := fun b6 b7 : Byte => [0x4E, 0x45, 0x53, 0x1A, 0x01, 0x00, b6, b7] ++ List.replicate 8 0
     (imageMapper (file 0x10 0x40), parseImage (file 0x10 0x08), parseImage (file 0x10 0x00),
       parseImage [0x4E, 0x45, 0x53, 0x1B], Mapper.ofNumber 5)) =
    (65, .error .nes2, .error .truncated, .error .badMagic, none) := by
  refine Prod.ext rfl (Prod.ext rfl (Prod.ext rfl (Prod.ext rfl rfl)))
/-- RST-1, RST-3: `Reset()` reads the vector through the reset mapper. -/
theorem test_reset :
    (let s := start 0xFFFC [0x00, 0xC0] 1 2 3 0x10 0xE7 [(0x10, 0x55)]
     let t := hostReset { s with cpu := { s.cpu with skip := 300, latch := { s.cpu.latch with nmi := true } } }
     (t.cpu, t.ram)) =
    (Cpu.initial cfg 0xC000, [(0x10, 0x55)]) := by decide
/-- SAVE-2: the CPU record of P4 after step 5. -/
theorem test_save_cpu :
    (cpuRecord
      { pc := 0x8005, a := 1, x := 0, y := 0, sp := 0xFA, p := 0x25
        latch := { nmi := false, irq := false, brk := false }, skip := 7, pageCross := false
        inInterrupt := true, intKind := some .brk, cyclesTotal := 5 }).flatten =
    [0x05, 0x80, 0xFA, 0x25, 0x01, 0x00, 0x00, 0x00, 0x07, 0x00, 0x00, 0x00, 0x00, 0x01, 0x04, 0x05] ++
      List.replicate 7 0 := by decide
/-- SAVE-5: a record with `P` = 10 loads as 20. -/
theorem test_load_status : (cpuOfRecord [[0, 0], [0], [0x10]]).p = 0x20 := by decide
/-- 61 R316, log 3: after reset, the word placed where the next step fetches is run by that step. -/
theorem test_fetch_word :
    (match cpuStep (State.reset.withFetchWord 16 0x80A9) with
     | .next t => (t.cpu.a, t.cpu.pc, t.cpu.p)
     | _ => (0, 0, 0)) = (0x80, 0x0002, 0xA4) := by decide
/-- 61 R316: a step is one CPU cycle and three dots. -/
theorem test_step_ticks :
    (match step (start 0x8000 [0xEA] 0 0 0 0xFD 0x24 []) with
     | .next t => (t.cpu.cyclesTotal, t.ppu.dot, t.apu.fsCount)
     | _ => (0, 0, 0)) = (1, 3, 1) := by decide

/-! ## Witnesses: states and operands that meet the hypotheses of each statement -/

/-- The witness state: work RAM, PRG RAM, OAM and a pixel listed, the flags mixed. -/
def w : State :=
  { start 0x8000 [0xA9, 0x80] 0x5A 0x01 0x02 0xFD 0xE7 [(0x10, 0x55), (0x1FE, 0x33)] with
    prgRam := [(0x1FFF, 0x12)] }

theorem w_cpuInv : CpuInv w := ⟨by decide, by decide, by decide, by decide⟩
theorem w_memInv : MemInv w :=
  ⟨by decide, by decide, by decide, by decide, by decide, by decide, by decide, by decide, by decide, by decide,
    by decide⟩
theorem w_deviceInv : DeviceInv w := ⟨by decide, by decide, by decide, by decide, by decide, by decide, by decide⟩
theorem w_inv : Inv w := ⟨w_cpuInv, w_memInv, w_deviceInv⟩

/-- A step of `w` answers a next state. -/
theorem w_step : ∃ t, step w = .next t := ⟨_, rfl⟩

/-- `w` with latch, `skip` and sequence set. -/
def wCpu (nmi irq : Bool) (p : Byte) (skip : BitVec 32) (seq : Bool) : State :=
  { w with
    cpu := { w.cpu with
      p := p, latch := { nmi := nmi, irq := irq, brk := false }, skip := skip, inInterrupt := seq
      intKind := some .brk } }

/-- `w` with the picture unit at a dot. -/
def wDot (line dot : Nat) (suppress : Bool) : State :=
  { w with ppu := { w.ppu with scanline := line, dot := dot, suppressVbl := suppress } }

theorem witness_DecodeAfterEncode :
    wellFormed (.adc (.mem (.abx 0xFFFF))) = true ∧ wellFormed (.xxx 0x02) = true := by decide
theorem witness_StepRunsDecodedInstruction :
    w.cpu.skip.toNat ≤ 1 ∧ w.cpu.inInterrupt = false ∧ w.cpu.latch.nmi = false ∧ w.cpu.latch.irq = false ∧
    isMemory w.cpu.pc ∧ isMemory (w.cpu.pc + 1) ∧ isMemory (w.cpu.pc + 2) ∧
    decode [byteAt w w.cpu.pc, byteAt w (w.cpu.pc + 1), byteAt w (w.cpu.pc + 2)] =
      .ok (.lda (.imm 0x80), [0x00]) := by
  have h0 : byteAt w w.cpu.pc = 0xA9 := by decide
  have h1 : byteAt w (w.cpu.pc + 1) = 0x80 := by decide
  have h2 : byteAt w (w.cpu.pc + 2) = 0x00 := by decide
  rw [h0, h1, h2]
  exact ⟨by decide, rfl, rfl, rfl, .inr (by decide), .inr (by decide), .inr (by decide), rfl⟩
/-- The masked request of the fourth hypothesis' other case. -/
theorem witness_StepRunsDecodedInstruction_masked :
    (wCpu false true 0x24 1 false).cpu.latch.irq = true ∧ flagI (wCpu false true 0x24 1 false).cpu.p = true := by
  decide
theorem witness_StepInsideSlotCountsDown :
    1 < (wCpu false false 0x24 2 false).cpu.skip.toNat ∧ (wCpu false false 0x24 2 false).cpu.inInterrupt = false ∧
    (wCpu false false 0x24 3 true).cpu.inInterrupt = true ∧
    (wCpu false false 0x24 3 true).cpu.skip.toNat = (wCpu false false 0x24 3 true).cfg.rc.skipLeft + 1 ∧
    (wCpu false false 0x24 4 true).cpu.skip.toNat ≠ (wCpu false false 0x24 4 true).cfg.rc.skipLeft + 1 := by decide
theorem witness_InterruptPollOrder :
    (wCpu true true 0x20 1 false).cpu.skip.toNat ≤ 1 ∧ (wCpu true true 0x20 1 false).cpu.inInterrupt = false ∧
    (wCpu true true 0x20 1 false).cpu.latch.nmi = true ∧ (wCpu false true 0x20 0 false).cpu.latch.nmi = false ∧
    (wCpu false true 0x20 0 false).cpu.latch.irq = true ∧ flagI (wCpu false true 0x20 0 false).cpu.p = false := by
  decide
theorem witness_BeginInterruptPushes : ∃ s, MemInv s := ⟨w, w_memInv⟩
theorem witness_ResolveVectorLoadsPc :
    ({ w.cpu with intKind := some IntKind.nmi } : Cpu).intKind = some .nmi ∧
    (wCpu true false 0x24 3 true).cpu.intKind ≠ some .nmi ∧ (wCpu true false 0x24 3 true).cpu.latch.nmi = true ∧
    (wCpu false false 0x24 3 true).cpu.latch.nmi = false := by decide
theorem witness_BrkBeginsSequence : ∃ s, MemInv s ∧ s.cpu.sp = 0xFD := ⟨w, w_memInv, rfl⟩
theorem witness_RtiReturnsToPushedAddress : ∃ s, MemInv s ∧ statusOk s.cpu.p = true := ⟨w, w_memInv, by decide⟩
/-- The request taken, and the request kept. -/
theorem witness_IrqStaysLatchedUntilServiced :
    (∃ t, step (wCpu false true 0x20 0 false) = .next t ∧ t.cpu.intKind = some .irq) ∧
    (∃ t, step (wCpu false true 0x24 0 false) = .next t ∧ t.cpu.latch.irq = true) ∧
    (wCpu false true 0x24 0 false).cpu.latch.irq = true := ⟨⟨_, rfl, rfl⟩, ⟨_, rfl, rfl⟩, rfl⟩
theorem witness_DirectEffectiveAddresses :
    isMemory (effAddr (.abx 0x1FFE) w).1 ∧ isMemory (effAddr (.aby 0x5FFE) w).1 ∧
    ¬ isMemory (effAddr (.abs 0x2002) w).1 :=
  ⟨.inl (by decide), .inr (by decide), fun h => h.elim (by decide) (by decide)⟩
theorem witness_LoadsSetRegisterAndZN : ∃ o m, o = ReadOp.mem m ∧ m = .aby 0x0300 := ⟨_, _, rfl, rfl⟩
/-- The four stores, at addresses of each kind the frame names. -/
theorem witness_StoresWriteOnce :
    ∃ (s : State) (i : Instr) (m : AddrMode) (v : Byte), MemInv s ∧ i = .sax m ∧ v = s.cpu.a &&& s.cpu.x ∧
      (effAddr m s).1 = 0x1FFF := ⟨w, _, .abs 0x1FFF, _, w_memInv, rfl, rfl, rfl⟩
theorem witness_StackInstructions :
    ∃ (s : State) (i : Instr) (v b : Byte), MemInv s ∧ i = .php ∧ v = s.cpu.p ||| 0x30 ∧
      b = byteAt s (BitVec.ofNat 16 (256 + (s.cpu.sp.toNat + 1) % 256)) ∧ b = 0x33 :=
  ⟨w, _, _, _, w_memInv, rfl, rfl, rfl, rfl⟩
theorem witness_LogicCombinesBits :
    ∃ (i : Instr) (f : Bool → Bool → Bool), i = .eor (.imm 0xFF) ∧ f = xor := ⟨_, _, rfl, rfl⟩
theorem witness_ComparesSetFlagsOnly :
    ∃ (i : Instr) (reg : Byte) (o : ReadOp) (m : AddrMode), i = .cpy o ∧ reg = w.cpu.y ∧ o = .mem m ∧ m = .zp 0x10 :=
  ⟨_, _, _, _, rfl, rfl, rfl, rfl⟩
/-- INC at a byte that wraps, DEC at a byte that wraps. -/
theorem witness_IncrementMemory :
    MemInv w ∧ (0x00 : Byte).toNat = ((0xFF : Byte).toNat + 1) % 256 ∧
    (0xFF : Byte).toNat = ((busRead (effAddr (.zp 0x11) w).2 (effAddr (.zp 0x11) w).1).1.toNat + 255) % 256 :=
  ⟨w_memInv, rfl, rfl⟩
theorem witness_ShiftsOnAccumulator :
    ∃ (i : Instr) (left rotate : Bool), i = .ror .acc ∧ left = false ∧ rotate = true := ⟨_, _, _, rfl, rfl, rfl⟩
theorem witness_ShiftsInMemory :
    ∃ (s : State) (i : Instr) (left rotate : Bool), MemInv s ∧ i = .rol (.mem (.abx 0x0300)) ∧ left = true ∧
      rotate = true := ⟨w, _, _, _, w_memInv, rfl, rfl, rfl⟩
/-- A pointer at the end of its page, in RAM and in ROM. -/
theorem witness_JumpsLoadPc : isMemory 0x02FF ∧ isMemory 0xFFFF ∧ ¬ isMemory 0x4015 :=
  ⟨.inl (by decide), .inr (by decide), fun h => h.elim (by decide) (by decide)⟩
theorem witness_SubroutineCallAndReturn : ∃ s, MemInv s := ⟨w, w_memInv⟩
theorem witness_BranchesTestOneFlag :
    ∃ (i : Instr) (taken : Bool), i = .beq 0x80 ∧ taken = flagZ w.cpu.p ∧ taken = true := ⟨_, _, rfl, rfl, rfl⟩
theorem witness_FlagInstructionsChangeOneFlag :
    ∃ (i : Instr) (bit : Nat) (b : Bool) (op : Byte), i = .sed ∧ bit = 3 ∧ b = true ∧ op = 0xF8 :=
  ⟨_, _, _, _, rfl, rfl, rfl, rfl⟩
theorem witness_ShiftAndLogicCombinations :
    ∃ (s : State) (i : Instr) (left rotate : Bool) (f : Bool → Bool → Bool), MemInv s ∧ i = .rla (.izy 0x10) ∧
      left = true ∧ rotate = true ∧ f = and := ⟨w, _, _, _, _, w_memInv, rfl, rfl, rfl, rfl⟩
theorem witness_RotateAddAndIncrementSubtract : ∃ s, MemInv s := ⟨w, w_memInv⟩
theorem witness_DecrementAndCompare : ∃ s, MemInv s := ⟨w, w_memInv⟩
/-- The ends of each window; no address is in two. -/
theorem witness_MemoryWindows :
    MemInv w ∧ (0x1FFF : Word).toNat < 0x2000 ∧ 0x6000 ≤ (0x6000 : Word).toNat ∧ (0x7FFF : Word).toNat < 0x8000 ∧
    0x4018 ≤ (0x4018 : Word).toNat ∧ (0x5FFF : Word).toNat < 0x6000 ∧ 0x4000 ≤ (0x4000 : Word).toNat ∧
    (0x4014 : Word).toNat ≤ 0x4014 :=
  ⟨w_memInv, by decide, by decide, by decide, by decide, by decide, by decide, by decide⟩
theorem witness_RomWindowWrites :
    0x8000 ≤ (0x8000 : Word).toNat ∧ w.mapper = .nrom ∧ w.cart.prgUnits = 1 ∧ (machine 2 .nrom).cart.prgUnits = 2 ∧
    (machine 8 (.uxrom 0)).mapper = .uxrom 0 ∧ (0x07 : Byte).toNat < (machine 8 (.uxrom 0)).cart.prgUnits ∧
    (0xBFFF : Word).toNat < 0xC000 ∧ 0xC000 ≤ (0xC000 : Word).toNat := by decide
theorem witness_OamDmaCopiesPage :
    MemInv w ∧ (0x1F : Byte).toNat < 0x20 ∧ 0x60 ≤ (0x60 : Byte).toNat := ⟨w_memInv, by decide, by decide⟩
theorem witness_ControllersShiftButtons :
    bitOf (0x01 : Byte) 0 = true ∧ bitOf (0xFE : Byte) 0 = false := by decide
theorem witness_RegisterPortAndOam :
    isPpuRegister 0x2001 1 ∧ isPpuRegister 0x3FFA 2 ∧ isPpuRegister 0x2003 3 ∧ isPpuRegister 0x2000 0 ∧ isPpuRegister 0x3FFC 4 ∧ isPpuRegister 0x2004 4 ∧ MemInv w :=
  ⟨⟨by decide, by decide, by decide⟩, ⟨by decide, by decide, by decide⟩, ⟨by decide, by decide, by decide⟩,
    ⟨by decide, by decide, by decide⟩, ⟨by decide, by decide, by decide⟩, ⟨by decide, by decide, by decide⟩,
    w_memInv⟩
theorem witness_StatusReadClearsVblank :
    isPpuRegister 0x2002 2 ∧ isPpuRegister 0x3FFA 2 ∧ atDot (wDot 241 1 false) 241 1 ∧ ¬ atDot w 241 1 :=
  ⟨⟨by decide, by decide, by decide⟩, ⟨by decide, by decide, by decide⟩, ⟨rfl, rfl⟩, fun h => absurd h.1 (by decide)⟩
theorem witness_TwoWriteRegisters :
    w.ppu.w = false ∧ isPpuRegister 0x2005 5 ∧ isPpuRegister 0x3FFD 5 ∧ isPpuRegister 0x2006 6 ∧
    isPpuRegister 0x3FFE 6 :=
  ⟨rfl, ⟨by decide, by decide, by decide⟩, ⟨by decide, by decide, by decide⟩, ⟨by decide, by decide, by decide⟩,
    ⟨by decide, by decide, by decide⟩⟩
/-- `v` at the ends of the three spaces, and the ends of the nametable range. -/
theorem witness_DataPortAccesses :
    (0x2000 ≤ 0x2000 ∧ 0x2000 < 0x3F00) ∧ (0x2000 ≤ 0x3EFF ∧ 0x3EFF < 0x3F00) ∧
    MemInv w ∧ (0x1FFF : BitVec 15).toNat % 0x4000 < 0x2000 ∧ (0x3EFF : BitVec 15).toNat % 0x4000 < 0x3F00 ∧
    0x3F00 ≤ (0x7F00 : BitVec 15).toNat % 0x4000 :=
  ⟨by decide, by decide, w_memInv, by decide, by decide, by decide⟩
theorem witness_PaletteMirrors :
    (0x10 ≤ 0x10 ∧ 0x10 < 0x20 ∧ 0x10 % 4 = 0) ∧ (0x10 ≤ 0x1C ∧ 0x1C < 0x20 ∧ 0x1C % 4 = 0) ∧
    (0x1F < 0x20 ∧ ¬ (0x10 ≤ 0x1F ∧ 0x1F % 4 = 0)) := by decide
theorem witness_VblankStart :
    atDot (wDot 241 1 false) 241 1 ∧ (wDot 241 1 false).ppu.suppressVbl = false ∧ atDot (wDot 241 1 true) 241 1 ∧
    (wDot 241 1 true).ppu.suppressVbl = true := ⟨⟨rfl, rfl⟩, rfl, ⟨rfl, rfl⟩, rfl⟩
theorem witness_CtrlWriteMayFireNmi : isPpuRegister 0x2000 0 ∧ isPpuRegister 0x3FF8 0 :=
  ⟨⟨by decide, by decide, by decide⟩, ⟨by decide, by decide, by decide⟩⟩
/-- The last dot of a line, of the last line, of the short line, and a dot before each. -/
theorem witness_PositionAdvances :
    DeviceInv (wDot 261 340 false) ∧ DeviceInv (wDot 260 340 false) ∧ DeviceInv (wDot 261 339 false) ∧
    (let s := wDot 261 339 false
     let s := { s with ppu := { s.ppu with frame := 1, mask := 0x08 } }
     atDot s 261 339 ∧ bitOf s.ppu.frame 0 = true ∧ bitOf s.ppu.mask 3 = true) :=
  ⟨⟨by decide, by decide, by decide, by decide, by decide, by decide, by decide⟩,
    ⟨by decide, by decide, by decide, by decide, by decide, by decide, by decide⟩,
    ⟨by decide, by decide, by decide, by decide, by decide, by decide, by decide⟩, ⟨rfl, rfl⟩, by decide, by decide⟩
theorem witness_SpriteEvaluation :
    ∃ p : Ppu, p.scanline ≠ 261 ∧ p.rendering = true ∧ p.scanline = 0 :=
  ⟨{ w.ppu with scanline := 0, mask := 0x10 }, by decide, by decide, rfl⟩
/-- The sequencer one tick before and at the end of a step. -/
theorem witness_FrameFlagRule :
    ((7456 : BitVec 13) + 1).toNat = 7457 ∧ ((7455 : BitVec 13) + 1).toNat ≠ 7457 := by decide
/-- The last byte of a sample, at the last address, and a byte before the last. -/
theorem witness_SampleFetch :
    ∃ c : Dmc, c.timer = 0 ∧ c.bitsLeft = 1 ∧ c.bytesLeft ≠ 0 ∧ c.bytesLeft = 1 ∧ c.loop = true ∧
      isMemory c.curAddr ∧ c.curAddr.toNat = 0xFFFF :=
  ⟨{ w.apu.dmc with timer := 0, bitsLeft := 1, bytesLeft := 1, loop := true, curAddr := 0xFFFF }, rfl, rfl,
    by decide, rfl, rfl, .inr (by decide), rfl⟩
/-- The first four writes go to other registers' ranges than the fifth (`test_mmc1_fifth_address` runs them); the
ends of the four address ranges. -/
theorem witness_Mmc1SerialLoad :
    (let r : Mmc1 := { shift := 0x10, control := 0x0C, chr0 := 0, chr1 := 0, prg := 0 }
     (machine 8 (.mmc1 r)).mapper = .mmc1 r) ∧
    (∀ a, a ∈ [(0x8000 : Word), 0x9FFF, 0xA000, 0xDFFF, 0xE000] → 0x8000 ≤ a.toNat) ∧
    (0x9FFF : Word).toNat < 0xA000 ∧ (0xBFFF : Word).toNat < 0xC000 ∧
    (0xDFFF : Word).toNat < 0xE000 ∧ ¬ (0xE000 : Word).toNat < 0xE000 ∧
    (∀ d, d ∈ [(0x01 : Byte), 0x7F, 0x00, 0x01, 0x01] → bitOf d 7 = false) ∧ bitOf (0x80 : Byte) 7 = true :=
  ⟨by decide, by simp, by decide⟩
theorem witness_MapperCounters :
    (∃ r, (machine 16 ((Mapper.ofNumber 4).getD .nrom)).mapper = .mmc3 r) ∧ 0xE000 ≤ (0xE000 : Word).toNat ∧
    0xE000 ≤ (0xFFFF : Word).toNat ∧ (∃ r, (machine 8 ((Mapper.ofNumber 65).getD .nrom)).mapper = .m65 r) :=
  ⟨⟨_, rfl⟩, by decide, by decide, ⟨_, rfl⟩⟩
/-- A machine with each mapper. -/
theorem witness_ResetSetsRegisters :
    (w.mapper = .nrom) ∧
    ∀ n, n ∈ [1, 2, 3, 4, 65] → ∃ m, Mapper.ofNumber n = some m ∧ ∃ s : State, s.mapper = m ∧ m ≠ .nrom := by
  refine ⟨rfl, fun n hn => ?_⟩
  simp only [List.mem_cons, List.not_mem_nil, or_false] at hn
  obtain rfl | rfl | rfl | rfl | rfl := hn <;>
    exact ⟨_, rfl, { w with mapper := _ }, rfl, by simp⟩
theorem witness_SaveThenLoadRestores : ∃ s, Inv s := ⟨w, w_inv⟩
/-- A file with another header, and one that is accepted. -/
theorem witness_LoadIsAllOrNothing :
    saveHeader cfg ≠ ([0x00] : List Byte) ∧ (load w (save w)).1 = true := by
  refine ⟨by decide, ?_⟩
  rw [load_eq, saveAccepted_save]
  rfl
theorem witness_StepKeepsCpuInvariant : ∃ s t, CpuInv s ∧ step s = .next t := ⟨w, _, w_cpuInv, rfl⟩
theorem witness_StepKeepsMemoryInvariant : ∃ s t, MemInv s ∧ step s = .next t := ⟨w, _, w_memInv, rfl⟩
theorem witness_StepKeepsDeviceInvariant : ∃ s t, DeviceInv s ∧ step s = .next t := ⟨w, _, w_deviceInv, rfl⟩

end Sys2Proof.Tests
end

section
/-! The clock and the host's inputs under every operation of a step: `countCycle` alone moves the clock, and
nothing moves the configuration, the cartridge image or the buttons (00 R13, 50 R249, 61 R307, R312). -/

namespace Sys2Proof.Machine

/-! ## The part of the state that only the clock and the host move -/

/-- The CPU's cycle counter, the configuration, the cartridge image and the host's buttons. -/
structure ClockAndInputs where
  clock : BitVec 64
  cfg : Config
  cart : Cartridge
  buttons0 : Byte
  buttons1 : Byte

def clockAndInputs (s : State) : ClockAndInputs where
  clock := s.cpu.cyclesTotal
  cfg := s.cfg
  cart := s.cart
  buttons0 := s.pad.buttons0
  buttons1 := s.pad.buttons1

theorem clockAndInputs_eq_iff {s t : State} :
    clockAndInputs t = clockAndInputs s ↔
      t.cpu.cyclesTotal = s.cpu.cyclesTotal ∧ t.cfg = s.cfg ∧ t.cart = s.cart ∧
      t.pad.buttons0 = s.pad.buttons0 ∧ t.pad.buttons1 = s.pad.buttons1 := by
  simp only [clockAndInputs, ClockAndInputs.mk.injEq]

/-- A conditional update keeps the clock and the inputs when its update does. -/
theorem clockAndInputs_ite {c : Prop} [Decidable c] {s t u : State}
    (ht : clockAndInputs t = clockAndInputs s) (hu : clockAndInputs u = clockAndInputs s) :
    clockAndInputs (if c then t else u) = clockAndInputs s := by
  split
  · exact ht
  · exact hu

/-! ## Registers -/

@[simp] theorem setA_clockAndInputs (s : State) (v : Byte) : clockAndInputs (s.setA v) = clockAndInputs s := rfl
@[simp] theorem setX_clockAndInputs (s : State) (v : Byte) : clockAndInputs (s.setX v) = clockAndInputs s := rfl
@[simp] theorem setY_clockAndInputs (s : State) (v : Byte) : clockAndInputs (s.setY v) = clockAndInputs s := rfl
@[simp] theorem setSp_clockAndInputs (s : State) (v : Byte) : clockAndInputs (s.setSp v) = clockAndInputs s := rfl
@[simp] theorem setZN_clockAndInputs (s : State) (v : Byte) : clockAndInputs (s.setZN v) = clockAndInputs s := rfl
@[simp] theorem setP_clockAndInputs (s : State) (v : Byte) : clockAndInputs (s.setP v) = clockAndInputs s := rfl
@[simp] theorem setPc_clockAndInputs (s : State) (v : Word) : clockAndInputs (s.setPc v) = clockAndInputs s := rfl
@[simp] theorem setPageCross_clockAndInputs (s : State) (b : Bool) :
    clockAndInputs (s.setPageCross b) = clockAndInputs s := rfl
@[simp] theorem charge_clockAndInputs (s : State) (n : Nat) : clockAndInputs (s.charge n) = clockAndInputs s := rfl

@[simp] theorem addWithCarry_clockAndInputs (m : Byte) (s : State) :
    clockAndInputs (addWithCarry m s) = clockAndInputs s := by
  simp [addWithCarry]

@[simp] theorem subWithCarry_clockAndInputs (m : Byte) (s : State) :
    clockAndInputs (subWithCarry m s) = clockAndInputs s :=
  addWithCarry_clockAndInputs _ s

/-! ## The bus -/

@[simp] theorem busRead_clockAndInputs (s : State) (a : Word) :
    clockAndInputs (busRead s a).2 = clockAndInputs s := by
  rw [busRead_changes]
  rfl

theorem ppuRegWrite_pad (s : State) (r : Nat) (d : Byte) : (ppuRegWrite s r d).pad = s.pad := by
  unfold ppuRegWrite writePpuData ppuWrite writeChr setIoLatch
  dsimp only
  repeat' split
  all_goals rfl

/-- The strobe copies the buttons into the shift registers and leaves them (61 R310). -/
theorem strobeWrite_buttons (p : Pad) (v : Byte) :
    (p.strobeWrite v).buttons0 = p.buttons0 ∧ (p.strobeWrite v).buttons1 = p.buttons1 := by
  unfold Pad.strobeWrite
  split <;> exact ⟨rfl, rfl⟩

/-- No bus write presses or releases a button (61 R312). -/
theorem busWrite_buttons (s : State) (a : Word) (v : Byte) :
    (busWrite s a v).pad.buttons0 = s.pad.buttons0 ∧ (busWrite s a v).pad.buttons1 = s.pad.buttons1 := by
  unfold busWrite
  dsimp only
  split
  · exact ⟨rfl, rfl⟩
  split
  · rw [ppuRegWrite_pad]
    exact ⟨rfl, rfl⟩
  split
  · unfold oamDma
    rw [dmaCopy_changes]
    exact ⟨rfl, rfl⟩
  split
  · exact strobeWrite_buttons s.pad v
  repeat' split
  all_goals exact ⟨rfl, rfl⟩

@[simp] theorem busWrite_clockAndInputs (s : State) (a : Word) (v : Byte) :
    clockAndInputs (busWrite s a v) = clockAndInputs s :=
  clockAndInputs_eq_iff.2
    ⟨by rw [busWrite_cpu], busWrite_cfg s a v, busWrite_cart s a v, busWrite_buttons s a v⟩

/-! ## Stack, pointers, fetch, interrupt sequence -/

@[simp] theorem push_clockAndInputs (s : State) (v : Byte) : clockAndInputs (push s v) = clockAndInputs s := by
  rw [push_eq]
  rfl

@[simp] theorem pull_clockAndInputs (s : State) : clockAndInputs (pull s).2 = clockAndInputs s := by
  rw [pull_eq]
  rfl

@[simp] theorem readPair_clockAndInputs (s : State) (l h : Word) :
    clockAndInputs (readPair s l h).2 = clockAndInputs s := by
  simp [readPair]

@[simp] theorem fetch_clockAndInputs (s : State) : clockAndInputs (fetch s).2 = clockAndInputs s := by
  simp [fetch]

@[simp] theorem fetchInstr_clockAndInputs (s : State) : clockAndInputs (fetchInstr s).2 = clockAndInputs s := by
  unfold fetchInstr
  dsimp only
  split <;> split <;> simp

@[simp] theorem beginInterrupt_clockAndInputs (k : IntKind) (s : State) :
    clockAndInputs (beginInterrupt k s) = clockAndInputs s := by
  rw [beginInterrupt_eq]
  rfl

@[simp] theorem resolveVector_clockAndInputs (s : State) :
    clockAndInputs (resolveVector s) = clockAndInputs s := by
  rw [resolveVector_eq]
  rfl

@[simp] theorem returnFromInterrupt_clockAndInputs (s : State) :
    clockAndInputs (returnFromInterrupt s) = clockAndInputs s := by
  rw [returnFromInterrupt_eq]
  rfl

/-! ## The instruction shapes (30 R102, R103, R114) -/

@[simp] theorem effAddr_clockAndInputs (m : AddrMode) (s : State) :
    clockAndInputs (effAddr m s).2 = clockAndInputs s := by
  rw [effAddr_state]
  rfl

@[simp] theorem readOperand_clockAndInputs (o : ReadOp) (s : State) :
    clockAndInputs (readOperand o s).2 = clockAndInputs s := by
  cases o with
  | imm b => rfl
  | mem m => simp [readOperand, readMem]

theorem readInstr_clockAndInputs (o : ReadOp) (operation : Byte → State → State)
    (h : ∀ b u, clockAndInputs (operation b u) = clockAndInputs u) (s : State) :
    clockAndInputs (readInstr o operation s) = clockAndInputs s := by
  simp [readInstr, h]

theorem writeInstr_clockAndInputs (m : AddrMode) (value : State → Byte) (s : State) :
    clockAndInputs (writeInstr m value s) = clockAndInputs s := by
  simp [writeInstr]

theorem rmwInstr_clockAndInputs (m : AddrMode) (transform : Byte → Byte → Byte × Byte)
    (after : Byte → State → State) (h : ∀ b u, clockAndInputs (after b u) = clockAndInputs u) (s : State) :
    clockAndInputs (rmwInstr m transform after s) = clockAndInputs s := by
  simp [rmwInstr, h]

theorem shiftInstr_clockAndInputs (o : ShiftOp) (transform : Byte → Byte → Byte × Byte) (s : State) :
    clockAndInputs (shiftInstr o transform s) = clockAndInputs s := by
  cases o with
  | acc => rfl
  | mem m => exact rmwInstr_clockAndInputs m transform _ (fun _ _ => rfl) s

theorem impliedInstr_clockAndInputs (operation : State → State)
    (h : ∀ u, clockAndInputs (operation u) = clockAndInputs u) (s : State) :
    clockAndInputs (impliedInstr operation s) = clockAndInputs s := by
  simp [impliedInstr, h]

theorem branchInstr_clockAndInputs (cond : Bool) (off : Byte) (s : State) :
    clockAndInputs (branchInstr cond off s) = clockAndInputs s :=
  clockAndInputs_ite rfl rfl

/-! ## Every instruction answers a next state (00 R13) -/

/-- No instruction ends in a fault or a refusal, and none moves the clock or the host's inputs. -/
theorem exec_next_clockAndInputs (i : Instr) (s : State) :
    ∃ t, exec i s = .next t ∧ clockAndInputs t = clockAndInputs s := by
  cases i with
  | lda | ldx | ldy | adc | sbc | and | ora | eor | cmp | cpx | cpy | bit | lax =>
    exact ⟨_, rfl, readInstr_clockAndInputs _ _ (fun _ _ => by simp) s⟩
  | sta | stx | sty | sax => exact ⟨_, rfl, writeInstr_clockAndInputs _ _ s⟩
  | inc | dec | slo | rla | sre | rra | dcp | isc =>
    exact ⟨_, rfl, rmwInstr_clockAndInputs _ _ _ (fun _ _ => by simp) s⟩
  | asl | lsr | rol | ror => exact ⟨_, rfl, shiftInstr_clockAndInputs _ _ s⟩
  | bpl | bmi | bvc | bvs | bcc | bcs | bne | beq => exact ⟨_, rfl, branchInstr_clockAndInputs _ _ s⟩
  | tax | tay | txa | tya | tsx | txs | inx | iny | dex | dey | clc | sec | cli | sei | clv | cld | sed | nop =>
    exact ⟨_, rfl, impliedInstr_clockAndInputs _ (fun _ => by simp) s⟩
  | jmp | xxx => exact ⟨_, rfl, by simp⟩
  | pha | php | pla | plp | jmpInd | jsr | rts | rti | brk => exact ⟨_, rfl, by simp⟩

/-! ## The device ticks (61 R316) -/

theorem clockAndInputs_withDevices (s : State) (m : Mapper) (p : Ppu) (a : Apu) :
    clockAndInputs { s with mapper := m, ppu := p, apu := a } = clockAndInputs s := rfl

theorem vblankSet_clockAndInputs (s : State) : clockAndInputs (vblankSet s) = clockAndInputs s :=
  clockAndInputs_ite rfl rfl

theorem ppuDot_clockAndInputs (s : State) : clockAndInputs (ppuDot s) = clockAndInputs s := by
  unfold ppuDot
  extract_lets line dot cleared blanked drawn rendered
  have hcleared : clockAndInputs cleared = clockAndInputs s := clockAndInputs_ite rfl rfl
  have hblanked : clockAndInputs blanked = clockAndInputs cleared :=
    clockAndInputs_ite (vblankSet_clockAndInputs cleared) rfl
  have hdrawn : clockAndInputs drawn = clockAndInputs blanked := clockAndInputs_ite rfl rfl
  have hrendered : clockAndInputs rendered = clockAndInputs drawn := clockAndInputs_ite rfl rfl
  have hhooked := clockAndInputs_withDevices rendered rendered.mapper.scanlineHook rendered.ppu rendered.apu
  calc
    _ = clockAndInputs rendered := clockAndInputs_ite hhooked rfl
    _ = clockAndInputs s := by rw [hrendered, hdrawn, hblanked, hcleared]

theorem ppuStep_clockAndInputs (s : State) : clockAndInputs (ppuStep s) = clockAndInputs s := by
  unfold ppuStep
  exact (clockAndInputs_withDevices _ _ _ _).trans (ppuDot_clockAndInputs s)

theorem fetchSample_clockAndInputs (s : State) : clockAndInputs (fetchSample s) = clockAndInputs s := by
  unfold fetchSample
  exact (clockAndInputs_withDevices _ _ _ _).trans (busRead_clockAndInputs s s.apu.dmc.curAddr)

theorem dmcOutputBit_clockAndInputs (s : State) : clockAndInputs (dmcOutputBit s) = clockAndInputs s := by
  unfold dmcOutputBit
  dsimp only
  split
  · split
    · rw [clockAndInputs_withDevices, fetchSample_clockAndInputs, clockAndInputs_withDevices]
    · rfl
  · rfl

theorem dmcTimer_clockAndInputs (s : State) : clockAndInputs (dmcTimer s) = clockAndInputs s := by
  unfold dmcTimer
  dsimp only
  split
  · rw [dmcOutputBit_clockAndInputs, clockAndInputs_withDevices]
  · rfl

theorem resample_clockAndInputs (s : State) : clockAndInputs (resample s) = clockAndInputs s := rfl

theorem apuTick_clockAndInputs (s : State) : clockAndInputs (apuTick s) = clockAndInputs s := by
  unfold apuTick
  dsimp only
  rw [resample_clockAndInputs, clockAndInputs_withDevices, dmcTimer_clockAndInputs, clockAndInputs_withDevices]

theorem rearmIrq_clockAndInputs (s : State) : clockAndInputs (rearmIrq s) = clockAndInputs s := rfl

theorem deviceTicks_clockAndInputs (s : State) : clockAndInputs (deviceTicks s) = clockAndInputs s := by
  unfold deviceTicks ppuTicks
  dsimp only
  rw [rearmIrq_clockAndInputs, clockAndInputs_withDevices, apuTick_clockAndInputs, ppuStep_clockAndInputs,
    ppuStep_clockAndInputs, ppuStep_clockAndInputs]

/-! ## The step (50 R241, 61 R316) -/

theorem countDown_clockAndInputs (s : State) : clockAndInputs (countDown s) = clockAndInputs s :=
  clockAndInputs_ite (resolveVector_clockAndInputs _) rfl

theorem openSlot_clockAndInputs (s : State) : clockAndInputs (openSlot s) = clockAndInputs s :=
  clockAndInputs_ite (resolveVector_clockAndInputs _) rfl

theorem takeNmi_clockAndInputs (s : State) : clockAndInputs (takeNmi s) = clockAndInputs s := by
  unfold takeNmi
  rw [charge_clockAndInputs, beginInterrupt_clockAndInputs]
  rfl

theorem takeIrq_clockAndInputs (s : State) : clockAndInputs (takeIrq s) = clockAndInputs s := by
  unfold takeIrq
  rw [charge_clockAndInputs, beginInterrupt_clockAndInputs]
  rfl

theorem pollInterrupt_clockAndInputs {s t : State} (h : pollInterrupt s = some t) :
    clockAndInputs t = clockAndInputs s := by
  unfold pollInterrupt at h
  split at h
  · cases h
    exact takeNmi_clockAndInputs s
  split at h
  · cases h
    exact takeIrq_clockAndInputs s
  · cases h

theorem runInstr_next_clockAndInputs (s : State) :
    ∃ t, runInstr s = .next t ∧ clockAndInputs t = clockAndInputs s := by
  obtain ⟨t, hexec, ht⟩ := exec_next_clockAndInputs (fetchInstr s).1 (fetchInstr s).2
  exact ⟨t, hexec, ht.trans (fetchInstr_clockAndInputs s)⟩

/-- Whatever the CPU does in its `Step()` (count down, take an interrupt, run an instruction), it answers a next
state and moves the clock by `countCycle` alone. -/
theorem cpuStep_next_clockAndInputs (s : State) :
    ∃ t, cpuStep s = .next t ∧ clockAndInputs t = clockAndInputs (countCycle s) := by
  have hopen := openSlot_clockAndInputs (countCycle s)
  unfold cpuStep
  dsimp only
  split
  · exact ⟨_, rfl, countDown_clockAndInputs _⟩
  split
  next t hpoll => exact ⟨t, rfl, (pollInterrupt_clockAndInputs hpoll).trans hopen⟩
  next =>
    obtain ⟨t, hrun, ht⟩ := runInstr_next_clockAndInputs (openSlot (countCycle s))
    exact ⟨t, hrun, ht.trans hopen⟩

theorem step_next_clockAndInputs (s : State) :
    ∃ t, step s = .next t ∧ clockAndInputs t = clockAndInputs (countCycle s) := by
  obtain ⟨t, hcpu, ht⟩ := cpuStep_next_clockAndInputs s
  refine ⟨deviceTicks t, ?_, (deviceTicks_clockAndInputs t).trans ht⟩
  rw [step, hcpu, thenDevices]

/-- Settles O7: no branch of a step and no instruction ends otherwise than in a next state, and of their operations
`countCycle` alone moves the clock, none the configuration, the cartridge image or the buttons. -/
theorem stepCountsOneCycle : Obligations.StepCountsOneCycle := by
  intro s
  obtain ⟨t, hstep, ht⟩ := step_next_clockAndInputs s
  refine ⟨⟨t, hstep, clockAndInputs_eq_iff.1 ht⟩, fun i => ?_⟩
  obtain ⟨u, hexec, -⟩ := exec_next_clockAndInputs i s
  exact ⟨u, hexec⟩

end Sys2Proof.Machine
end

section
/-! The CPU's invariant under every step (10 R26, R28, R30, 50 R241, R250), and the three invariants after `Reset()`
and power-on (70 R520 to R522). An instruction runs from a boundary outside every interrupt sequence; what it
charges is its own cycles and the stall of at most one OAM DMA, and `Cpu.InSlot` counts both. -/

namespace Sys2Proof.Machine

/-! ## A CPU outside every interrupt sequence -/

/-- Outside every interrupt sequence, with the status's fixed bits, no BRK request and at most `n` cycles owed. -/
def Cpu.InSlot (n : Nat) (c : Cpu) : Prop :=
  statusOk c.p = true ∧ c.latch.brk = false ∧ c.skip.toNat ≤ n ∧ c.inInterrupt = false

theorem cpuInv_of_inSlot {s : State} (h : s.cpu.InSlot 522) : CpuInv s := by
  obtain ⟨hp, hbrk, hskip, hseq⟩ := h
  exact ⟨hp, hbrk, hskip, fun hin => absurd (hseq.symm.trans hin) Bool.false_ne_true⟩

theorem inSlot_addSkip {n m : Nat} {c : Cpu} {d : BitVec 32} (h : c.InSlot n) (hd : n + d.toNat ≤ m) :
    Cpu.InSlot m { c with skip := c.skip + d } := by
  obtain ⟨hp, hbrk, hskip, hseq⟩ := h
  refine ⟨hp, hbrk, ?_, hseq⟩
  calc
    (c.skip + d).toNat ≤ c.skip.toNat + d.toNat := by rw [BitVec.toNat_add]; exact Nat.mod_le _ _
    _ ≤ n + d.toNat := Nat.add_le_add_right hskip _
    _ ≤ m := hd

/-- The charge that closes an instruction's effect, in a slot of at most 522 cycles (log entry 22). -/
theorem charge_cpuInv {n k : Nat} {s : State} (h : s.cpu.InSlot n) (hk : n + k ≤ 522) : CpuInv (s.charge k) := by
  have hk' : (BitVec.ofNat 32 k).toNat ≤ k := by
    rw [BitVec.toNat_ofNat]
    exact Nat.mod_le _ _
  exact cpuInv_of_inSlot (inSlot_addSkip h (by omega))

theorem inSlot_withStatus {n : Nat} {c : Cpu} {p : Byte} (h : c.InSlot n) (hp : statusOk p = true) :
    Cpu.InSlot n { c with p := p } := by
  obtain ⟨-, hbrk, hskip, hseq⟩ := h
  exact ⟨hp, hbrk, hskip, hseq⟩

/-! ## The operations an instruction is made of -/

theorem setZN_inSlot {n : Nat} {s : State} (h : s.cpu.InSlot n) (v : Byte) : (s.setZN v).cpu.InSlot n :=
  inSlot_withStatus h ((statusOk_putZN s.cpu.p v).trans h.1)

theorem push_inSlot {n : Nat} {s : State} (h : s.cpu.InSlot n) (v : Byte) : (push s v).cpu.InSlot n := by
  rw [push_eq]
  exact h

theorem pull_inSlot {n : Nat} {s : State} (h : s.cpu.InSlot n) : (pull s).2.cpu.InSlot n := by
  rw [pull_eq]
  exact h

theorem returnFromInterrupt_inSlot {n : Nat} {s : State} (h : s.cpu.InSlot n) :
    (returnFromInterrupt s).cpu.InSlot n := by
  rw [returnFromInterrupt_eq]
  exact inSlot_withStatus h (statusOk_loadedStatus _)

theorem readPair_inSlot {n : Nat} {s : State} (h : s.cpu.InSlot n) (low high : Word) :
    (readPair s low high).2.cpu.InSlot n := by
  rw [readPair_cpu]
  exact h

theorem effAddr_inSlot {n : Nat} {s : State} (h : s.cpu.InSlot n) (m : AddrMode) :
    (effAddr m s).2.cpu.InSlot n := by
  rw [effAddr_cpu]
  exact h

theorem readOperand_inSlot {n : Nat} {s : State} (h : s.cpu.InSlot n) (o : ReadOp) :
    (readOperand o s).2.cpu.InSlot n := by
  rw [readOperand_cpu]
  exact h

theorem fetchInstr_inSlot {n : Nat} {s : State} (h : s.cpu.InSlot n) : (fetchInstr s).2.cpu.InSlot n := by
  obtain ⟨-, -, hcpu, -⟩ := fetchInstr_spec s
  rw [hcpu]
  exact h

theorem storeStall_le (s : State) (a : Word) : (storeStall s a).toNat ≤ 514 := by
  unfold storeStall
  split
  · split <;> decide
  · decide

/-- A store adds at most the stall of one OAM DMA (50 R250). -/
theorem busWrite_inSlot {s : State} (h : s.cpu.InSlot 0) (a : Word) (v : Byte) :
    (busWrite s a v).cpu.InSlot 514 := by
  have hstall := storeStall_le s a
  rw [busWrite_cpu, busWrite_skip]
  exact inSlot_addSkip h (by omega)

@[simp] theorem addWithCarry_cpu (m : Byte) (s : State) :
    (addWithCarry m s).cpu =
      { s.cpu with a := addResult s.cpu.a m (flagC s.cpu.p), p := addStatus s.cpu.p s.cpu.a m } := rfl

@[simp] theorem subWithCarry_cpu (m : Byte) (s : State) :
    (subWithCarry m s).cpu = (addWithCarry (m ^^^ 0xFF) s).cpu := rfl

@[simp] theorem statusOk_aslTransform (m p : Byte) : statusOk (aslTransform m p).2 = statusOk p := statusOk_putC p _
@[simp] theorem statusOk_lsrTransform (m p : Byte) : statusOk (lsrTransform m p).2 = statusOk p := statusOk_putC p _
@[simp] theorem statusOk_rolTransform (m p : Byte) : statusOk (rolTransform m p).2 = statusOk p := statusOk_putC p _
@[simp] theorem statusOk_rorTransform (m p : Byte) : statusOk (rorTransform m p).2 = statusOk p := statusOk_putC p _

/-! ## The instruction shapes (30 R102, R103, R114) -/

theorem readCycles_le (o : ReadOp) (cross : Bool) : readCycles o cross ≤ 6 := by
  cases o with
  | imm b => simp [readCycles, readBase, readBonus]
  | mem m => cases m <;> cases cross <;> simp [readCycles, readBase, readBonus]

theorem writeCycles_le (m : AddrMode) : writeCycles m ≤ 6 := by
  cases m <;> simp [writeCycles]

theorem rmwCycles_le (m : AddrMode) : rmwCycles m ≤ 8 := by
  cases m <;> simp [rmwCycles]

theorem readInstr_cpuInv {s : State} (h : s.cpu.InSlot 0) (o : ReadOp) (operation : Byte → State → State)
    (hop : ∀ b u, u.cpu.InSlot 0 → (operation b u).cpu.InSlot 0) : CpuInv (readInstr o operation s) := by
  have hcycles := readCycles_le o (readOperand o s).2.cpu.pageCross
  exact charge_cpuInv (hop _ _ (readOperand_inSlot h o)) (by omega)

theorem writeInstr_cpuInv {s : State} (h : s.cpu.InSlot 0) (m : AddrMode) (value : State → Byte) :
    CpuInv (writeInstr m value s) := by
  have hcycles := writeCycles_le m
  exact charge_cpuInv (busWrite_inSlot (effAddr_inSlot h m) _ _) (by omega)

/-- The longest slot: 8 cycles and the stall of 514 (log entry 22). -/
theorem rmwInstr_cpuInv {s : State} (h : s.cpu.InSlot 0) (m : AddrMode)
    (transform : Byte → Byte → Byte × Byte) (after : Byte → State → State)
    (htransform : ∀ b p, statusOk (transform b p).2 = statusOk p)
    (hafter : ∀ b u, u.cpu.InSlot 514 → (after b u).cpu.InSlot 514) :
    CpuInv (rmwInstr m transform after s) := by
  have hcycles := rmwCycles_le m
  unfold rmwInstr
  extract_lets e r t
  have hread : r.2.cpu.InSlot 0 := by
    rw [busRead_cpu]
    exact effAddr_inSlot h m
  have hstatus : (r.2.setP t.2).cpu.InSlot 0 :=
    inSlot_withStatus hread ((htransform r.1 r.2.cpu.p).trans hread.1)
  exact charge_cpuInv (hafter _ _ (busWrite_inSlot hstatus _ _)) (by omega)

theorem impliedInstr_cpuInv {s : State} (h : s.cpu.InSlot 0) (operation : State → State)
    (hop : ∀ u, u.cpu.InSlot 0 → (operation u).cpu.InSlot 0) : CpuInv (impliedInstr operation s) :=
  charge_cpuInv (hop s h) (by decide)

theorem shiftInstr_cpuInv {s : State} (h : s.cpu.InSlot 0) (o : ShiftOp)
    (transform : Byte → Byte → Byte × Byte) (htransform : ∀ b p, statusOk (transform b p).2 = statusOk p) :
    CpuInv (shiftInstr o transform s) := by
  cases o with
  | acc =>
    have hregs : ((s.setP (transform s.cpu.a s.cpu.p).2).setA (transform s.cpu.a s.cpu.p).1).cpu.InSlot 0 := by
      simpa [Cpu.InSlot, htransform] using h
    exact charge_cpuInv (setZN_inSlot hregs _) (by decide)
  | mem m => exact rmwInstr_cpuInv h m transform (fun r s => s.setZN r) htransform fun b _ hu => setZN_inSlot hu b

theorem branchInstr_cpuInv {s : State} (h : s.cpu.InSlot 0) (cond : Bool) (off : Byte) :
    CpuInv (branchInstr cond off s) := by
  unfold branchInstr
  dsimp only
  split
  · exact charge_cpuInv h (by split <;> decide)
  · exact charge_cpuInv h (by decide)

/-- A sequence begins with 7 cycles owed, so its vector is still before it (50 R254, 60 R276). -/
theorem beginInterrupt_cpuInv {k : IntKind} {s : State} (h : s.cpu.InSlot 0) :
    CpuInv ((beginInterrupt k s).charge 7) := by
  obtain ⟨hp, hbrk, hskip, -⟩ := h
  have hzero : s.cpu.skip = 0 := BitVec.eq_of_toNat_eq (Nat.le_zero.mp hskip)
  have hseven : ((beginInterrupt k s).charge 7).cpu.skip = 7 := by
    rw [beginInterrupt_eq, charge_cpu, hzero]
    rfl
  constructor
  case status => simpa [beginInterrupt_eq] using hp
  case noBrk => simpa [beginInterrupt_eq] using hbrk
  case skipBound => rw [hseven]; decide
  case sequence =>
    intro _
    rw [hseven]
    refine ⟨by simp [beginInterrupt_eq], ?_, by decide⟩
    cases ((beginInterrupt k s).charge 7).cfg.rc <;> decide

/-! ## Every instruction, from a boundary -/

theorem exec_next_cpuInv {s : State} (h : s.cpu.InSlot 0) (i : Instr) :
    ∃ t, exec i s = .next t ∧ CpuInv t := by
  cases i with
  | lda | ldx | ldy | adc | sbc | and | ora | eor | cmp | cpx | cpy | bit | lax =>
    exact ⟨_, rfl, readInstr_cpuInv h _ _ fun _ _ => by simp [Cpu.InSlot]⟩
  | sta | stx | sty | sax => exact ⟨_, rfl, writeInstr_cpuInv h _ _⟩
  | inc | dec | slo | rla | sre | rra | dcp | isc =>
    exact ⟨_, rfl, rmwInstr_cpuInv h _ _ _ (fun _ _ => by simp) fun _ _ => by simp [Cpu.InSlot]⟩
  | asl | lsr | rol | ror => exact ⟨_, rfl, shiftInstr_cpuInv h _ _ fun _ _ => by simp⟩
  | bpl | bmi | bvc | bvs | bcc | bcs | bne | beq => exact ⟨_, rfl, branchInstr_cpuInv h _ _⟩
  | tax | tay | txa | tya | tsx | txs | inx | iny | dex | dey | clc | sec | cli | sei | clv | cld | sed | nop =>
    exact ⟨_, rfl, impliedInstr_cpuInv h _ fun _ => by simp [Cpu.InSlot]⟩
  | jmp | xxx => exact ⟨_, rfl, charge_cpuInv h (by decide)⟩
  | jmpInd => exact ⟨_, rfl, charge_cpuInv (readPair_inSlot h _ _) (by decide)⟩
  | pha | php => exact ⟨_, rfl, charge_cpuInv (push_inSlot h _) (by decide)⟩
  | pla => exact ⟨_, rfl, charge_cpuInv (setZN_inSlot (pull_inSlot h) _) (by decide)⟩
  | plp => exact ⟨_, rfl, charge_cpuInv (inSlot_withStatus (pull_inSlot h) (statusOk_loadedStatus _)) (by decide)⟩
  | jsr => exact ⟨_, rfl, charge_cpuInv (push_inSlot (push_inSlot h _) _) (by decide)⟩
  | rts => exact ⟨_, rfl, charge_cpuInv (pull_inSlot (pull_inSlot h)) (by decide)⟩
  | rti => exact ⟨_, rfl, charge_cpuInv (returnFromInterrupt_inSlot h) (by decide)⟩
  | brk => exact ⟨_, rfl, beginInterrupt_cpuInv h⟩

/-! ## The CPU's `Step()` (50 R241) -/

/-- The vector's load ends the sequence, whatever was owed (60 R278). -/
theorem resolveVector_inSlot {n : Nat} {s : State} (hp : statusOk s.cpu.p = true) (hbrk : s.cpu.latch.brk = false)
    (hskip : s.cpu.skip.toNat ≤ n) : (resolveVector s).cpu.InSlot n := by
  rw [resolveVector_eq]
  exact ⟨hp, hbrk, hskip, rfl⟩

theorem countCycle_cpuInv {s : State} (h : CpuInv s) : CpuInv (countCycle s) where
  status := h.status
  noBrk := h.noBrk
  skipBound := h.skipBound
  sequence := h.sequence

/-- Inside a slot a sequence keeps its vector before it until the cycle that loads the vector. -/
theorem countDown_cpuInv {s : State} (h : CpuInv s) (hin : insideSlot s = true) : CpuInv (countDown s) := by
  obtain ⟨hp, hbrk, hskip, hseq⟩ := h
  have hlong : 1 < s.cpu.skip.toNat := of_decide_eq_true hin
  have hdown : (s.cpu.skip - 1).toNat = s.cpu.skip.toNat - 1 := by
    rw [BitVec.toNat_sub_of_le (BitVec.le_def.mpr (by simpa using hlong.le))]
    rfl
  have hbound : (s.cpu.skip - 1).toNat ≤ 522 := by omega
  unfold countDown
  extract_lets u
  split
  next => exact cpuInv_of_inSlot (resolveVector_inSlot hp hbrk hbound)
  next hnot =>
    refine ⟨hp, hbrk, hbound, fun hin' => ?_⟩
    obtain ⟨hkind, hbefore, hseven⟩ := hseq hin'
    have hleft : (s.cpu.skip - 1).toNat ≠ s.cfg.rc.skipLeft := fun heq =>
      hnot (Bool.and_eq_true_iff.2 ⟨hin', beq_iff_eq.2 heq⟩)
    exact ⟨hkind, show s.cfg.rc.skipLeft < (s.cpu.skip - 1).toNat by omega,
      show (s.cpu.skip - 1).toNat ≤ 7 by omega⟩

/-- The boundary leaves nothing owed and no sequence open. -/
theorem openSlot_inSlot {s : State} (h : CpuInv s) : (openSlot s).cpu.InSlot 0 := by
  unfold openSlot
  extract_lets u
  split
  next => exact resolveVector_inSlot h.status h.noBrk (Nat.le_refl 0)
  next hout => exact ⟨h.status, h.noBrk, Nat.le_refl 0, Bool.eq_false_of_not_eq_true hout⟩

theorem takeNmi_cpuInv {s : State} (h : s.cpu.InSlot 0) : CpuInv (takeNmi s) := by
  unfold takeNmi
  exact beginInterrupt_cpuInv h

theorem takeIrq_cpuInv {s : State} (h : s.cpu.InSlot 0) : CpuInv (takeIrq s) := by
  unfold takeIrq
  exact beginInterrupt_cpuInv h

theorem pollInterrupt_cpuInv {s t : State} (h : s.cpu.InSlot 0) (hpoll : pollInterrupt s = some t) : CpuInv t := by
  unfold pollInterrupt at hpoll
  split at hpoll
  · cases hpoll
    exact takeNmi_cpuInv h
  split at hpoll
  · cases hpoll
    exact takeIrq_cpuInv h
  · cases hpoll

theorem cpuStep_next_cpuInv {s : State} (h : CpuInv s) : ∃ t, cpuStep s = .next t ∧ CpuInv t := by
  have hcount := countCycle_cpuInv h
  have hopen := openSlot_inSlot hcount
  unfold cpuStep
  dsimp only
  split
  next hin => exact ⟨_, rfl, countDown_cpuInv hcount hin⟩
  split
  next t hpoll => exact ⟨t, rfl, pollInterrupt_cpuInv hopen hpoll⟩
  next => exact exec_next_cpuInv (fetchInstr_inSlot hopen) _

/-! ## The device ticks raise requests and leave the rest of the CPU (60 R273, 62 R361) -/

/-- The CPU without the two interrupt requests that devices raise. -/
def Cpu.withoutRequests (c : Cpu) : Cpu :=
  { c with latch := { c.latch with nmi := false, irq := false } }

theorem vblankSet_withoutRequests (s : State) : (vblankSet s).cpu.withoutRequests = s.cpu.withoutRequests := by
  unfold vblankSet
  dsimp only
  split <;> rfl

theorem renderLineDot_cpu (s : State) : (renderLineDot s).cpu = s.cpu := rfl

theorem ppuDot_withoutRequests (s : State) : (ppuDot s).cpu.withoutRequests = s.cpu.withoutRequests := by
  simp only [ppuDot, apply_ite State.cpu, apply_ite Cpu.withoutRequests, renderLineDot_cpu,
    vblankSet_withoutRequests, ite_self]

theorem ppuStep_withoutRequests (s : State) : (ppuStep s).cpu.withoutRequests = s.cpu.withoutRequests :=
  ppuDot_withoutRequests s

theorem fetchSample_cpu (s : State) : (fetchSample s).cpu = s.cpu := busRead_cpu s _

theorem dmcOutputBit_cpu (s : State) : (dmcOutputBit s).cpu = s.cpu := by
  simp only [dmcOutputBit, apply_ite State.cpu, fetchSample_cpu, ite_self]

theorem dmcTimer_cpu (s : State) : (dmcTimer s).cpu = s.cpu := by
  simp only [dmcTimer, apply_ite State.cpu, dmcOutputBit_cpu, ite_self]

theorem apuTick_cpu (s : State) : (apuTick s).cpu = s.cpu := dmcTimer_cpu _

theorem rearmIrq_withoutRequests (s : State) : (rearmIrq s).cpu.withoutRequests = s.cpu.withoutRequests := rfl

theorem deviceTicks_withoutRequests (s : State) :
    (deviceTicks s).cpu.withoutRequests = s.cpu.withoutRequests := by
  simp only [deviceTicks, ppuTicks, rearmIrq_withoutRequests, apuTick_cpu, ppuStep_withoutRequests]

theorem deviceTicks_cfg (s : State) : (deviceTicks s).cfg = s.cfg :=
  congrArg ClockAndInputs.cfg (deviceTicks_clockAndInputs s)

theorem cpuInv_withoutRequests {s : State} :
    CpuInv { s with cpu := s.cpu.withoutRequests } ↔ CpuInv s := by
  constructor <;> exact fun h => ⟨h.status, h.noBrk, h.skipBound, h.sequence⟩

/-- The invariant of the CPU speaks of no NMI or IRQ request and, beside the CPU, of the configuration alone. -/
theorem CpuInv.congr {s t : State} (h : CpuInv s) (hcpu : t.cpu.withoutRequests = s.cpu.withoutRequests)
    (hcfg : t.cfg = s.cfg) : CpuInv t := by
  obtain ⟨hp, hbrk, hskip, hseq⟩ := cpuInv_withoutRequests.2 h
  rw [← hcpu] at hp hbrk hskip hseq
  rw [← hcfg] at hseq
  exact cpuInv_withoutRequests.1 ⟨hp, hbrk, hskip, hseq⟩

theorem deviceTicks_cpuInv {s : State} (h : CpuInv s) : CpuInv (deviceTicks s) :=
  h.congr (deviceTicks_withoutRequests s) (deviceTicks_cfg s)

/-- Settles O58: the CPU's `Step()` keeps the invariant, by its three branches, and the devices that tick after it
touch nothing of the CPU but its NMI and IRQ requests. -/
theorem stepKeepsCpuInvariant : Obligations.StepKeepsCpuInvariant := by
  intro s t hinv hstep
  obtain ⟨u, hcpu, hu⟩ := cpuStep_next_cpuInv hinv
  rw [step, hcpu, thenDevices] at hstep
  cases hstep
  exact deviceTicks_cpuInv hu

/-! ## Reset and power-on (70 R520 to R522) -/

theorem hostReset_cpuInv (s : State) : CpuInv (hostReset s) := by
  rw [hostReset_eq]
  exact cpuInv_of_inSlot ⟨show statusOk 0x24 = true by decide, rfl, Nat.zero_le _, rfl⟩

/-- `Reset()` leaves every memory (70 R521). -/
theorem hostReset_memInv {s : State} (h : MemInv s) : MemInv (hostReset s) := by
  rw [hostReset_eq]
  obtain ⟨hram, hprg, hchr, hvram, hpal, hpalSix, hoam, hdraw, hdrawSix, hshown, hshownSix⟩ := h
  exact ⟨hram, hprg, hchr, hvram, hpal, hpalSix, hoam, hdraw, hdrawSix, hshown, hshownSix⟩

theorem hostReset_deviceInv (s : State) : DeviceInv (hostReset s) := by
  rw [hostReset_eq]
  constructor
  case scanline => exact Nat.le_refl 261
  case dot => exact Nat.zero_le 340
  case spriteCount => exact show (0 : BitVec 4) ≤ 8 by decide
  case status => exact show (0 : Byte) &&& 0x1F = 0 by decide
  case bitsLeft => exact show 1 ≤ (8 : BitVec 4) ∧ (8 : BitVec 4) ≤ 8 by decide
  case lfsr => exact show (1 : BitVec 15) ≠ 0 by decide
  case fsStep => exact show 0 < 5 by decide

theorem powerOn_inv (cfg : Config) (cart : Cartridge) (m : Mapper) : Inv (powerOn cfg cart m) where
  cpu := hostReset_cpuInv _
  mem := hostReset_memInv ⟨rfl, rfl, rfl, rfl, rfl, rfl, rfl, rfl, rfl, rfl, rfl⟩
  device := hostReset_deviceInv _

/-- Settles O57: `Reset()` puts the CPU and the devices into their invariants from any state and keeps the memories,
which power-on makes empty. -/
theorem resetMeetsInvariants : Obligations.ResetMeetsInvariants :=
  ⟨reset_eq_powerOn ▸ powerOn_inv _ _ _, powerOn_inv⟩

end Sys2Proof.Machine
end

section
/-! The decoder and the encoder against each other (30 R100, R117 to R122). An opcode byte fixes the instruction
up to its operand bytes (`decodeBytes_of_opcode`); both round trips follow from that. -/

namespace Sys2Proof
open Machine

/-! ## An instruction with other operand bytes -/

/-- The operand's format with the operand bytes at the head of a byte list, low byte first (30 R117). -/
def AddrMode.withBytes (bytes : List Byte) : AddrMode → AddrMode
  | .zp _ => .zp (bytes.getD 0 0)
  | .zpx _ => .zpx (bytes.getD 0 0)
  | .zpy _ => .zpy (bytes.getD 0 0)
  | .abs _ => .abs (word (bytes.getD 1 0) (bytes.getD 0 0))
  | .abx _ => .abx (word (bytes.getD 1 0) (bytes.getD 0 0))
  | .aby _ => .aby (word (bytes.getD 1 0) (bytes.getD 0 0))
  | .izx _ => .izx (bytes.getD 0 0)
  | .izy _ => .izy (bytes.getD 0 0)

def ReadOp.withBytes (bytes : List Byte) : ReadOp → ReadOp
  | .imm _ => .imm (bytes.getD 0 0)
  | .mem m => .mem (m.withBytes bytes)

def ShiftOp.withBytes (bytes : List Byte) : ShiftOp → ShiftOp
  | .acc => .acc
  | .mem m => .mem (m.withBytes bytes)

/-- The instruction's row of the opcode map with the operand bytes at the head of a byte list. -/
def Instr.withBytes (bytes : List Byte) : Instr → Instr
  | .lda o => .lda (o.withBytes bytes)
  | .ldx o => .ldx (o.withBytes bytes)
  | .ldy o => .ldy (o.withBytes bytes)
  | .sta m => .sta (m.withBytes bytes)
  | .stx m => .stx (m.withBytes bytes)
  | .sty m => .sty (m.withBytes bytes)
  | .adc o => .adc (o.withBytes bytes)
  | .sbc o => .sbc (o.withBytes bytes)
  | .and o => .and (o.withBytes bytes)
  | .ora o => .ora (o.withBytes bytes)
  | .eor o => .eor (o.withBytes bytes)
  | .cmp o => .cmp (o.withBytes bytes)
  | .cpx o => .cpx (o.withBytes bytes)
  | .cpy o => .cpy (o.withBytes bytes)
  | .bit m => .bit (m.withBytes bytes)
  | .inc m => .inc (m.withBytes bytes)
  | .dec m => .dec (m.withBytes bytes)
  | .asl o => .asl (o.withBytes bytes)
  | .lsr o => .lsr (o.withBytes bytes)
  | .rol o => .rol (o.withBytes bytes)
  | .ror o => .ror (o.withBytes bytes)
  | .jmp _ => .jmp (word (bytes.getD 1 0) (bytes.getD 0 0))
  | .jmpInd _ => .jmpInd (word (bytes.getD 1 0) (bytes.getD 0 0))
  | .jsr _ => .jsr (word (bytes.getD 1 0) (bytes.getD 0 0))
  | .bpl _ => .bpl (bytes.getD 0 0)
  | .bmi _ => .bmi (bytes.getD 0 0)
  | .bvc _ => .bvc (bytes.getD 0 0)
  | .bvs _ => .bvs (bytes.getD 0 0)
  | .bcc _ => .bcc (bytes.getD 0 0)
  | .bcs _ => .bcs (bytes.getD 0 0)
  | .bne _ => .bne (bytes.getD 0 0)
  | .beq _ => .beq (bytes.getD 0 0)
  | .slo m => .slo (m.withBytes bytes)
  | .rla m => .rla (m.withBytes bytes)
  | .sre m => .sre (m.withBytes bytes)
  | .rra m => .rra (m.withBytes bytes)
  | .sax m => .sax (m.withBytes bytes)
  | .lax m => .lax (m.withBytes bytes)
  | .dcp m => .dcp (m.withBytes bytes)
  | .isc m => .isc (m.withBytes bytes)
  | i => i

/-! ## The operand bytes of an instruction (30 R100, R117) -/

@[simp] theorem lo_word (h l : Byte) : lo (word h l) = l := by
  apply BitVec.eq_of_toNat_eq
  have := l.isLt
  rw [lo_toNat, word_toNat]
  omega

@[simp] theorem hi_word (h l : Byte) : hi (word h l) = h := by
  apply BitVec.eq_of_toNat_eq
  have := l.isLt
  rw [hi_toNat, word_toNat]
  omega

theorem wordBytes_word (h l : Byte) : wordBytes (word h l) = [l, h] := by simp [wordBytes]

theorem word_wordBytes (w : Word) (rest : List Byte) :
    word ((wordBytes w ++ rest).getD 1 0) ((wordBytes w ++ rest).getD 0 0) = w :=
  word_hi_lo w

theorem AddrMode.operandBytes_length (m : AddrMode) : m.operandBytes.length + 1 = m.format.length := by
  cases m <;> rfl

theorem ReadOp.operandBytes_length (o : ReadOp) : o.operandBytes.length + 1 = o.format.length := by
  cases o with
  | imm b => rfl
  | mem m => exact m.operandBytes_length

theorem ShiftOp.operandBytes_length (o : ShiftOp) : o.operandBytes.length + 1 = o.format.length := by
  cases o with
  | acc => rfl
  | mem m => exact m.operandBytes_length

/-- The operand bytes are all of the instruction but its opcode byte (30 R100). -/
theorem Instr.operandBytes_length (i : Instr) : i.operandBytes.length + 1 = i.length := by
  cases i with
  | lda o | ldx o | ldy o | adc o | sbc o | and o | ora o | eor o | cmp o | cpx o | cpy o =>
    exact o.operandBytes_length
  | asl o | lsr o | rol o | ror o => exact o.operandBytes_length
  | sta m | stx m | sty m | bit m | inc m | dec m | slo m | rla m | sre m | rra m | sax m | lax m | dcp m | isc m =>
    exact m.operandBytes_length
  | _ => rfl

theorem AddrMode.withBytes_operandBytes (m : AddrMode) (rest : List Byte) :
    m.withBytes (m.operandBytes ++ rest) = m := by
  cases m with
  | zp | zpx | zpy | izx | izy => rfl
  | abs w | abx w | aby w => exact congrArg _ (word_wordBytes w rest)

theorem ReadOp.withBytes_operandBytes (o : ReadOp) (rest : List Byte) :
    o.withBytes (o.operandBytes ++ rest) = o := by
  cases o with
  | imm b => rfl
  | mem m => exact congrArg _ (m.withBytes_operandBytes rest)

theorem ShiftOp.withBytes_operandBytes (o : ShiftOp) (rest : List Byte) :
    o.withBytes (o.operandBytes ++ rest) = o := by
  cases o with
  | acc => rfl
  | mem m => exact congrArg _ (m.withBytes_operandBytes rest)

/-- An instruction read back from its own operand bytes, whatever follows them. -/
theorem Instr.withBytes_operandBytes (i : Instr) (rest : List Byte) :
    i.withBytes (i.operandBytes ++ rest) = i := by
  cases i with
  | lda o | ldx o | ldy o | adc o | sbc o | and o | ora o | eor o | cmp o | cpx o | cpy o =>
    exact congrArg _ (o.withBytes_operandBytes rest)
  | asl o | lsr o | rol o | ror o => exact congrArg _ (o.withBytes_operandBytes rest)
  | sta m | stx m | sty m | bit m | inc m | dec m | slo m | rla m | sre m | rra m | sax m | lax m | dcp m | isc m =>
    exact congrArg _ (m.withBytes_operandBytes rest)
  | jmp w | jmpInd w | jsr w => exact congrArg _ (word_wordBytes w rest)
  | _ => rfl

theorem AddrMode.operandBytes_withBytes (m : AddrMode) (b1 b2 : Byte) (rest : List Byte) :
    (m.withBytes (b1 :: b2 :: rest)).operandBytes = (b1 :: b2 :: rest).take (m.format.length - 1) := by
  cases m with
  | zp | zpx | zpy | izx | izy => rfl
  | abs | abx | aby => exact wordBytes_word b2 b1

theorem ReadOp.operandBytes_withBytes (o : ReadOp) (b1 b2 : Byte) (rest : List Byte) :
    (o.withBytes (b1 :: b2 :: rest)).operandBytes = (b1 :: b2 :: rest).take (o.format.length - 1) := by
  cases o with
  | imm b => rfl
  | mem m => exact m.operandBytes_withBytes b1 b2 rest

theorem ShiftOp.operandBytes_withBytes (o : ShiftOp) (b1 b2 : Byte) (rest : List Byte) :
    (o.withBytes (b1 :: b2 :: rest)).operandBytes = (b1 :: b2 :: rest).take (o.format.length - 1) := by
  cases o with
  | acc => rfl
  | mem m => exact m.operandBytes_withBytes b1 b2 rest

/-- The operand bytes of a row are the bytes it was given, as many as its format has. -/
theorem Instr.operandBytes_withBytes (i : Instr) (b1 b2 : Byte) (rest : List Byte) :
    (i.withBytes (b1 :: b2 :: rest)).operandBytes = (b1 :: b2 :: rest).take (i.length - 1) := by
  cases i with
  | lda o | ldx o | ldy o | adc o | sbc o | and o | ora o | eor o | cmp o | cpx o | cpy o =>
    exact o.operandBytes_withBytes b1 b2 rest
  | asl o | lsr o | rol o | ror o => exact o.operandBytes_withBytes b1 b2 rest
  | sta m | stx m | sty m | bit m | inc m | dec m | slo m | rla m | sre m | rra m | sax m | lax m | dcp m | isc m =>
    exact m.operandBytes_withBytes b1 b2 rest
  | jmp | jmpInd | jsr => exact wordBytes_word b2 b1
  | _ => rfl

/-! ## The 53 bytes of the no-op (30 R122) -/

theorem wellFormed_xxx (op : Byte) : wellFormed (.xxx op) = true ↔ op ∈ xxxBytes := by
  simp [wellFormed, Instr.formats, Instr.format, Instr.byteOk]

theorem decodeBytes_xxx_zero (op : Byte) :
    op ∈ xxxBytes → opcodeLength op = 1 ∧ decodeBytes op 0 0 = .xxx op := by
  revert op
  decide

/-- The decoder gives the no-op exactly for the 53 bytes. -/
theorem decodeBytes_eq_xxx_iff (op b1 b2 : Byte) : decodeBytes op b1 b2 = .xxx op ↔ op ∈ xxxBytes := by
  constructor
  · intro h
    rw [← wellFormed_xxx, ← h]
    exact decodeBytes_wellFormed op b1 b2
  · intro h
    obtain ⟨hlen, hzero⟩ := decodeBytes_xxx_zero op h
    rw [decodeBytes_one op b1 b2 0 0 hlen, hzero]

/-! ## The opcode byte fixes the row (30 R118, R119) -/

/-- The "Encoding" lines give each mnemonic exactly the formats of its rows. -/
theorem Instr.opcodes_formats (i : Instr) : i.opcodes.map Prod.fst = i.formats := by
  cases i <;> rfl

theorem wellFormed_opcode {i : Instr} (h : wellFormed i = true) : ∃ op, i.opcode = some op := by
  obtain ⟨hformat, hbyte⟩ := Bool.and_eq_true_iff.mp h
  rw [List.contains_iff_mem, ← i.opcodes_formats, List.mem_map] at hformat
  obtain ⟨row, hrow, hformat⟩ := hformat
  have hsome : (i.opcodes.lookup i.format).isSome := by
    rw [List.lookup_isSome_iff]
    exact ⟨row, hrow, beq_iff_eq.mpr hformat.symm⟩
  rw [Instr.opcode, if_pos hbyte]
  exact Option.isSome_iff_exists.mp hsome

/-- The decoder reads the row of an instruction's opcode byte with the operand bytes that follow: the two sides of
the opcode table, the map by rows and columns and the "Encoding" lines by mnemonics, agree. -/
theorem decodeBytes_of_opcode {i : Instr} {op : Byte} (h : i.opcode = some op) (bytes : List Byte) :
    decodeBytes op (bytes.getD 0 0) (bytes.getD 1 0) = i.withBytes bytes := by
  cases i with
  | lda o | ldx o | ldy o | adc o | sbc o | and o | ora o | eor o | cmp o | cpx o | cpy o =>
    cases o with
    | imm b => cases h; rfl
    | mem m => cases m <;> cases h <;> rfl
  | asl o | lsr o | rol o | ror o =>
    cases o with
    | acc => cases h; rfl
    | mem m => cases m <;> cases h <;> rfl
  | sta m | stx m | sty m | bit m | inc m | dec m | slo m | rla m | sre m | rra m | sax m | lax m | dcp m | isc m =>
    cases m <;> cases h <;> rfl
  | xxx byte =>
    have hbyte : byte ∈ xxxBytes ∧ byte = op := by
      simpa [Instr.opcode, Instr.byteOk, Instr.opcodes, Instr.format] using h
    obtain ⟨hbyte, rfl⟩ := hbyte
    exact (decodeBytes_eq_xxx_iff byte _ _).mpr hbyte
  | _ => cases h; rfl

theorem opcodeLength_of_opcode {i : Instr} {op : Byte} (h : i.opcode = some op) : opcodeLength op = i.length := by
  have hi := decodeBytes_of_opcode h (i.operandBytes ++ [])
  rw [i.withBytes_operandBytes] at hi
  rw [← hi, decodeBytes_length]

/-- The bytes of an instruction decode to it. -/
theorem decode_of_opcode {i : Instr} {op : Byte} (h : i.opcode = some op) (rest : List Byte) :
    decode (op :: (i.operandBytes ++ rest)) = .ok (i, rest) := by
  have hlen := i.operandBytes_length
  have hdrop : i.length - 1 = i.operandBytes.length := by omega
  rw [decode, opcodeLength_of_opcode h, if_neg (by rw [List.length_append]; omega), decodeBytes_of_opcode h,
    i.withBytes_operandBytes, hdrop, List.drop_left]

/-- Settles O1: a well-formed instruction has an opcode byte, and the decoder reads that byte's row with the
operand bytes the encoder wrote. -/
theorem decodeAfterEncode : Obligations.DecodeAfterEncode := by
  intro i rest hwf
  obtain ⟨op, hop⟩ := wellFormed_opcode hwf
  have hencode : encode i = some (op :: i.operandBytes) := by rw [encode, hop, Option.map_some]
  exact ⟨op :: i.operandBytes, hencode, i.operandBytes_length, decode_of_opcode hop rest⟩

/-! ## From bytes to an instruction and back (30 R118) -/

theorem decode_three (op b1 b2 : Byte) (rest : List Byte) :
    decode (op :: b1 :: b2 :: rest) =
      .ok (decodeBytes op b1 b2, (b1 :: b2 :: rest).drop (opcodeLength op - 1)) := by
  have hrange := opcodeLength_range op
  rw [decode, if_neg (by simp only [List.length_cons]; omega)]
  rfl

theorem encode_decodeBytes (op b1 b2 : Byte) (rest : List Byte) :
    encode (decodeBytes op b1 b2) = some ((op :: b1 :: b2 :: rest).take (opcodeLength op)) := by
  have hop := decodeBytes_opcode op b1 b2
  have hi : decodeBytes op b1 b2 = (decodeBytes op b1 b2).withBytes (b1 :: b2 :: rest) :=
    decodeBytes_of_opcode hop (b1 :: b2 :: rest)
  have hoperand : (decodeBytes op b1 b2).operandBytes = (b1 :: b2 :: rest).take (opcodeLength op - 1) := by
    rw [hi, Instr.operandBytes_withBytes, decodeBytes_length]
  have hpos : opcodeLength op = opcodeLength op - 1 + 1 := by have := opcodeLength_range op; omega
  rw [encode, hop, hoperand, hpos, List.take_succ_cons]
  rfl

/-- Settles O2: the instruction is what the opcode map gives, and its opcode byte and operand bytes are those read. -/
theorem decoderIsTotal : Obligations.DecoderIsTotal := by
  intro op b1 b2 rest
  have hlen := decodeBytes_length op b1 b2
  obtain ⟨hpos, hthree⟩ := opcodeLength_range op
  refine ⟨decodeBytes op b1 b2, ?_⟩
  rw [hlen]
  exact ⟨decode_three op b1 b2 rest, decodeBytes_wellFormed op b1 b2, hpos, hthree, rfl,
    encode_decodeBytes op b1 b2 rest, (decodeBytes_eq_xxx_iff op b1 b2).symm⟩

/-- Settles O3: each word evaluates. -/
theorem specWordsDecode : Obligations.SpecWordsDecode :=
  ⟨rfl, rfl, rfl, rfl, rfl, rfl, rfl, rfl, rfl, rfl⟩

end Sys2Proof
end

section
/-! Effective addresses without a pointer, the read of the operand, and the cycles by format (30 R105 to R119,
50 R245). -/

namespace Sys2Proof.Machine

/-! ## Indexing (30 R107, R108, R116) -/

theorem zext16_add_toNat (b index : Byte) : (zext16 (b + index)).toNat = (b.toNat + index.toNat) % 256 := by
  rw [zext16_toNat, BitVec.toNat_add]

theorem add_zext16_toNat (w : Word) (index : Byte) :
    (w + zext16 index).toNat = (w.toNat + index.toNat) % 65536 := by
  rw [BitVec.toNat_add, zext16_toNat]

/-- Indexing leaves the page exactly when the index carries out of the low byte. -/
theorem hi_bne_hi_add (w : Word) (index : Byte) :
    (hi w != hi (w + zext16 index)) = decide (256 ≤ w.toNat % 256 + index.toNat) := by
  have hpage : (hi (w + zext16 index)).toNat = (w.toNat + index.toNat) % 65536 / 256 := by
    rw [hi_toNat, add_zext16_toNat]
  have hw := w.isLt
  have hindex := index.isLt
  rw [Bool.eq_iff_iff, bne_iff_ne, ne_eq, ← BitVec.toNat_inj, hpage, hi_toNat, decide_eq_true_iff]
  omega

/-- An indexed address, and the `page_cross` it sets, as numbers (30 R116). -/
theorem indexed_spec (s : State) (w : Word) (index : Byte) :
    (indexed s w index).1.toNat = (w.toNat + index.toNat) % 65536 ∧
    (indexed s w index).2 = s.setPageCross (decide (256 ≤ w.toNat % 256 + index.toNat)) :=
  ⟨add_zext16_toNat w index, congrArg s.setPageCross (hi_bne_hi_add w index)⟩

/-! ## The operand read (30 R102) -/

theorem readOperand_mem (m : AddrMode) (s : State) :
    readOperand (.mem m) s = busRead (effAddr m s).2 (effAddr m s).1 ∧
    (isMemory (effAddr m s).1 → readOperand (.mem m) s = (byteAt s (effAddr m s).1, (effAddr m s).2)) := by
  refine ⟨rfl, fun h => ?_⟩
  rw [readOperand_isMemory m s h, ← effAddr_state]

/-! ## Cycles (30 R119, 50 R245) -/

/-- The page-cross cycle is the bonus column's, where a row has one. -/
theorem readCycles_table (b : Byte) (w : Word) (cross : Bool) :
    let more := if cross = true then 1 else 0
    readCycles (.imm b) cross = 2 ∧ readCycles (.mem (.zp b)) cross = 3 ∧
    readCycles (.mem (.zpx b)) cross = 4 ∧ readCycles (.mem (.zpy b)) cross = 4 ∧
    readCycles (.mem (.abs w)) cross = 4 ∧ readCycles (.mem (.abx w)) cross = 4 + more ∧
    readCycles (.mem (.aby w)) cross = 4 + more ∧ readCycles (.mem (.izx b)) cross = 6 ∧
    readCycles (.mem (.izy b)) cross = 5 + more := by
  cases cross <;> exact ⟨rfl, rfl, rfl, rfl, rfl, rfl, rfl, rfl, rfl⟩

/-- Settles O14: the direct modes are additions of an index, `indexed_spec` where a page can be crossed; the operand
read is the bus read there; the cycles are the columns of the opcode map. -/
theorem directEffectiveAddresses : Obligations.DirectEffectiveAddresses := fun s b w =>
  ⟨⟨zext16_toNat b, rfl⟩, ⟨zext16_add_toNat b s.cpu.x, rfl⟩, ⟨zext16_add_toNat b s.cpu.y, rfl⟩, rfl,
    indexed_spec s w s.cpu.x, indexed_spec s w s.cpu.y, rfl, fun m => readOperand_mem m s,
    fun o => ⟨sameMemory_readOperand o s, readOperand_cpu o s⟩, readCycles_table b w,
    ⟨rfl, rfl, rfl, rfl, rfl, rfl, rfl, rfl⟩, ⟨rfl, rfl, rfl, rfl, rfl, rfl, rfl⟩⟩

end Sys2Proof.Machine
end

section
/-! Loads, stores, register transfers and the stack instructions (40 R141 to R156, 45 R224, R225). -/

namespace Sys2Proof.Machine

/-! ## The read-class shape (30 R102, 50 R244) -/

/-- A read-class instruction whose operation acts on the CPU alone: what the operand read changed, then the
operation `f` on the registers, then the cycles. -/
theorem readInstr_eq (o : ReadOp) {operation : Byte → State → State} (f : Byte → Cpu → Cpu)
    (hf : ∀ b u, operation b u = { u with cpu := f b u.cpu }) (s : State) :
    readInstr o operation s =
      let r := readOperand o s
      State.charge { r.2 with cpu := f r.1 { s.cpu with pageCross := r.2.cpu.pageCross } }
        (readCycles o r.2.cpu.pageCross) := by
  dsimp only
  rw [← readOperand_cpu, ← hf]
  rfl

/-! ## Loads (40 R141 to R143, 45 R225) -/

/-- Settles O16: each load is the read-class shape with its register and the status set by the operand. -/
theorem loadsSetRegisterAndZN : Obligations.LoadsSetRegisterAndZN := by
  intro s o
  refine ⟨_, setsZN_putZN _ _, sameMemory_readOperand o s, ?lda, ?ldx, ?ldy, ?lax⟩
  case lda => exact congrArg _ (readInstr_eq o (fun b c => { c with a := b, p := putZN c.p b }) (fun _ _ => rfl) s)
  case ldx => exact congrArg _ (readInstr_eq o (fun b c => { c with x := b, p := putZN c.p b }) (fun _ _ => rfl) s)
  case ldy => exact congrArg _ (readInstr_eq o (fun b c => { c with y := b, p := putZN c.p b }) (fun _ _ => rfl) s)
  case lax =>
    rintro m rfl
    exact congrArg _
      (readInstr_eq (.mem m) (fun b c => { c with a := b, x := b, p := putZN c.p b }) (fun _ _ => rfl) s)

/-! ## Stores (40 R144 to R146, 45 R224) -/

/-- Computing the address keeps the registers a store may write. -/
theorem effAddr_registers (m : AddrMode) (s : State) :
    (effAddr m s).2.cpu.a = s.cpu.a ∧ (effAddr m s).2.cpu.x = s.cpu.x ∧ (effAddr m s).2.cpu.y = s.cpu.y := by
  rw [effAddr_cpu]
  exact ⟨rfl, rfl, rfl⟩

/-- Settles O17: each store is the write-class shape, and the address keeps the register it writes. -/
theorem storesWriteOnce : Obligations.StoresWriteOnce := by
  intro s m hi ea i v hiv
  obtain ⟨ha, hx, hy⟩ := effAddr_registers m s
  obtain ⟨rfl, rfl⟩ | ⟨rfl, rfl⟩ | ⟨rfl, rfl⟩ | ⟨rfl, rfl⟩ := hiv
  · exact ⟨_, rfl, ha ▸ writeInstr_spec m (fun u => u.cpu.a) s hi⟩
  · exact ⟨_, rfl, hx ▸ writeInstr_spec m (fun u => u.cpu.x) s hi⟩
  · exact ⟨_, rfl, hy ▸ writeInstr_spec m (fun u => u.cpu.y) s hi⟩
  · exact ⟨_, rfl, ha ▸ hx ▸ writeInstr_spec m (fun u => u.cpu.a &&& u.cpu.x) s hi⟩

/-! ## Transfers (40 R147 to R152) -/

/-- Settles O18: each transfer is the implied shape on the registers; `SetZN` gives the flags of all but TXS. -/
theorem transfersCopyRegister : Obligations.TransfersCopyRegister := fun s =>
  ⟨⟨_, setsZN_putZN s.cpu.p s.cpu.a, rfl, rfl⟩, ⟨_, setsZN_putZN s.cpu.p s.cpu.x, rfl⟩,
    ⟨_, setsZN_putZN s.cpu.p s.cpu.y, rfl⟩, ⟨_, setsZN_putZN s.cpu.p s.cpu.sp, rfl⟩, rfl,
    rfl, rfl, rfl, rfl, rfl, rfl⟩

/-! ## The stack instructions (40 R153 to R156) -/

theorem MemInv.ramWf {s : State} (hi : MemInv s) : s.ram.wf = true :=
  (Bool.and_eq_true_iff.mp hi.ram).1

/-- The stack page wraps: the address above `SP` as a number (10 R24). -/
theorem stackAddr_add_one (sp : Byte) : stackAddr (sp + 1) = BitVec.ofNat 16 (256 + (sp.toNat + 1) % 256) := by
  have hsp : (sp + 1).toNat = (sp.toNat + 1) % 256 := BitVec.toNat_add sp 1
  apply BitVec.eq_of_toNat_eq
  rw [stackAddr_toNat, hsp, BitVec.toNat_ofNat]
  omega

/-- A push and its three cycles: the byte in its four mirrors, `SP`, and nothing else. -/
theorem push_charge_spec {s : State} (hi : MemInv s) (v : Byte) :
    let t := (push s v).charge 3
    (∀ a, isMemory a →
      byteAt t a = if a.toNat < 0x2000 ∧ a.toNat % 2048 = 256 + s.cpu.sp.toNat then v else byteAt s a) ∧
    t = { s with ram := t.ram, cpu := { s.cpu with sp := s.cpu.sp - 1, skip := s.cpu.skip + 3 } } := by
  refine ⟨fun a ha => ?_, ?_⟩
  · exact (byteAt_withCpu (push s v) _ a ha).trans (byteAt_push hi.ramWf v ha)
  · rw [push_eq]
    rfl

/-- Settles O19: PHA and PHP are one push, PLA and PLP one pull of the byte above `SP`. -/
theorem stackInstructions : Obligations.StackInstructions := by
  refine fun s hi => ⟨?push, ?pull⟩
  case push =>
    rintro i v (⟨rfl, rfl⟩ | ⟨rfl, rfl⟩)
    · exact ⟨_, rfl, push_charge_spec hi _⟩
    · exact ⟨_, rfl, push_charge_spec hi _⟩
  case pull =>
    rintro b rfl
    rw [← stackAddr_add_one]
    refine ⟨⟨_, setsZN_putZN _ _, ?pla⟩, ⟨_, fun j _ => bitOf_loadedStatus _ j, ?plp⟩⟩
    case pla =>
      show execPla s = _
      rw [execPla, pull_eq_byteAt]
      rfl
    case plp =>
      show execPlp s = _
      rw [execPlp, pull_eq_byteAt]
      rfl

end Sys2Proof.Machine
end

section
/-! Arithmetic and logic (41 R159 to R174): additions and subtractions as numbers, logic bit by bit, compares, and
the increments and decrements of memory and of the index registers. -/

namespace Sys2Proof.Machine

/-! ## Subtraction as the addition of the complement (41 R161) -/

/-- The complement of a byte, read in two's complement, is its negation less one. -/
theorem signed_xor_FF (m : Byte) : signed (m ^^^ 0xFF) = -1 - signed m := by
  have hm := m.isLt
  rw [signed_eq, signed_eq, xor_FF_toNat]
  split <;> split <;> omega

theorem carryNat_le_one (c : Bool) : carryNat c ≤ 1 := by cases c <;> decide

/-- The result of a subtraction is the difference less the borrow, modulo 256. -/
theorem addResult_xor_FF_toNat (a m : Byte) (c : Bool) :
    ((addResult a (m ^^^ 0xFF) c).toNat : Int) = (a.toNat - m.toNat - (1 - carryNat c) : Int) % 256 := by
  have hm := m.isLt
  have hc := carryNat_le_one c
  rw [addResult_toNat, xor_FF_toNat]
  omega

/-- Its carry says that there was no borrow. -/
theorem addCarry_xor_FF (a m : Byte) (c : Bool) :
    addCarry a (m ^^^ 0xFF) c = decide (m.toNat + (1 - carryNat c) ≤ a.toNat) := by
  have hm := m.isLt
  have hc := carryNat_le_one c
  rw [addCarry_eq, xor_FF_toNat, decide_eq_decide]
  omega

/-- Its overflow says that the signed difference is outside -128 to 127. -/
theorem addOverflow_xor_FF (a m : Byte) (c : Bool) :
    addOverflow a (m ^^^ 0xFF) c =
      decide (signed a - signed m - (1 - carryNat c) < -128 ∨
        127 < signed a - signed m - (1 - carryNat c)) := by
  have hdiff : signed a + (-1 - signed m) + carryNat c = signed a - signed m - (1 - carryNat c) := by omega
  rw [addOverflow_eq, signed_xor_FF, hdiff]

/-! ## ADC and SBC (41 R159 to R161) -/

/-- Settles O20: ADC is the read-class shape with `AddWithCarry`, SBC the same on the operand's complement; the
result and the carry and overflow flags are then sums and differences of numbers. -/
theorem addAndSubtract : Obligations.AddAndSubtract := by
  intro s o r c cpu
  refine ⟨sameMemory_readOperand o s, ?adc, ?sbc⟩
  case adc =>
    obtain ⟨hC, hV, hZ, hN, hkept⟩ := addStatus_spec s.cpu.p s.cpu.a r.1
    exact ⟨addResult s.cpu.a r.1 (flagC s.cpu.p), addStatus s.cpu.p s.cpu.a r.1,
      congrArg _ (readInstr_eq o
        (fun b c => { c with a := addResult c.a b (flagC c.p), p := addStatus c.p c.a b }) (fun _ _ => rfl) s),
      addResult_toNat _ _ _, hC.trans (addCarry_eq _ _ _), hV.trans (addOverflow_eq _ _ _), hZ, hN, hkept⟩
  case sbc =>
    obtain ⟨hC, hV, hZ, hN, hkept⟩ := addStatus_spec s.cpu.p s.cpu.a (r.1 ^^^ 0xFF)
    exact ⟨addResult s.cpu.a (r.1 ^^^ 0xFF) (flagC s.cpu.p), addStatus s.cpu.p s.cpu.a (r.1 ^^^ 0xFF),
      congrArg _ (readInstr_eq o
        (fun b c => { c with
          a := addResult c.a (b ^^^ 0xFF) (flagC c.p), p := addStatus c.p c.a (b ^^^ 0xFF) }) (fun _ _ => rfl) s),
      addResult_xor_FF_toNat _ _ _, hC.trans (addCarry_xor_FF _ _ _), hV.trans (addOverflow_xor_FF _ _ _),
      hZ, hN, hkept⟩

/-! ## AND, ORA, EOR (41 R162 to R164) -/

/-- A read-class instruction that combines the operand into `A` by `g` and sets Z and N by the result. -/
theorem readInstr_setA_setZN_eq (o : ReadOp) (g : Byte → Byte → Byte) (s : State) :
    let r := readOperand o s
    readInstr o (fun b u => (u.setA (g u.cpu.a b)).setZN (g u.cpu.a b)) s =
      { r.2 with
        cpu := { s.cpu with
          a := g s.cpu.a r.1
          p := putZN s.cpu.p (g s.cpu.a r.1)
          pageCross := r.2.cpu.pageCross
          skip := s.cpu.skip + BitVec.ofNat 32 (readCycles o r.2.cpu.pageCross) } } :=
  readInstr_eq o (fun b c => { c with a := g c.a b, p := putZN c.p (g c.a b) }) (fun _ _ => rfl) s

/-- Settles O21: each is the read-class shape with its byte operation, which acts on each bit alone. -/
theorem logicCombinesBits : Obligations.LogicCombinesBits := by
  intro s o r
  refine ⟨sameMemory_readOperand o s, ?_⟩
  rintro i f (⟨rfl, rfl⟩ | ⟨rfl, rfl⟩ | ⟨rfl, rfl⟩)
  · exact ⟨_, _, congrArg _ (readInstr_setA_setZN_eq o (· &&& ·) s), fun _ _ => BitVec.getLsbD_and, setsZN_putZN _ _⟩
  · exact ⟨_, _, congrArg _ (readInstr_setA_setZN_eq o (· ||| ·) s), fun _ _ => BitVec.getLsbD_or, setsZN_putZN _ _⟩
  · exact ⟨_, _, congrArg _ (readInstr_setA_setZN_eq o (· ^^^ ·) s), fun _ _ => BitVec.getLsbD_xor, setsZN_putZN _ _⟩

/-! ## CMP, CPX, CPY, BIT (41 R165 to R168) -/

/-- Two bytes have no bit in common exactly when their and is zero. -/
theorem and_eq_zero_iff_bits (a m : Byte) :
    a &&& m = 0 ↔ ∀ j, j < 8 → bitOf a j = false ∨ bitOf m j = false := by
  have hbit (j : Nat) : bitOf (a &&& m) j = (bitOf a j && bitOf m j) := BitVec.getLsbD_and
  have hzero (j : Nat) : bitOf (0 : Byte) j = false := BitVec.getLsbD_zero
  simp only [← Bool.and_eq_false_iff, ← hbit]
  constructor
  · intro h j _
    rw [h, hzero]
  · intro h
    exact byte_ext fun j hj => (h j hj).trans (hzero j).symm

/-- The three flags of BIT, and that the other bits keep. -/
theorem bitStatus_spec (p a m : Byte) :
    (flagZ (bitStatus p a m) = true ↔ ∀ j, j < 8 → bitOf a j = false ∨ bitOf m j = false) ∧
    flagN (bitStatus p a m) = bitOf m 7 ∧ flagV (bitStatus p a m) = bitOf m 6 ∧
    flagsKept 0xC2 p (bitStatus p a m) := by
  refine ⟨?_, by simp [bitStatus, flagN], by simp [bitStatus, flagV], ?_⟩
  · rw [← and_eq_zero_iff_bits]
    simp [bitStatus, flagZ]
  · rw [flagsKept_iff]
    intro j _ hm
    have h1 : j ≠ 1 := by rintro rfl; exact absurd hm (by decide)
    have h6 : j ≠ 6 := by rintro rfl; exact absurd hm (by decide)
    have h7 : j ≠ 7 := by rintro rfl; exact absurd hm (by decide)
    simp [bitStatus, h1, h6, h7]

/-- A read-class instruction that changes the status alone, by `status` of the operand and of registers other than
`page_cross`. -/
theorem readInstr_setP_eq (o : ReadOp) (status : Byte → Cpu → Byte)
    (hcross : ∀ b c cross, status b { c with pageCross := cross } = status b c) (s : State) :
    let r := readOperand o s
    readInstr o (fun b u => u.setP (status b u.cpu)) s =
      { r.2 with
        cpu := { s.cpu with
          p := status r.1 s.cpu
          pageCross := r.2.cpu.pageCross
          skip := s.cpu.skip + BitVec.ofNat 32 (readCycles o r.2.cpu.pageCross) } } := by
  intro r
  rw [← hcross r.1 s.cpu r.2.cpu.pageCross]
  exact readInstr_eq o (fun b c => { c with p := status b c }) (fun _ _ => rfl) s

/-- Settles O22: each is the read-class shape with an operation on the status alone. -/
theorem comparesSetFlagsOnly : Obligations.ComparesSetFlagsOnly := by
  intro s o r next
  refine ⟨sameMemory_readOperand o s, ?compare, ?bit⟩
  case compare =>
    rintro i reg (⟨rfl, rfl⟩ | ⟨rfl, rfl⟩ | ⟨rfl, rfl⟩)
    · exact ⟨_, congrArg _ (readInstr_setP_eq o (fun b c => compareStatus c.p c.a b) (fun _ _ _ => rfl) s),
        compareStatus_spec _ _ _⟩
    · exact ⟨_, congrArg _ (readInstr_setP_eq o (fun b c => compareStatus c.p c.x b) (fun _ _ _ => rfl) s),
        compareStatus_spec _ _ _⟩
    · exact ⟨_, congrArg _ (readInstr_setP_eq o (fun b c => compareStatus c.p c.y b) (fun _ _ _ => rfl) s),
        compareStatus_spec _ _ _⟩
  case bit =>
    rintro m rfl
    exact ⟨_, congrArg _ (readInstr_setP_eq (.mem m) (fun b c => bitStatus c.p c.a b) (fun _ _ _ => rfl) s),
      bitStatus_spec _ _ _⟩
/-! ## INC and DEC (41 R169, R170, 20 R65) -/

/-- A decrement as a number, modulo 256. -/
theorem sub_one_toNat (b : Byte) : (b - 1).toNat = (b.toNat + 255) % 256 := by
  rw [BitVec.toNat_sub, Nat.add_comm]
  rfl

/-- An increment as a number, modulo 256. -/
theorem add_one_toNat (b : Byte) : (b + 1).toNat = (b.toNat + 1) % 256 := BitVec.toNat_add b 1

/-- A read-modify-write that changes the byte by `f` and sets Z and N by what it wrote, the registers and the other
flags kept. -/
theorem rmwInstr_setZN_spec (m : AddrMode) (f : Byte → Byte) (s : State) (hi : MemInv s) :
    let ea := (effAddr m s).1
    let r := busRead (effAddr m s).2 ea
    let t := rmwInstr m (fun b p => (f b, p)) (fun v u => u.setZN v) s
    Stored s r.2 t ea (f r.1) ∧
      t.cpu =
        { s.cpu with
          p := putZN s.cpu.p (f r.1)
          pageCross := (effAddr m s).2.cpu.pageCross
          skip := s.cpu.skip + storeStall s ea + BitVec.ofNat 32 (rmwCycles m)
          latch := { s.cpu.latch with nmi := t.cpu.latch.nmi } } :=
  rmwInstr_spec m _ _ (fun _ a _ => a) (fun v _ p => putZN p v) afterSetZN s hi

/-- Settles O23: both are the read-modify-write shape followed by `SetZN`. -/
theorem incrementMemory : Obligations.IncrementMemory := by
  intro s m hi ea r i v hiv
  obtain ⟨rfl, hv⟩ | ⟨rfl, hv⟩ := hiv
  · obtain rfl : v = r.1 + 1 := BitVec.eq_of_toNat_eq (hv.trans (add_one_toNat r.1).symm)
    exact ⟨_, _, rfl, setsZN_putZN _ _, rmwInstr_setZN_spec m (· + 1) s hi⟩
  · obtain rfl : v = r.1 - 1 := BitVec.eq_of_toNat_eq (hv.trans (sub_one_toNat r.1).symm)
    exact ⟨_, _, rfl, setsZN_putZN _ _, rmwInstr_setZN_spec m (· - 1) s hi⟩

/-! ## INX, INY, DEX, DEY (41 R171 to R174) -/

/-- Settles O24: each is the implied shape on its register and the status. -/
theorem incrementRegisters : Obligations.IncrementRegisters := fun s =>
  ⟨⟨_, _, add_one_toNat s.cpu.x, setsZN_putZN _ _, rfl⟩, ⟨_, _, add_one_toNat s.cpu.y, setsZN_putZN _ _, rfl⟩,
    ⟨_, _, sub_one_toNat s.cpu.x, setsZN_putZN _ _, rfl⟩, ⟨_, _, sub_one_toNat s.cpu.y, setsZN_putZN _ _, rfl⟩,
    rfl, rfl, rfl, rfl⟩

end Sys2Proof.Machine
end

section
/-! Shifts and rotates on the accumulator and in memory (42 R180 to R184): one transform for the four operations, then
`SetZN` by the result. -/

namespace Sys2Proof.Machine

/-! ## The four transforms as one (42 R180 to R183) -/

/-- The transform of the shift to the left or to the right, with the old carry coming in or with a zero. -/
def shiftTransform : Bool → Bool → Byte → Byte → Byte × Byte
  | true, false => aslTransform
  | false, false => lsrTransform
  | true, true => rolTransform
  | false, true => rorTransform

/-- Each of the four instructions is the shift shape with its transform. -/
theorem exec_shift {i : Instr} {o : ShiftOp} {left rotate : Bool}
    (h : (i = .asl o ∧ left = true ∧ rotate = false) ∨ (i = .lsr o ∧ left = false ∧ rotate = false) ∨
      (i = .rol o ∧ left = true ∧ rotate = true) ∨ (i = .ror o ∧ left = false ∧ rotate = true)) (s : State) :
    exec i s = .next (shiftInstr o (shiftTransform left rotate) s) := by
  obtain ⟨rfl, rfl, rfl⟩ | ⟨rfl, rfl, rfl⟩ | ⟨rfl, rfl, rfl⟩ | ⟨rfl, rfl, rfl⟩ := h
  · rfl
  · rfl
  · rfl
  · rfl

/-- It is the transform that the model's `shiftTransform_spec` speaks of. -/
theorem shiftTransform_cases (left rotate : Bool) :
    (shiftTransform left rotate = aslTransform ∧ left = true ∧ rotate = false) ∨
      (shiftTransform left rotate = lsrTransform ∧ left = false ∧ rotate = false) ∨
      (shiftTransform left rotate = rolTransform ∧ left = true ∧ rotate = true) ∨
      (shiftTransform left rotate = rorTransform ∧ left = false ∧ rotate = true) :=
  match left, rotate with
  | true, false => .inl ⟨rfl, rfl, rfl⟩
  | false, false => .inr (.inl ⟨rfl, rfl, rfl⟩)
  | true, true => .inr (.inr (.inl ⟨rfl, rfl, rfl⟩))
  | false, true => .inr (.inr (.inr ⟨rfl, rfl, rfl⟩))

@[simp] theorem flagC_putZN (p v : Byte) : flagC (putZN p v) = flagC p := by
  simp [flagC]

/-- The byte and the status of a shift followed by `SetZN` of the byte (42 R184). -/
theorem shiftTransform_setZN_spec (left rotate : Bool) (m p : Byte) :
    let t := shiftTransform left rotate m p
    (t.1.toNat, flagC (putZN t.2 t.1)) = shiftSpec m (flagC p) left rotate ∧
      flagZ (putZN t.2 t.1) = decide (t.1 = 0) ∧ flagN (putZN t.2 t.1) = decide (0x80 ≤ t.1) ∧
      flagsKept 0x83 p (putZN t.2 t.1) := by
  intro t
  obtain ⟨hspec, hC⟩ := shiftTransform_spec m p _ left rotate (shiftTransform_cases left rotate)
  obtain ⟨hZ, hN, hZN⟩ := setsZN_putZN t.2 t.1
  exact ⟨by rwa [flagC_putZN], hZ, hN, flagsKept_trans hC hZN rfl⟩

/-! ## On `A` and in memory -/

/-- Settles O25: the shift shape on `A` is the transform, `SetZN` and two cycles. -/
theorem shiftsOnAccumulator : Obligations.ShiftsOnAccumulator := by
  intro s i left rotate h
  exact ⟨_, _, exec_shift h s, shiftTransform_setZN_spec left rotate s.cpu.a s.cpu.p⟩

/-- Settles O26: the shift shape in memory is the read-modify-write shape followed by `SetZN`. -/
theorem shiftsInMemory : Obligations.ShiftsInMemory := by
  intro s m i left rotate hi h ea r
  obtain ⟨hstored, hcpu⟩ := rmwInstr_spec m (shiftTransform left rotate) (fun v u => u.setZN v)
    (fun _ a _ => a) (fun v _ p => putZN p v) afterSetZN s hi
  obtain ⟨hspec, hZ, hN, hkept⟩ := shiftTransform_setZN_spec left rotate r.1 s.cpu.p
  exact ⟨_, _, _, exec_shift h s, hstored, hspec, hZ, hN, hkept, hcpu⟩

end Sys2Proof.Machine
end

section
/-! Control flow (43 R190 to R205): jumps, subroutine call and return, BRK and RTI, and the eight branches. -/

namespace Sys2Proof.Machine

/-! ## What pushes leave in CPU memory (10 R24, 61 R302) -/

/-- The addresses that share the byte of a stack address are its mirrors in work RAM. -/
theorem sharesByte_stackAddr_iff (sp : Byte) (a : Word) :
    sharesByte (stackAddr sp) a ↔ a.toNat < 0x2000 ∧ a.toNat % 2048 = 256 + sp.toNat := by
  have haddr := stackAddr_toNat sp
  have hsp := sp.isLt
  constructor
  · rintro (⟨-, ha, hmod⟩ | rfl)
    · omega
    · omega
  · rintro ⟨ha, hmod⟩
    exact .inl ⟨stackAddr_lt sp, ha, by omega⟩

theorem isMemory_stackAddr (sp : Byte) : isMemory (stackAddr sp) := .inl (stackAddr_lt sp)

theorem byteAt_push_of_sharesByte {s : State} (hram : s.ram.wf = true) (v : Byte) {a : Word}
    (h : sharesByte (stackAddr s.cpu.sp) a) : byteAt (push s v) a = v := by
  rw [sharesByte_stackAddr_iff] at h
  rw [byteAt_push hram v (.inl h.1), if_pos h]

theorem byteAt_push_of_not_sharesByte {s : State} (hram : s.ram.wf = true) (v : Byte) {a : Word} (ha : isMemory a)
    (h : ¬ sharesByte (stackAddr s.cpu.sp) a) : byteAt (push s v) a = byteAt s a := by
  rw [sharesByte_stackAddr_iff] at h
  rw [byteAt_push hram v ha, if_neg h]

/-- A push leaves every other byte of the stack page. -/
theorem byteAt_push_stackAddr_of_ne {s : State} (hram : s.ram.wf = true) (v : Byte) {sp : Byte} (h : s.cpu.sp ≠ sp) :
    byteAt (push s v) (stackAddr sp) = byteAt s (stackAddr sp) :=
  byteAt_push_of_not_sharesByte hram v (isMemory_stackAddr sp) (mt stackAddr_inj h)

theorem push_sp (s : State) (v : Byte) : (push s v).cpu.sp = s.cpu.sp - 1 := by rw [push_eq]

theorem push_ramWf {s : State} (hram : s.ram.wf = true) (v : Byte) : (push s v).ram.wf = true := by
  rw [push_eq]
  exact wf_write _ v hram

/-- Two pushes, whatever then becomes of the CPU: their bytes at `SP` and below it, and every other byte of CPU
memory kept. -/
theorem byteAt_push_push {s : State} (hram : s.ram.wf = true) (h l : Byte) (c : Cpu) :
    let t := { push (push s h) l with cpu := c }
    byteAt t (stackAddr s.cpu.sp) = h ∧ byteAt t (stackAddr (s.cpu.sp - 1)) = l ∧
    (∀ a, isMemory a → ¬ sharesByte (stackAddr s.cpu.sp) a → ¬ sharesByte (stackAddr (s.cpu.sp - 1)) a →
      byteAt t a = byteAt s a) := by
  intro t
  have ht (a : Word) (ha : isMemory a) : byteAt t a = byteAt (push (push s h) l) a := byteAt_withCpu _ c a ha
  have hram' := push_ramWf hram h
  have hne : (push s h).cpu.sp ≠ s.cpu.sp := by simp [push_sp]
  rw [← push_sp s h]
  refine ⟨?_, ?_, fun a ha h0 h1 => ?_⟩
  · rw [ht _ (isMemory_stackAddr _), byteAt_push_stackAddr_of_ne hram' l hne,
      byteAt_push_of_sharesByte hram h (.inr rfl)]
  · rw [ht _ (isMemory_stackAddr _), byteAt_push_of_sharesByte hram' l (.inr rfl)]
  · rw [ht a ha, byteAt_push_of_not_sharesByte hram' l ha h1, byteAt_push_of_not_sharesByte hram h ha h0]

/-! ## The pushes of an interrupt sequence (60 R276) -/

/-- The first half of the sequence is three pushes and a change of the CPU. -/
theorem beginInterrupt_eq_push (k : IntKind) (s : State) :
    beginInterrupt k s =
      { push (push (push s (hi s.cpu.pc)) (lo s.cpu.pc)) (pushedStatus k s.cpu.p) with
        cpu := (beginInterrupt k s).cpu } := by
  rw [beginInterrupt_eq, push_eq (push (push s _) _), push_push_eq]

/-- What the stack holds after the first half of the sequence, whatever then becomes of the CPU; every other byte of
CPU memory keeps. -/
theorem byteAt_beginInterrupt (k : IntKind) {s : State} (hram : s.ram.wf = true) (c : Cpu) :
    let t := { beginInterrupt k s with cpu := c }
    byteAt t (stackAddr s.cpu.sp) = hi s.cpu.pc ∧ byteAt t (stackAddr (s.cpu.sp - 1)) = lo s.cpu.pc ∧
    byteAt t (stackAddr (s.cpu.sp - 2)) = pushedStatus k s.cpu.p ∧
    (∀ a, isMemory a → ¬ sharesByte (stackAddr s.cpu.sp) a → ¬ sharesByte (stackAddr (s.cpu.sp - 1)) a →
      ¬ sharesByte (stackAddr (s.cpu.sp - 2)) a → byteAt t a = byteAt s a) := by
  obtain ⟨hhi, hlo, hframe⟩ :=
    byteAt_push_push hram (hi s.cpu.pc) (lo s.cpu.pc) (push (push s (hi s.cpu.pc)) (lo s.cpu.pc)).cpu
  have hu := push_ramWf (push_ramWf hram (hi s.cpu.pc)) (lo s.cpu.pc)
  have hsp : (push (push s (hi s.cpu.pc)) (lo s.cpu.pc)).cpu.sp = s.cpu.sp - 2 := by rw [push_push_eq]
  rw [beginInterrupt_eq_push]
  generalize push (push s (hi s.cpu.pc)) (lo s.cpu.pc) = u at *
  intro t
  have ht (a : Word) (ha : isMemory a) : byteAt t a = byteAt (push u (pushedStatus k s.cpu.p)) a :=
    byteAt_withCpu (push u _) c a ha
  have hne0 : u.cpu.sp ≠ s.cpu.sp := by simp [hsp]
  have hne1 : u.cpu.sp ≠ s.cpu.sp - 1 := by rw [hsp, ← sub_one_sub_one]; simp
  rw [← hsp]
  refine ⟨?_, ?_, ?_, fun a ha h0 h1 h2 => ?_⟩
  · rw [ht _ (isMemory_stackAddr _), byteAt_push_stackAddr_of_ne hu _ hne0, hhi]
  · rw [ht _ (isMemory_stackAddr _), byteAt_push_stackAddr_of_ne hu _ hne1, hlo]
  · rw [ht _ (isMemory_stackAddr _), byteAt_push_of_sharesByte hu _ (.inr rfl)]
  · rw [ht a ha, byteAt_push_of_not_sharesByte hu _ ha h2, hframe a ha h0 h1]

theorem flagI_putI (p : Byte) (b : Bool) : flagI (putI p b) = b := by simp [flagI]

theorem flagsKept_putI (p : Byte) (b : Bool) : flagsKept 0x04 p (putI p b) := by
  rw [flagsKept_iff]
  intro j _ hm
  have h2 : j ≠ 2 := by rintro rfl; exact absurd hm (by decide)
  simp [h2]

/-! ## BRK and RTI (43 R194, R195, 60 R275, R283) -/

/-- Settles O10: BRK is the first half of the sequence from the state with `PC` one further on, and seven cycles. -/
theorem brkBeginsSequence : Obligations.BrkBeginsSequence := by
  intro s hinv
  let u := s.setPc (s.cpu.pc + 1)
  obtain ⟨hhi, hlo, hp, hframe⟩ :=
    byteAt_beginInterrupt .brk (s := u) hinv.ramWf ((beginInterrupt .brk u).charge 7).cpu
  refine ⟨_, putI s.cpu.p true, rfl, hhi, hlo, hp, fun a ha h0 h1 h2 => ?frame, flagI_putI _ _, flagsKept_putI _ _,
    ?state⟩
  case frame => exact (hframe a ha h0 h1 h2).trans (byteAt_withCpu s _ a ha)
  case state =>
    rw [beginInterrupt_eq]
    rfl

/-- Settles O11: RTI is the sequence's three pulls and six cycles. -/
theorem rtiPullsStatusAndPc : Obligations.RtiPullsStatusAndPc := by
  intro s pulled
  refine ⟨_, loadedStatus (pulled 1), rfl, fun j _ => bitOf_loadedStatus _ j, ?_⟩
  rw [returnFromInterrupt_eq]
  rfl

/-! ## Jumps (43 R190, R191) -/

/-- The second address of an indirect jump wraps in the page of the pointer (70 R527). -/
theorem word_hi_lo_add_one (w : Word) :
    word (hi w) (lo w + 1) = BitVec.ofNat 16 (w.toNat / 256 * 256 + (w.toNat + 1) % 256) := by
  have hlo : (lo w + 1).toNat = (w.toNat + 1) % 256 := by rw [add_one_toNat, lo_toNat, Nat.mod_add_mod]
  apply BitVec.eq_of_toNat_eq
  rw [word_toNat, hi_toNat, hlo, BitVec.toNat_ofNat]
  omega

/-- It is memory where the pointer is. -/
theorem isMemory_word_hi_lo_add_one {w : Word} (h : isMemory w) : isMemory (word (hi w) (lo w + 1)) := by
  unfold isMemory at *
  rw [word_toNat, hi_toNat]
  omega

theorem sameMemory_readPair (s : State) (l h : Word) : SameMemory s (readPair s l h).2 :=
  (sameMemory_busRead s l).trans (sameMemory_busRead _ h)

/-- Settles O27: the indirect form is one pair read and five cycles; a pair in memory is read without any change. -/
theorem jumpsLoadPc : Obligations.JumpsLoadPc := by
  intro s w
  let high := word (hi w) (lo w + 1)
  have hcpu : (readPair s w high).2.cpu = s.cpu := readPair_cpu s w high
  refine ⟨rfl, _, rfl, ?cpu, (sameMemory_readPair s w high).trans (SameMemory.withCpu _ _), fun hw => ?memory⟩
  case cpu =>
    rw [charge_cpu, setPc_cpu, hcpu]
    rfl
  case memory =>
    rw [← word_hi_lo_add_one, readPair_isMemory s hw (isMemory_word_hi_lo_add_one hw)]
    exact ⟨rfl, (word_toNat _ _).trans (Nat.add_comm _ _)⟩

/-! ## Subroutine call and return (43 R192, R193, R205) -/

/-- RTS is two pulls and six cycles. -/
theorem exec_rts (s : State) :
    exec .rts s = .next
      { s with
        cpu := { s.cpu with
          pc := word (byteAt s (stackAddr (s.cpu.sp + 2))) (byteAt s (stackAddr (s.cpu.sp + 1))) + 1
          sp := s.cpu.sp + 2
          skip := s.cpu.skip + 6 } } := by
  have hstack (c : Cpu) : byteAt { s with cpu := c } (stackAddr (s.cpu.sp + 2)) =
      byteAt s (stackAddr (s.cpu.sp + 2)) := byteAt_withCpu s c _ (isMemory_stackAddr _)
  show execRts s = _
  simp only [execRts, pull_eq_byteAt, add_one_add_one, hstack]
  rfl

/-- RTS undoes a call's two pushes: it loads the address after the one they hold. -/
theorem exec_rts_of_pushed {t : State} {sp : Byte} {ret : Word} (hsp : t.cpu.sp = sp - 2)
    (hhi : byteAt t (stackAddr sp) = hi ret) (hlo : byteAt t (stackAddr (sp - 1)) = lo ret) :
    ∃ u, exec .rts t = .next u ∧ u.cpu.pc = ret + 1 ∧ u.cpu.sp = sp := by
  have htwo : t.cpu.sp + 2 = sp := by rw [hsp, BitVec.sub_add_cancel]
  have hone : t.cpu.sp + 1 = sp - 1 := by rw [hsp, ← sub_one_sub_one, BitVec.sub_add_cancel]
  refine ⟨_, exec_rts t, ?_, htwo⟩
  show word (byteAt t (stackAddr (t.cpu.sp + 2))) (byteAt t (stackAddr (t.cpu.sp + 1))) + 1 = _
  rw [htwo, hone, hhi, hlo, word_hi_lo]

/-- JSR is two pushes of the return address, and a change of `PC`, `SP` and the cycles. -/
theorem exec_jsr (target : Word) (s : State) :
    exec (.jsr target) s = .next
      { push (push s (hi (s.cpu.pc - 1))) (lo (s.cpu.pc - 1)) with
        cpu := { s.cpu with pc := target, sp := s.cpu.sp - 2, skip := s.cpu.skip + 6 } } := by
  show execJsr target s = _
  rw [execJsr, push_push_eq]
  rfl

/-- Settles O28: `exec_jsr` and `exec_rts`, with the stack's bytes by `byteAt_push_push`; RTS finds what JSR left. -/
theorem subroutineCallAndReturn : Obligations.SubroutineCallAndReturn := by
  intro s w hinv
  obtain ⟨hhi, hlo, hframe⟩ := byteAt_push_push hinv.ramWf (hi (s.cpu.pc - 1)) (lo (s.cpu.pc - 1))
    { s.cpu with pc := w, sp := s.cpu.sp - 2, skip := s.cpu.skip + 6 }
  obtain ⟨u, hu, hpc, hsp⟩ := exec_rts_of_pushed rfl hhi hlo
  refine ⟨⟨_, exec_jsr w s, rfl, hhi, hlo, hframe, ?_, u, hu, hpc.trans (BitVec.sub_add_cancel _ _), hsp⟩, exec_rts s⟩
  rw [push_push_eq]

/-! ## Branches (43 R196 to R204, 50 R246) -/

/-- A sign-extended byte as a number modulo 65536. -/
theorem sext16_toNat (b : Byte) : ((sext16 b).toNat : Int) = signed b % 65536 := by
  have hofInt : sext16 b = BitVec.ofInt 16 (signed b) := rfl
  rw [hofInt, BitVec.toNat_ofInt]
  exact Int.toNat_of_nonneg (Int.emod_nonneg _ (by decide))

theorem branchTarget_toNat (s : State) (off : Byte) :
    ((branchTarget s off).toNat : Int) = ((s.cpu.pc.toNat : Int) + signed off) % 65536 := by
  have hoff := sext16_toNat off
  have hsum : (branchTarget s off).toNat = (s.cpu.pc.toNat + (sext16 off).toNat) % 65536 := BitVec.toNat_add _ _
  omega

/-- Two addresses are in different pages exactly when their high bytes differ. -/
theorem hi_bne_hi (v w : Word) : (hi v != hi w) = decide (v.toNat / 256 ≠ w.toNat / 256) := by
  rw [Bool.eq_iff_iff, bne_iff_ne, ne_eq, ← BitVec.toNat_inj, hi_toNat, hi_toNat, decide_eq_true_iff]

/-- The branch shape, taken and not, as an equation by the pages of the target and of the next instruction. -/
theorem branchInstr_eq (taken : Bool) (off : Byte) (s : State) :
    let target := branchTarget s off
    branchInstr taken off s =
      if taken = true then
        if target.toNat / 256 = s.cpu.pc.toNat / 256 then
          { s with cpu := { s.cpu with pc := target, pageCross := false, skip := s.cpu.skip + 3 } }
        else { s with cpu := { s.cpu with pc := target, pageCross := true, skip := s.cpu.skip + 4 } }
      else { s with cpu := { s.cpu with skip := s.cpu.skip + 2 } } := by
  intro target
  cases taken with
  | false => rfl
  | true =>
    show ((s.setPageCross (hi target != hi s.cpu.pc)).setPc target).charge
      (if (hi target != hi s.cpu.pc) = true then 4 else 3) = _
    rw [hi_bne_hi, if_pos rfl]
    by_cases hpage : target.toNat / 256 = s.cpu.pc.toNat / 256
    · rw [decide_eq_false (not_not_intro hpage), if_pos hpage]
      rfl
    · rw [decide_eq_true hpage, if_neg hpage]
      rfl

/-- Settles O29: each is the branch shape on its condition. -/
theorem branchesTestOneFlag : Obligations.BranchesTestOneFlag := by
  intro s off i taken h
  have hexec : exec i s = .next (branchInstr taken off s) := by
    obtain ⟨rfl, rfl⟩ | ⟨rfl, rfl⟩ | ⟨rfl, rfl⟩ | ⟨rfl, rfl⟩ | ⟨rfl, rfl⟩ | ⟨rfl, rfl⟩ | ⟨rfl, rfl⟩ | ⟨rfl, rfl⟩ := h
    all_goals rfl
  exact ⟨branchTarget s off, branchTarget_toNat s off, hexec.trans (congrArg _ (branchInstr_eq taken off s))⟩

end Sys2Proof.Machine
end

section
/-! Flag instructions, NOP and the no-op bytes (44 R210 to R217, 45 R228). -/

namespace Sys2Proof.Machine

/-! ## The flag instructions (44 R210 to R216) -/

/-- The seven flag instructions, each with its bit of the status, the value put there and its opcode byte. -/
def WritesFlag (i : Instr) (bit : Nat) (b : Bool) (op : Byte) : Prop :=
  (i = .clc ∧ bit = 0 ∧ b = false ∧ op = 0x18) ∨ (i = .sec ∧ bit = 0 ∧ b = true ∧ op = 0x38) ∨
    (i = .cli ∧ bit = 2 ∧ b = false ∧ op = 0x58) ∨ (i = .sei ∧ bit = 2 ∧ b = true ∧ op = 0x78) ∨
    (i = .clv ∧ bit = 6 ∧ b = false ∧ op = 0xB8) ∨ (i = .cld ∧ bit = 3 ∧ b = false ∧ op = 0xD8) ∨
    (i = .sed ∧ bit = 3 ∧ b = true ∧ op = 0xF8)

/-- Each is the implied shape with one bit of the status put. -/
theorem exec_writesFlag {i : Instr} {bit : Nat} {b : Bool} {op : Byte} (h : WritesFlag i bit b op) (s : State) :
    bit < 8 ∧ encode i = some [op] ∧
      exec i s = .next (impliedInstr (fun u => u.setP (putBit s.cpu.p bit b)) s) := by
  obtain ⟨rfl, rfl, rfl, rfl⟩ | ⟨rfl, rfl, rfl, rfl⟩ | ⟨rfl, rfl, rfl, rfl⟩ | ⟨rfl, rfl, rfl, rfl⟩ |
    ⟨rfl, rfl, rfl, rfl⟩ | ⟨rfl, rfl, rfl, rfl⟩ | ⟨rfl, rfl, rfl, rfl⟩ := h
  all_goals exact ⟨by decide, rfl, rfl⟩

/-! ## The no-op bytes (45 R228, 50 R248) -/

/-- A charge of no cycles changes nothing. -/
theorem charge_zero (s : State) : s.charge 0 = s := by
  have hskip : s.cpu.skip + BitVec.ofNat 32 0 = s.cpu.skip := BitVec.add_zero _
  rw [State.charge, hskip]

theorem exec_xxx (op : Byte) (s : State) : exec (.xxx op) s = .next s := congrArg _ (charge_zero s)

/-- Settles O30: a flag instruction puts one bit of the status (`exec_writesFlag`, `bitOf_putBit`), NOP is the implied
shape alone, and a no-op byte charges no cycles (`exec_xxx`). -/
theorem flagInstructionsChangeOneFlag : Obligations.FlagInstructionsChangeOneFlag := by
  intro s
  refine ⟨fun i bit b op h => ?flag, rfl, rfl, fun op => exec_xxx op s⟩
  obtain ⟨hbit, hencode, hexec⟩ := exec_writesFlag h s
  exact ⟨hencode, putBit s.cpu.p bit b, hexec, fun j => bitOf_putBit _ _ j b hbit⟩

end Sys2Proof.Machine
end

section
/-! The unofficial combinations (45 R220 to R223, R226, R227): the read-modify-write shape followed by an operation on
`A` and the status with the byte written. -/

namespace Sys2Proof.Machine

/-! ## SLO, RLA, SRE: a shift, then a logic operation on `A` (45 R220 to R222) -/

/-- `after` of SLO, RLA and SRE: the byte operation `g` on `A` and the byte written, into `A` and `SetZN`. -/
def combineIntoA (g : Byte → Byte → Byte) (v : Byte) (s : State) : State :=
  (s.setA (g s.cpu.a v)).setZN (g s.cpu.a v)

/-- The byte operation `g` acts on each bit alone, by `f`. -/
def BitwiseBy (f : Bool → Bool → Bool) (g : Byte → Byte → Byte) : Prop :=
  ∀ a v j, bitOf (g a v) j = f (bitOf a j) (bitOf v j)

/-- Each of the three is the read-modify-write shape of its shift, with a byte operation that acts on each bit. -/
theorem exec_shiftAndLogic {i : Instr} {m : AddrMode} {left rotate : Bool} {f : Bool → Bool → Bool}
    (h : (i = .slo m ∧ left = true ∧ rotate = false ∧ f = or) ∨
      (i = .rla m ∧ left = true ∧ rotate = true ∧ f = and) ∨
      (i = .sre m ∧ left = false ∧ rotate = false ∧ f = xor)) (s : State) :
    ∃ g, BitwiseBy f g ∧ exec i s = .next (rmwInstr m (shiftTransform left rotate) (combineIntoA g) s) := by
  obtain ⟨rfl, rfl, rfl, rfl⟩ | ⟨rfl, rfl, rfl, rfl⟩ | ⟨rfl, rfl, rfl, rfl⟩ := h
  · exact ⟨(· ||| ·), fun _ _ _ => BitVec.getLsbD_or, rfl⟩
  · exact ⟨(· &&& ·), fun _ _ _ => BitVec.getLsbD_and, rfl⟩
  · exact ⟨(· ^^^ ·), fun _ _ _ => BitVec.getLsbD_xor, rfl⟩

/-- Settles O31: the store and the carry are those of the shift; `A`, Z and N come from the byte operation. -/
theorem shiftAndLogicCombinations : Obligations.ShiftAndLogicCombinations := by
  intro s m i left rotate f hi h ea r
  obtain ⟨g, hbits, hexec⟩ := exec_shiftAndLogic h s
  obtain ⟨hstored, hcpu⟩ := rmwInstr_spec m (shiftTransform left rotate) (combineIntoA g)
    (fun v a _ => g a v) (fun v a p => putZN p (g a v)) (fun _ _ => rfl) s hi
  let u := shiftTransform left rotate r.1 s.cpu.p
  obtain ⟨hspec, hshift⟩ := shiftTransform_spec r.1 s.cpu.p _ left rotate (shiftTransform_cases left rotate)
  obtain ⟨hZ, hN, hZN⟩ := setsZN_putZN u.2 (g s.cpu.a u.1)
  rw [← flagC_putZN u.2 (g s.cpu.a u.1)] at hspec
  exact ⟨_, _, _, _, hexec, hstored, hspec, fun j _ => hbits _ _ j, hZ, hN, flagsKept_trans hshift hZN rfl, hcpu⟩

/-! ## RRA and ISC: a change of the byte, then an addition or subtraction (45 R223, R227) -/

theorem carryNat_decide_odd (n : Nat) : carryNat (decide (n % 2 = 1)) = n % 2 := by
  obtain h | h := Nat.mod_two_eq_zero_or_one n
  · rw [h]; rfl
  · rw [h]; rfl

/-- The byte, the carry out as a number, and the status that ROR leaves (42 R183). -/
theorem rorTransform_spec (m p : Byte) :
    (rorTransform m p).1.toNat = (shiftSpec m (flagC p) false true).1 ∧
      carryNat (flagC (rorTransform m p).2) = m.toNat % 2 ∧ flagsKept 0x01 p (rorTransform m p).2 := by
  obtain ⟨hspec, hkept⟩ := shiftTransform_spec m p _ false true (shiftTransform_cases false true)
  obtain ⟨hbyte, hcarry⟩ := Prod.mk.inj hspec
  exact ⟨hbyte, (congrArg carryNat hcarry).trans (carryNat_decide_odd _), hkept⟩

/-- Result, carry and overflow of adding the complement, by the borrow that the carry stands for (41 R161). -/
theorem addComplement_borrow (a m : Byte) (c : Bool) :
    let borrow : Int := if c = true then 0 else 1
    ((addResult a (m ^^^ 0xFF) c).toNat : Int) = (a.toNat - m.toNat - borrow) % 256 ∧
      addCarry a (m ^^^ 0xFF) c = decide (m.toNat + borrow ≤ a.toNat) ∧
      addOverflow a (m ^^^ 0xFF) c =
        decide (signed a - signed m - borrow < -128 ∨ 127 < signed a - signed m - borrow) := by
  intro borrow
  have hborrow : borrow = 1 - carryNat c := by cases c <;> rfl
  have hc := carryNat_le_one c
  rw [hborrow]
  refine ⟨addResult_xor_FF_toNat a m c, ?carry, addOverflow_xor_FF a m c⟩
  case carry =>
    rw [addCarry_xor_FF, decide_eq_decide]
    omega

/-- A read-modify-write followed by `AddWithCarry` of `operand` of the byte written. -/
theorem rmwInstr_addWithCarry_spec (m : AddrMode) (transform : Byte → Byte → Byte × Byte) (operand : Byte → Byte)
    (s : State) (hi : MemInv s) :
    let ea := (effAddr m s).1
    let r := busRead (effAddr m s).2 ea
    let u := transform r.1 s.cpu.p
    let t := rmwInstr m transform (fun v => addWithCarry (operand v)) s
    Stored s r.2 t ea u.1 ∧
      t.cpu =
        { s.cpu with
          a := addResult s.cpu.a (operand u.1) (flagC u.2)
          p := addStatus u.2 s.cpu.a (operand u.1)
          pageCross := (effAddr m s).2.cpu.pageCross
          skip := s.cpu.skip + storeStall s ea + BitVec.ofNat 32 (rmwCycles m)
          latch := { s.cpu.latch with nmi := t.cpu.latch.nmi } } :=
  rmwInstr_spec m transform _ (fun v a p => addResult a (operand v) (flagC p))
    (fun v a p => addStatus p a (operand v)) (fun _ _ => rfl) s hi

/-- Settles O32: RRA adds the rotated byte with ROR's carry; ISC adds the complement of the incremented byte. -/
theorem rotateAddAndIncrementSubtract : Obligations.RotateAddAndIncrementSubtract := by
  intro s m hi ea r cpu
  refine ⟨?rra, ?isc⟩
  case rra =>
    obtain ⟨hstored, hcpu⟩ := rmwInstr_addWithCarry_spec m rorTransform (fun v => v) s hi
    obtain ⟨hbyte, hcarry, hror⟩ := rorTransform_spec r.1 s.cpu.p
    let u := rorTransform r.1 s.cpu.p
    have hsum := addResult_toNat s.cpu.a u.1 (flagC u.2)
    obtain ⟨hC, hV, hZ, hN, hadd⟩ := addStatus_spec u.2 s.cpu.a u.1
    rw [hcarry] at hsum
    rw [addCarry_eq, hcarry] at hC
    rw [addOverflow_eq, hcarry] at hV
    exact ⟨_, _, _, _, rfl, hstored, hbyte, ⟨hsum, hC⟩, hV, hZ, hN, flagsKept_trans hror hadd rfl, hcpu⟩
  case isc =>
    obtain ⟨hstored, hcpu⟩ := rmwInstr_addWithCarry_spec m (fun b p => (b + 1, p)) (· ^^^ 0xFF) s hi
    obtain ⟨hdiff, hborrow, hoverflow⟩ := addComplement_borrow s.cpu.a (r.1 + 1) (flagC s.cpu.p)
    obtain ⟨hC, hV, hZ, hN, hkept⟩ := addStatus_spec s.cpu.p s.cpu.a ((r.1 + 1) ^^^ 0xFF)
    exact ⟨_, _, _, _, rfl, hstored, add_one_toNat r.1, ⟨hdiff, hC.trans hborrow, hV.trans hoverflow⟩, hZ, hN,
      hkept, hcpu⟩

/-! ## DCP: a decrement, then a compare (45 R226) -/

/-- Settles O33: the read-modify-write shape with a decrement, followed by the compare's change of the status. -/
theorem decrementAndCompare : Obligations.DecrementAndCompare := by
  intro s m hi ea r
  obtain ⟨hstored, hcpu⟩ := rmwInstr_spec m (fun b p => (b - 1, p))
    (fun v u => u.setP (compareStatus u.cpu.p u.cpu.a v)) (fun _ a _ => a) (fun v a p => compareStatus p a v)
    (fun _ _ => rfl) s hi
  obtain ⟨hC, hZ, hN, hkept⟩ := compareStatus_spec s.cpu.p s.cpu.a (r.1 - 1)
  exact ⟨_, _, _, rfl, hstored, sub_one_toNat r.1, hC, hZ, hN, hkept, hcpu⟩

end Sys2Proof.Machine
end

section
/-! A step inside a slot and a step at its boundary (50 R240 to R243). -/

namespace Sys2Proof.Machine

/-! ## Inside a slot -/

theorem step_of_insideSlot {s : State} (h : 1 < s.cpu.skip.toNat) :
    step s = .next (deviceTicks (countDown (countCycle s))) := by
  have hin : insideSlot (countCycle s) = true := decide_eq_true h
  rw [step, cpuStep, if_pos hin, thenDevices]

/-- The count-down reaches `n` exactly from `n + 1`. -/
theorem skip_sub_one_toNat_eq_iff {v : BitVec 32} (h : 0 < v.toNat) (n : Nat) :
    (v - 1).toNat = n ↔ v.toNat = n + 1 := by
  have hdown : (v - 1).toNat = v.toNat - 1 := BitVec.toNat_sub_of_le (BitVec.le_def.2 h)
  omega

/-- The count-down's two branches by the `skip` it starts from: one more than what is left at cycle `RC` of an open
sequence, or anything else. -/
theorem countDown_eq_ite {s : State} (h : 0 < s.cpu.skip.toNat) :
    countDown s =
      if s.cpu.inInterrupt = true ∧ s.cpu.skip.toNat = s.cfg.rc.skipLeft + 1 then
        resolveVector { s with cpu := { s.cpu with skip := s.cpu.skip - 1 } }
      else { s with cpu := { s.cpu with skip := s.cpu.skip - 1 } } := by
  simp only [countDown, Bool.and_eq_true, beq_iff_eq, skip_sub_one_toNat_eq_iff h]

/-- Settles O5: a step inside a slot is `countDown` and the device ticks, and `countDown` branches on the cycle `RC` of
an open sequence. -/
theorem stepInsideSlotCountsDown : Obligations.StepInsideSlotCountsDown := by
  intro s hlong c
  have hdown := countDown_eq_ite (s := countCycle s) (Nat.zero_lt_of_lt hlong)
  refine ⟨fun hquiet => ?quiet, fun hseq hrc => ?vector⟩
  case quiet =>
    have hc : countDown (countCycle s) = c :=
      hdown.trans (if_neg (not_and_or.2 (hquiet.imp_left ne_true_of_eq_false)))
    rw [step_of_insideSlot hlong, hc]
  case vector =>
    have hc : countDown (countCycle s) = resolveVector c := hdown.trans (if_pos ⟨hseq, hrc⟩)
    rw [step_of_insideSlot hlong, hc]

/-! ## At a slot boundary -/

/-- The state in which a boundary step polls, with no sequence open: the cycle counted and nothing owed. -/
def slotOpened (s : State) : State :=
  { s with cpu := { s.cpu with skip := 0, cyclesTotal := s.cpu.cyclesTotal + 1 } }

theorem openSlot_countCycle {s : State} (h : s.cpu.inInterrupt = false) :
    openSlot (countCycle s) = slotOpened s :=
  if_neg (ne_true_of_eq_false h)

theorem cpuStep_of_boundary {s : State} (hskip : s.cpu.skip.toNat ≤ 1) (hseq : s.cpu.inInterrupt = false) :
    cpuStep s = (pollInterrupt (slotOpened s)).elim (runInstr (slotOpened s)) .next := by
  have hout : ¬ insideSlot (countCycle s) = true := fun hin => absurd (of_decide_eq_true hin) (Nat.not_lt.2 hskip)
  rw [cpuStep, if_neg hout, openSlot_countCycle hseq]
  dsimp only
  cases pollInterrupt (slotOpened s) <;> rfl

theorem pollInterrupt_eq_none {s : State} (hnmi : s.cpu.latch.nmi = false)
    (hirq : s.cpu.latch.irq = false ∨ flagI s.cpu.p = true) : pollInterrupt s = none := by
  have hmasked : (s.cpu.latch.irq && !flagI s.cpu.p) = false := by
    rcases hirq with h | h <;> simp [h]
  simp [pollInterrupt, hnmi, hmasked]

/-- A boundary step with no interrupt to take fetches one instruction and executes it. -/
theorem step_of_boundary_no_interrupt {s : State} (hskip : s.cpu.skip.toNat ≤ 1) (hseq : s.cpu.inInterrupt = false)
    (hnmi : s.cpu.latch.nmi = false) (hirq : s.cpu.latch.irq = false ∨ flagI s.cpu.p = true) :
    step s = thenDevices (exec (fetchInstr (slotOpened s)).1 (fetchInstr (slotOpened s)).2) := by
  have hpoll : pollInterrupt (slotOpened s) = none := pollInterrupt_eq_none hnmi hirq
  rw [step, cpuStep_of_boundary hskip hseq, hpoll]
  rfl

/-- The fetch from memory by a boundary step: the instruction that the bytes at `PC` decode to, and `PC` past it. -/
theorem fetchInstr_slotOpened {s : State} {i : Instr} {rest : List Byte} (h0 : isMemory s.cpu.pc)
    (h1 : isMemory (s.cpu.pc + 1)) (h2 : isMemory (s.cpu.pc + 2))
    (hdecode : decode [byteAt s s.cpu.pc, byteAt s (s.cpu.pc + 1), byteAt s (s.cpu.pc + 2)] = .ok (i, rest)) :
    fetchInstr (slotOpened s) =
      (i,
        { s with
          cpu := { s.cpu with
            pc := s.cpu.pc + BitVec.ofNat 16 i.length
            skip := 0
            pageCross := false
            cyclesTotal := s.cpu.cyclesTotal + 1 } }) := by
  have hbyte : ∀ {a : Word}, isMemory a → byteAt (slotOpened s) a = byteAt s a := fun ha => byteAt_withCpu s _ _ ha
  obtain ⟨rfl, -⟩ := Prod.mk.inj (Except.ok.inj ((decode_three _ _ _ []).symm.trans hdecode))
  refine (fetchInstr_isMemory (slotOpened s) h0 h1 h2).trans ?_
  rw [decodeBytes_length, ← hbyte h0, ← hbyte h1, ← hbyte h2]
  rfl

/-- Settles O4: the boundary step executes what `fetchInstr` gives, of which `fetchInstr_slotOpened` speaks for bytes in
memory and `fetchInstr_spec` for a fetch from any address. -/
theorem stepRunsDecodedInstruction : Obligations.StepRunsDecodedInstruction := by
  intro s hskip hseq hnmi hirq
  have hstep := step_of_boundary_no_interrupt hskip hseq hnmi hirq
  refine ⟨fun i rest h0 h1 h2 hdecode => ?memory, _, _, hstep, ?any⟩
  case memory => rw [hstep, fetchInstr_slotOpened h0 h1 h2 hdecode]
  case any =>
    obtain ⟨hwf, hlen, hcpu, hmem⟩ := fetchInstr_spec (slotOpened s)
    have hop : (busRead (slotOpened s) s.cpu.pc).1 = (busRead s s.cpu.pc).1 := by rw [slotOpened, busRead_withCpu]
    exact ⟨hwf, hlen.trans (congrArg opcodeLength hop), (SameMemory.withCpu s _).trans hmem, hcpu⟩

end Sys2Proof.Machine
end

section
/-! Interrupts (60 R270 to R283): the IRQ request's re-arm, the poll at a slot boundary, the two halves of the sequence,
the return from it, and the IRQ request over a whole step. -/

namespace Sys2Proof.Machine

/-! ## The device ticks raise the IRQ request from the interrupt flags alone (60 R273) -/

/-- CPUs that agree but for the devices' requests differ in those two bits at most. -/
theorem Cpu.eq_of_withoutRequests_eq {c d : Cpu} (h : d.withoutRequests = c.withoutRequests) :
    d = { c with latch := { c.latch with irq := d.latch.irq, nmi := d.latch.nmi } } := by
  simp only [withoutRequests, Cpu.mk.injEq, Latch.mk.injEq] at h
  obtain ⟨hpc, ha, hx, hy, hsp, hp, ⟨-, -, hbrk⟩, hskip, hcross, hin, hkind, hcycles⟩ := h
  simp only [← hpc, ← ha, ← hx, ← hy, ← hsp, ← hp, ← hbrk, ← hskip, ← hcross, ← hin, ← hkind, ← hcycles]

theorem vblankSet_irq (s : State) : (vblankSet s).cpu.latch.irq = s.cpu.latch.irq := by
  unfold vblankSet
  dsimp only
  split <;> rfl

theorem ppuDot_irq (s : State) : (ppuDot s).cpu.latch.irq = s.cpu.latch.irq := by
  simp only [ppuDot, apply_ite State.cpu, apply_ite Cpu.latch, apply_ite Latch.irq, renderLineDot_cpu, vblankSet_irq,
    ite_self]

theorem ppuTicks_irq (s : State) : (ppuTicks s).cpu.latch.irq = s.cpu.latch.irq := by
  simp only [ppuTicks, ppuStep, ppuDot_irq]

theorem rearmIrq_irq (s : State) :
    (rearmIrq s).cpu.latch.irq =
      (s.cpu.latch.irq || ((rearmIrq s).apu.frameIrq || (rearmIrq s).apu.dmcIrq || (rearmIrq s).mapper.irqFlag)) := rfl

/-- The request after the device ticks: the one before them, or an interrupt flag they leave set. -/
theorem deviceTicks_irq (s : State) :
    let t := deviceTicks s
    t.cpu.latch.irq = (s.cpu.latch.irq || (t.apu.frameIrq || t.apu.dmcIrq || t.mapper.irqFlag)) := by
  intro t
  simp only [t, deviceTicks, rearmIrq_irq, apuTick_cpu, ppuTicks_irq]

/-- Settles O51: of the device ticks the re-arm alone touches the IRQ request, and none the CPU beyond its requests. -/
theorem irqRearm : Obligations.IrqRearm := by
  intro s t
  refine ⟨?request, Cpu.eq_of_withoutRequests_eq (deviceTicks_withoutRequests s)⟩
  case request => simp only [t, deviceTicks_irq s, Bool.or_eq_true, or_assoc]

/-! ## The poll (50 R241, R247, 60 R280) -/

/-- A boundary step that takes an interrupt executes no instruction. -/
theorem step_of_boundary_interrupt {s t : State} (hskip : s.cpu.skip.toNat ≤ 1) (hseq : s.cpu.inInterrupt = false)
    (hpoll : pollInterrupt (slotOpened s) = some t) : step s = .next (deviceTicks t) := by
  rw [step, cpuStep_of_boundary hskip hseq, hpoll]
  rfl

theorem pollInterrupt_of_nmi {s : State} (hnmi : s.cpu.latch.nmi = true) : pollInterrupt s = some (takeNmi s) :=
  if_pos hnmi

theorem pollInterrupt_of_irq {s : State} (hnmi : s.cpu.latch.nmi = false) (hirq : s.cpu.latch.irq = true)
    (hi : flagI s.cpu.p = false) : pollInterrupt s = some (takeIrq s) := by
  simp [pollInterrupt, hnmi, hirq, hi]

@[simp] theorem beginInterrupt_irq (k : IntKind) (s : State) :
    (beginInterrupt k s).cpu.latch.irq = s.cpu.latch.irq := by
  rw [beginInterrupt_eq]

/-- With nothing owed before it, a sequence begins with its seven cycles owed; it leaves the IRQ request. -/
theorem beginInterrupt_charge_spec (k : IntKind) {s : State} (h : s.cpu.skip = 0) :
    let t := (beginInterrupt k s).charge 7
    t.cpu.skip = 7 ∧
    ∃ b, b = beginInterrupt k s ∧ t = { b with cpu := { b.cpu with skip := 7 } } ∧
      t.cpu.latch.irq = s.cpu.latch.irq := by
  have hskip : (beginInterrupt k s).cpu.skip = 0 := by rw [beginInterrupt_eq, h]
  intro t
  have ht : t = { beginInterrupt k s with cpu := { (beginInterrupt k s).cpu with skip := 7 } } := by
    simp only [t, State.charge, hskip]
    rfl
  exact ⟨by rw [ht], _, rfl, ht, beginInterrupt_irq k s⟩

/-- Settles O6: the poll's first two branches, each `beginInterrupt` with one request cleared, and seven cycles. -/
theorem interruptPollOrder : Obligations.InterruptPollOrder := by
  intro s hskip hseq c
  refine ⟨fun hnmi => ?nmi, fun hnmi hirq hmask => ?irq⟩
  case nmi =>
    obtain ⟨hseven, b, hb, ht, hkept⟩ := beginInterrupt_charge_spec .nmi
      (s := { c with cpu := { c.cpu with latch := { s.cpu.latch with nmi := false } } }) rfl
    exact ⟨_, step_of_boundary_interrupt hskip hseq (pollInterrupt_of_nmi hnmi), hseven, b, hb, ht, hkept⟩
  case irq =>
    obtain ⟨hseven, b, hb, ht, hkept⟩ := beginInterrupt_charge_spec .irq
      (s := { c with cpu := { c.cpu with latch := { s.cpu.latch with irq := false } } }) rfl
    exact ⟨_, step_of_boundary_interrupt hskip hseq (pollInterrupt_of_irq hnmi hirq hmask), hseven, b, hb, ht, hkept⟩

/-! ## The first half (60 R276, R277) -/

theorem bitOf_pushedStatus (k : IntKind) (p : Byte) {j : Nat} (hj : j < 8) :
    bitOf (pushedStatus k p) j = if j = 5 then true else if j = 4 then decide (k = .brk) else bitOf p j := by
  cases k <;> interval_cases j <;> simp [pushedStatus, bitOf]

/-- Settles O8: the three pushed bytes by `byteAt_beginInterrupt`, the next state by `beginInterrupt_eq`. -/
theorem beginInterruptPushes : Obligations.BeginInterruptPushes := by
  intro k s hinv t
  obtain ⟨hhi, hlo, hp, hframe⟩ := byteAt_beginInterrupt k hinv.ramWf t.cpu
  refine ⟨hhi, hlo, fun j hj => ?status, hframe, putI s.cpu.p true, flagI_putI _ _, flagsKept_putI _ _, ?state⟩
  case status => exact (congrArg (bitOf · j) hp).trans (bitOf_pushedStatus k s.cpu.p hj)
  case state => exact (beginInterrupt_eq k s).trans (by simp only [t, beginInterrupt_eq])

/-! ## The second half (60 R278, R279) -/

theorem hijacked_of_nmi {s : State} (hkind : s.cpu.intKind = some .nmi) : hijacked s = false := by
  simp [hijacked, hkind]

theorem hijacked_of_ne_nmi {s : State} {b : Bool} (hkind : s.cpu.intKind ≠ some .nmi) (hnmi : s.cpu.latch.nmi = b) :
    hijacked s = b := by
  simp [hijacked, hkind, hnmi]

theorem vectorOf_eq_ite (s : State) :
    vectorOf s = if s.cpu.intKind = some .nmi ∨ s.cpu.latch.nmi = true then 0xFFFA else 0xFFFE := by
  by_cases hkind : s.cpu.intKind = some .nmi <;> simp [vectorOf, hijacked, hkind]

/-- Settles O9: `resolveVector_eq`, with the vector and the hijack of each case. -/
theorem resolveVectorLoadsPc : Obligations.ResolveVectorLoadsPc := by
  intro s vector
  refine ⟨fun hkind => ?nmi, fun hkind hnmi => ?hijack, fun hkind hnmi => ?shared⟩
  case nmi =>
    rw [resolveVector_eq, vectorOf_eq_ite, if_pos (.inl hkind), hijacked_of_nmi hkind]
    rfl
  case hijack =>
    rw [resolveVector_eq, vectorOf_eq_ite, if_pos (.inr hnmi), hijacked_of_ne_nmi hkind hnmi]
    rfl
  case shared =>
    rw [resolveVector_eq, vectorOf_eq_ite, if_neg (not_or.2 ⟨hkind, ne_true_of_eq_false hnmi⟩),
      hijacked_of_ne_nmi hkind hnmi]
    rfl

/-! ## The return (60 R283) -/

/-- The pull undoes what the push does to bits 4 and 5, which the status holds fixed (10 R26). -/
theorem loadedStatus_pushedStatus (k : IntKind) {p : Byte} (hp : statusOk p = true) :
    loadedStatus (pushedStatus k p) = p := by
  obtain ⟨h5, h4⟩ := (statusOk_iff p).1 hp
  refine byte_ext fun j hj => ?_
  rw [bitOf_loadedStatus, bitOf_pushedStatus k p hj]
  split
  next h => rw [h, h5]
  split
  next h => rw [h, h4]
  rfl

/-- Settles O12: RTI pulls the three bytes that `byteAt_beginInterrupt` finds on the stack. -/
theorem rtiReturnsToPushedAddress : Obligations.RtiReturnsToPushedAddress := by
  intro k s hinv hp
  let t := beginInterrupt k s
  obtain ⟨hhi, hlo, hstatus, -⟩ := byteAt_beginInterrupt k hinv.ramWf t.cpu
  have hsp : t.cpu.sp = s.cpu.sp - 3 := by rw [show t = _ from beginInterrupt_eq k s]
  have h3 : t.cpu.sp + 3 = s.cpu.sp := by rw [hsp, BitVec.sub_add_cancel]
  have h2 : t.cpu.sp + 2 = s.cpu.sp - 1 := by rw [← h3, ← add_two_add_one, BitVec.add_sub_cancel]
  have h1 : t.cpu.sp + 1 = s.cpu.sp - 2 := by
    rw [← sub_one_sub_one, ← h2, ← add_one_add_one, BitVec.add_sub_cancel]
  have hret : returnFromInterrupt t =
      { t with cpu := { t.cpu with p := s.cpu.p, pc := s.cpu.pc, sp := s.cpu.sp } } := by
    rw [returnFromInterrupt_eq, h1, h2, h3, hhi, hlo, hstatus, loadedStatus_pushedStatus k hp, word_hi_lo]
  have ht : t.cpu.a = s.cpu.a ∧ t.cpu.x = s.cpu.x ∧ t.cpu.y = s.cpu.y := by
    rw [show t = _ from beginInterrupt_eq k s]
    exact ⟨rfl, rfl, rfl⟩
  refine ⟨(returnFromInterrupt t).charge 6, rfl, ?_⟩
  rw [charge_cpu, hret]
  exact ⟨rfl, rfl, rfl, ht⟩

/-! ## The IRQ request through every operation of a step (60 R274) -/

@[simp] theorem busWrite_irq (s : State) (a : Word) (v : Byte) :
    (busWrite s a v).cpu.latch.irq = s.cpu.latch.irq := by
  rw [busWrite_cpu]

@[simp] theorem push_irq (s : State) (v : Byte) : (push s v).cpu.latch.irq = s.cpu.latch.irq := by
  rw [push_eq]

@[simp] theorem pull_irq (s : State) : (pull s).2.cpu.latch.irq = s.cpu.latch.irq := by
  rw [pull_eq]

@[simp] theorem resolveVector_irq (s : State) : (resolveVector s).cpu.latch.irq = s.cpu.latch.irq := by
  rw [resolveVector_eq]

@[simp] theorem returnFromInterrupt_irq (s : State) :
    (returnFromInterrupt s).cpu.latch.irq = s.cpu.latch.irq := by
  rw [returnFromInterrupt_eq]

@[simp] theorem effAddr_irq (m : AddrMode) (s : State) : (effAddr m s).2.cpu.latch.irq = s.cpu.latch.irq := by
  rw [effAddr_cpu]

@[simp] theorem readOperand_irq (o : ReadOp) (s : State) :
    (readOperand o s).2.cpu.latch.irq = s.cpu.latch.irq := by
  rw [readOperand_cpu]

theorem fetchInstr_irq (s : State) : (fetchInstr s).2.cpu.latch.irq = s.cpu.latch.irq := by
  obtain ⟨-, -, hcpu, -⟩ := fetchInstr_spec s
  rw [hcpu]

theorem readInstr_irq (o : ReadOp) (operation : Byte → State → State)
    (h : ∀ b u, (operation b u).cpu.latch.irq = u.cpu.latch.irq) (s : State) :
    (readInstr o operation s).cpu.latch.irq = s.cpu.latch.irq := by
  simp [readInstr, h]

theorem writeInstr_irq (m : AddrMode) (value : State → Byte) (s : State) :
    (writeInstr m value s).cpu.latch.irq = s.cpu.latch.irq := by
  simp [writeInstr]

theorem rmwInstr_irq (m : AddrMode) (transform : Byte → Byte → Byte × Byte) (after : Byte → State → State)
    (h : ∀ b u, (after b u).cpu.latch.irq = u.cpu.latch.irq) (s : State) :
    (rmwInstr m transform after s).cpu.latch.irq = s.cpu.latch.irq := by
  simp [rmwInstr, h]

theorem shiftInstr_irq (o : ShiftOp) (transform : Byte → Byte → Byte × Byte) (s : State) :
    (shiftInstr o transform s).cpu.latch.irq = s.cpu.latch.irq := by
  cases o with
  | acc => rfl
  | mem m => exact rmwInstr_irq m transform _ (fun _ _ => rfl) s

theorem branchInstr_irq (cond : Bool) (off : Byte) (s : State) :
    (branchInstr cond off s).cpu.latch.irq = s.cpu.latch.irq := by
  unfold branchInstr
  dsimp only
  split <;> rfl

/-- No instruction raises or clears the IRQ request. -/
theorem exec_next_irq (i : Instr) (s : State) : ∃ t, exec i s = .next t ∧ t.cpu.latch.irq = s.cpu.latch.irq := by
  cases i with
  | lda | ldx | ldy | adc | sbc | and | ora | eor | cmp | cpx | cpy | bit | lax =>
    exact ⟨_, rfl, readInstr_irq _ _ (fun _ _ => by simp) s⟩
  | sta | stx | sty | sax => exact ⟨_, rfl, writeInstr_irq _ _ s⟩
  | inc | dec | slo | rla | sre | rra | dcp | isc => exact ⟨_, rfl, rmwInstr_irq _ _ _ (fun _ _ => by simp) s⟩
  | asl | lsr | rol | ror => exact ⟨_, rfl, shiftInstr_irq _ _ s⟩
  | bpl | bmi | bvc | bvs | bcc | bcs | bne | beq => exact ⟨_, rfl, branchInstr_irq _ _ s⟩
  | tax | tay | txa | tya | tsx | txs | inx | iny | dex | dey | clc | sec | cli | sei | clv | cld | sed | nop =>
    exact ⟨_, rfl, by simp [impliedInstr]⟩
  | jmp | xxx | pha | php | pla | plp | jmpInd | jsr | rts | rti | brk => exact ⟨_, rfl, by simp⟩

theorem countDown_irq (s : State) : (countDown s).cpu.latch.irq = s.cpu.latch.irq := by
  unfold countDown
  dsimp only
  split
  · exact resolveVector_irq _
  · rfl

/-- Opening the slot leaves what the poll for an IRQ reads: the request and the mask. -/
theorem openSlot_irq (s : State) :
    (openSlot s).cpu.latch.irq = s.cpu.latch.irq ∧ (openSlot s).cpu.p = s.cpu.p := by
  unfold openSlot
  dsimp only
  split
  · rw [resolveVector_eq]
    exact ⟨rfl, rfl⟩
  · exact ⟨rfl, rfl⟩

/-- The poll keeps the IRQ request, or begins an IRQ sequence, with I clear. -/
theorem pollInterrupt_irq {s t : State} (h : pollInterrupt s = some t) :
    t.cpu.latch.irq = s.cpu.latch.irq ∨
      (flagI s.cpu.p = false ∧ t.cpu.inInterrupt = true ∧ t.cpu.intKind = some .irq) := by
  unfold pollInterrupt at h
  split at h
  · cases h
    exact .inl (by simp [takeNmi])
  split at h
  next hirq =>
    cases h
    refine .inr ⟨by simpa using (Bool.and_eq_true_iff.1 hirq).2, ?_⟩
    rw [takeIrq, beginInterrupt_eq]
    exact ⟨rfl, rfl⟩
  · cases h

/-- The CPU's `Step()` keeps the IRQ request, or begins an IRQ sequence at a boundary with I clear. -/
theorem cpuStep_next_irq (s : State) :
    ∃ t, cpuStep s = .next t ∧
      (t.cpu.latch.irq = s.cpu.latch.irq ∨
        (s.cpu.skip.toNat ≤ 1 ∧ flagI s.cpu.p = false ∧ t.cpu.inInterrupt = true ∧ t.cpu.intKind = some .irq)) := by
  obtain ⟨hirq, hp⟩ := openSlot_irq (countCycle s)
  unfold cpuStep
  dsimp only
  split
  next => exact ⟨_, rfl, .inl (countDown_irq _)⟩
  next hout =>
    have hskip : s.cpu.skip.toNat ≤ 1 := Nat.not_lt.1 fun hin => hout (decide_eq_true hin)
    split
    next t hpoll =>
      exact ⟨t, rfl, (pollInterrupt_irq hpoll).imp (·.trans hirq) fun ⟨hmask, hseq⟩ => ⟨hskip, hp ▸ hmask, hseq⟩⟩
    next =>
      obtain ⟨t, hexec, ht⟩ := exec_next_irq (fetchInstr (openSlot (countCycle s))).1
        (fetchInstr (openSlot (countCycle s))).2
      exact ⟨t, hexec, .inl (ht.trans ((fetchInstr_irq _).trans hirq))⟩

/-- Settles O13: the CPU's `Step()` keeps the request or begins the sequence, and the devices that tick after it clear
no request and leave the sequence. -/
theorem irqStaysLatchedUntilServiced : Obligations.IrqStaysLatchedUntilServiced := by
  intro s t hstep hlatched
  obtain ⟨u, hcpu, hu⟩ := cpuStep_next_irq s
  rw [step, hcpu, thenDevices] at hstep
  obtain rfl := Host.Outcome.next.inj hstep
  refine hu.imp (fun hkept => ?kept) fun ⟨hskip, hmask, hseq, hkind⟩ => ?begun
  case kept => rw [deviceTicks_irq, hkept, hlatched, Bool.true_or]
  case begun =>
    rw [Cpu.eq_of_withoutRequests_eq (deviceTicks_withoutRequests u)]
    exact ⟨hskip, hmask, hseq, hkind⟩

end Sys2Proof.Machine
end

section
/-! What every CPU `Step()` keeps: a property of the state that changes of the CPU, bus reads and bus writes keep is
kept by every instruction, by the interrupt sequence and by the count-down (20 R66, R67, 50 R241). -/

namespace Sys2Proof.Machine

/-- Changes of the CPU and single bus accesses keep the property. -/
structure KeptByBus (P : State → Prop) : Prop where
  cpu : ∀ {s t : State}, P s → SameDevices s t → P t
  read : ∀ {s : State} (a : Word), P s → P (busRead s a).2
  write : ∀ {s : State} (a : Word) (v : Byte), P s → P (busWrite s a v)

namespace KeptByBus

variable {P : State → Prop} {s : State}

/-! ## Stack, pointers, fetch, interrupt sequence -/

theorem push (hP : KeptByBus P) (v : Byte) (h : P s) : P (push s v) :=
  hP.cpu (hP.write _ v h) rfl

theorem pull (hP : KeptByBus P) (h : P s) : P (pull s).2 := by
  rw [pull_eq]
  exact hP.cpu h rfl

theorem readPair (hP : KeptByBus P) (low high : Word) (h : P s) : P (readPair s low high).2 :=
  hP.read high (hP.read low h)

theorem fetch (hP : KeptByBus P) (h : P s) : P (fetch s).2 :=
  hP.cpu (hP.read _ h) rfl

theorem fetchInstr (hP : KeptByBus P) (h : P s) : P (fetchInstr s).2 := by
  have hop : P (Machine.fetch (s.setPageCross false)).2 := hP.fetch (hP.cpu h rfl)
  unfold Machine.fetchInstr
  dsimp only
  split
  · split
    · exact hP.fetch (hP.fetch hop)
    · exact hP.fetch hop
  · split
    · exact hP.fetch hop
    · exact hop

theorem beginInterrupt (hP : KeptByBus P) (k : IntKind) (h : P s) : P (beginInterrupt k s) :=
  hP.cpu (hP.push _ (hP.push _ (hP.push _ h))) rfl

theorem resolveVector (hP : KeptByBus P) (h : P s) : P (resolveVector s) := by
  rw [resolveVector_eq]
  exact hP.cpu h rfl

theorem returnFromInterrupt (hP : KeptByBus P) (h : P s) : P (returnFromInterrupt s) := by
  rw [returnFromInterrupt_eq]
  exact hP.cpu h rfl

/-! ## The instruction shapes (30 R102, R103, R114) -/

theorem effAddr (hP : KeptByBus P) (m : AddrMode) (h : P s) : P (effAddr m s).2 := by
  rw [effAddr_fields]
  exact hP.cpu h rfl

theorem readOperand (hP : KeptByBus P) (o : ReadOp) (h : P s) : P (readOperand o s).2 := by
  cases o with
  | imm b => exact h
  | mem m => exact hP.read _ (hP.effAddr m h)

theorem readInstr (hP : KeptByBus P) (o : ReadOp) {operation : Byte → State → State}
    (hop : ∀ b {u}, P u → P (operation b u)) (h : P s) : P (readInstr o operation s) :=
  hP.cpu (hop _ (hP.readOperand o h)) rfl

theorem writeInstr (hP : KeptByBus P) (m : AddrMode) (value : State → Byte) (h : P s) :
    P (writeInstr m value s) :=
  hP.cpu (hP.write _ _ (hP.effAddr m h)) rfl

theorem rmwInstr (hP : KeptByBus P) (m : AddrMode) (transform : Byte → Byte → Byte × Byte)
    {after : Byte → State → State} (hafter : ∀ b {u}, P u → P (after b u)) (h : P s) :
    P (rmwInstr m transform after s) := by
  unfold Machine.rmwInstr
  extract_lets e r t
  have hstatus : P (r.2.setP t.2) := hP.cpu (hP.read e.1 (hP.effAddr m h)) rfl
  exact hP.cpu (hafter t.1 (hP.write e.1 t.1 hstatus)) rfl

theorem shiftInstr (hP : KeptByBus P) (o : ShiftOp) (transform : Byte → Byte → Byte × Byte) (h : P s) :
    P (shiftInstr o transform s) := by
  cases o with
  | acc => exact hP.cpu h rfl
  | mem m => exact hP.rmwInstr m transform (after := fun r u => u.setZN r) (fun _ _ hu => hP.cpu hu rfl) h

theorem branchInstr (hP : KeptByBus P) (cond : Bool) (off : Byte) (h : P s) : P (branchInstr cond off s) := by
  unfold Machine.branchInstr
  dsimp only
  split <;> exact hP.cpu h rfl

theorem exec_next (hP : KeptByBus P) (i : Instr) (h : P s) : ∃ t, exec i s = .next t ∧ P t := by
  cases i with
  | lda | ldx | ldy | adc | sbc | and | ora | eor | cmp | cpx | cpy | bit | lax =>
    exact ⟨_, rfl, hP.readInstr _ (fun _ _ hu => hP.cpu hu rfl) h⟩
  | sta | stx | sty | sax => exact ⟨_, rfl, hP.writeInstr _ _ h⟩
  | inc | dec | slo | rla | sre | rra | dcp | isc => exact ⟨_, rfl, hP.rmwInstr _ _ (fun _ _ hu => hP.cpu hu rfl) h⟩
  | asl | lsr | rol | ror => exact ⟨_, rfl, hP.shiftInstr _ _ h⟩
  | bpl | bmi | bvc | bvs | bcc | bcs | bne | beq => exact ⟨_, rfl, hP.branchInstr _ _ h⟩
  | tax | tay | txa | tya | tsx | txs | inx | iny | dex | dey | clc | sec | cli | sei | clv | cld | sed | nop =>
    exact ⟨_, rfl, hP.cpu h rfl⟩
  | jmp | xxx => exact ⟨_, rfl, hP.cpu h rfl⟩
  | jmpInd => exact ⟨_, rfl, hP.cpu (hP.readPair _ _ h) rfl⟩
  | pha | php => exact ⟨_, rfl, hP.cpu (hP.push _ h) rfl⟩
  | pla | plp => exact ⟨_, rfl, hP.cpu (hP.pull h) rfl⟩
  | jsr => exact ⟨_, rfl, hP.cpu (hP.push _ (hP.push _ h)) rfl⟩
  | rts => exact ⟨_, rfl, hP.cpu (hP.pull (hP.pull h)) rfl⟩
  | rti => exact ⟨_, rfl, hP.cpu (hP.returnFromInterrupt h) rfl⟩
  | brk =>
    have hpc : P (s.setPc (s.cpu.pc + 1)) := hP.cpu h rfl
    exact ⟨_, rfl, hP.cpu (hP.beginInterrupt .brk hpc) rfl⟩

/-! ## The CPU's `Step()` and the master cycle (50 R241, 61 R316) -/

theorem countDown (hP : KeptByBus P) (h : P s) : P (countDown s) := by
  have hskip : P { s with cpu := { s.cpu with skip := s.cpu.skip - 1 } } := hP.cpu h rfl
  unfold Machine.countDown
  dsimp only
  split
  · exact hP.resolveVector hskip
  · exact hskip

theorem openSlot (hP : KeptByBus P) (h : P s) : P (openSlot s) := by
  have hskip : P { s with cpu := { s.cpu with skip := 0 } } := hP.cpu h rfl
  unfold Machine.openSlot
  dsimp only
  split
  · exact hP.resolveVector hskip
  · exact hskip

theorem pollInterrupt (hP : KeptByBus P) {t : State} (hpoll : pollInterrupt s = some t) (h : P s) : P t := by
  have hnmi : P { s with cpu := { s.cpu with latch := { s.cpu.latch with nmi := false } } } := hP.cpu h rfl
  have hirq : P { s with cpu := { s.cpu with latch := { s.cpu.latch with irq := false } } } := hP.cpu h rfl
  unfold Machine.pollInterrupt at hpoll
  split at hpoll
  · cases hpoll
    exact hP.cpu (hP.beginInterrupt .nmi hnmi) rfl
  split at hpoll
  · cases hpoll
    exact hP.cpu (hP.beginInterrupt .irq hirq) rfl
  · cases hpoll

theorem cpuStep_next (hP : KeptByBus P) (h : P s) : ∃ t, cpuStep s = .next t ∧ P t := by
  have hcount : P (countCycle s) := hP.cpu h rfl
  have hopen := hP.openSlot hcount
  unfold cpuStep
  dsimp only
  split
  · exact ⟨_, rfl, hP.countDown hcount⟩
  split
  next t hpoll => exact ⟨t, rfl, hP.pollInterrupt hpoll hopen⟩
  next => exact hP.exec_next _ (hP.fetchInstr hopen)

/-- A property that the CPU's `Step()` and the device ticks keep is kept by every step. -/
theorem step (hP : KeptByBus P) (hticks : ∀ {u}, P u → P (deviceTicks u)) {t : State} (h : P s)
    (hstep : step s = .next t) : P t := by
  obtain ⟨u, hcpu, hu⟩ := hP.cpuStep_next h
  rw [Machine.step, hcpu, thenDevices] at hstep
  cases hstep
  exact hticks hu

end KeptByBus
end Sys2Proof.Machine
end

section
/-! What every dot of the picture unit keeps (62 R348): a property that each piece of a dot's work keeps. -/

namespace Sys2Proof.Machine

/-- The pieces of a dot's work, and the changes of `v` between them, keep the property. -/
structure KeptByDot (P : State → Prop) : Prop where
  clear : ∀ {s : State}, P s → P { s with ppu := s.ppu.preRenderClear }
  vblank : ∀ {s : State}, P s → P (vblankSet s)
  pixel : ∀ {s : State} {px line : Nat}, px < 256 → line ≤ 239 → P s → P { s with ppu := outputPixel s px line }
  background : ∀ {s : State}, P s → P { s with ppu := backgroundDot s }
  address : ∀ {s : State} (v : BitVec 15), P s → P { s with ppu := { s.ppu with v := v } }
  sprites : ∀ {s : State}, P s → P { s with ppu := s.ppu.evaluateSprites }
  hook : ∀ {s : State}, P s → P { s with mapper := s.mapper.scanlineHook }

namespace KeptByDot

variable {P : State → Prop} {s : State}

theorem renderLineDot (hP : KeptByDot P) (h : P s) : P (renderLineDot s) := by
  let Q : Ppu → Prop := fun p => P { s with ppu := p }
  have haddress : ∀ {p : Ppu} (v : BitVec 15), Q p → Q { p with v := v } := fun v hp => hP.address v hp
  unfold Machine.renderLineDot
  extract_lets line dot fetchDot bg fetched scrolled evaluated reloaded copied
  have hfetched : Q fetched := iteInduction (fun _ => hP.background h) fun _ => h
  have hscrolled : Q scrolled := iteInduction (fun _ => haddress _ hfetched) fun _ => hfetched
  have hevaluated : Q evaluated := iteInduction (fun _ => hP.sprites hscrolled) fun _ => hscrolled
  have hreloaded : Q reloaded := iteInduction (fun _ => haddress _ hevaluated) fun _ => hevaluated
  exact iteInduction (motive := Q) (fun _ => haddress _ hreloaded) fun _ => hreloaded

theorem ppuDot (hP : KeptByDot P) (h : P s) : P (ppuDot s) := by
  unfold Machine.ppuDot
  extract_lets line dot cleared blanked drawn rendered
  have hcleared : P cleared := iteInduction (fun _ => hP.clear h) fun _ => h
  have hblanked : P blanked := iteInduction (fun _ => hP.vblank hcleared) fun _ => hcleared
  have hdrawn : P drawn :=
    iteInduction (fun ⟨hline, hfirst, hlast⟩ => hP.pixel (by omega) hline hblanked) fun _ => hblanked
  have hrendered : P rendered := iteInduction (fun _ => hP.renderLineDot hdrawn) fun _ => hdrawn
  exact iteInduction (fun _ => hP.hook hrendered) fun _ => hrendered

end KeptByDot
end Sys2Proof.Machine
end

section
/-! The memories' invariant under every step (61 R302, R305, 62 R330, 64 R451): single stores keep a memory canonical
and inside its size, and every index is reduced modulo the size before it is stored at. -/

namespace Sys2Proof.Machine

/-! ## The part of the state that holds memories -/

/-- The contents of every memory that a step can change. -/
structure Memories where
  ram : Memory
  prgRam : Memory
  chrRam : Memory
  vram : Memory
  pal : Memory
  oam : Memory
  frameDraw : Memory
  frameShown : Memory

def memories (s : State) : Memories where
  ram := s.ram
  prgRam := s.prgRam
  chrRam := s.chrRam
  vram := s.ppu.vram
  pal := s.ppu.pal
  oam := s.ppu.oam
  frameDraw := s.ppu.frameDraw
  frameShown := s.ppu.frameShown

theorem MemInv.congr {s t : State} (h : MemInv s) (heq : memories t = memories s) : MemInv t := by
  simp only [memories, Memories.mk.injEq] at heq
  obtain ⟨hram, hprg, hchr, hvram, hpal, hoam, hdraw, hshown⟩ := heq
  obtain ⟨iram, iprg, ichr, ivram, ipal, ipalSix, ioam, idraw, idrawSix, ishown, ishownSix⟩ := h
  rw [← hram] at iram
  rw [← hprg] at iprg
  rw [← hchr] at ichr
  rw [← hvram] at ivram
  rw [← hpal] at ipal ipalSix
  rw [← hoam] at ioam
  rw [← hdraw] at idraw idrawSix
  rw [← hshown] at ishown ishownSix
  exact ⟨iram, iprg, ichr, ivram, ipal, ipalSix, ioam, idraw, idrawSix, ishown, ishownSix⟩

/-- Everything but the picture unit and the RAMs may change. -/
theorem memories_withDevices (s : State) (c : Cpu) (m : Mapper) (p : Pad) (a : Apu) :
    memories { s with cpu := c, mapper := m, pad := p, apu := a } = memories s := rfl

/-! ## Indexes stay inside the memories (62 R346, R347, 64 R454) -/

theorem ntIndex_lt (m : Mirroring) (a : Nat) : ntIndex m a < 2048 := by
  cases m <;> simp only [ntIndex] <;> omega

theorem palIndex_lt {i : Nat} (h : i < 32) : palIndex i < 32 := by
  unfold palIndex
  split
  · exact Nat.lt_of_le_of_lt Nat.and_le_left h
  · exact h

theorem chrIndex_lt {c : Cartridge} {m : Mapper} (h : usesChrRam c m = true) (a : Nat) : chrIndex c m a < 8192 := by
  rw [chrIndex, chrMemSize, if_pos h]
  exact Nat.mod_lt _ (by decide)

theorem sixBits_toNat_lt (b : Byte) : (b &&& 0x3F).toNat < 64 := by
  rw [BitVec.toNat_and]
  exact Nat.lt_of_le_of_lt Nat.and_le_right (by decide)

/-! ## The bus -/

theorem busRead_memories (s : State) (a : Word) : memories (busRead s a).2 = memories s := by
  rw [busRead_changes]
  rfl

theorem busRead_memInv {s : State} (a : Word) (h : MemInv s) : MemInv (busRead s a).2 :=
  h.congr (busRead_memories s a)

theorem writeChr_memInv {s : State} (a : Nat) (d : Byte) (h : MemInv s) : MemInv (writeChr s a d) :=
  iteInduction (fun hram => { h with chrRam := fits_write d h.chrRam (chrIndex_lt hram a) }) fun _ => h

theorem ppuWrite_memInv {s : State} (a : Nat) (d : Byte) (h : MemInv s) : MemInv (ppuWrite s a d) := by
  have hpal : palIndex (a &&& 0x1F) < 32 := palIndex_lt (Nat.and_lt_two_pow a (by decide : 0x1F < 2 ^ 5))
  unfold ppuWrite
  split
  · exact writeChr_memInv a d h
  split
  · exact { h with vram := fits_write d h.vram (ntIndex_lt _ a) }
  · exact { h with
      pal := fits_write _ h.pal hpal
      palSix := sixBit_write h.palSix (sixBits_toNat_lt d) }

theorem writeOamData_memInv {s : State} (d : Byte) (h : MemInv s) :
    MemInv { s with ppu := s.ppu.writeOamData d } :=
  { h with oam := fits_write d h.oam s.ppu.oamAddr.isLt }

theorem writeScroll_memories (s : State) (d : Byte) :
    memories { s with ppu := s.ppu.writeScroll d } = memories s := by
  unfold Ppu.writeScroll
  split <;> rfl

theorem writeAddr_memories (s : State) (d : Byte) : memories { s with ppu := s.ppu.writeAddr d } = memories s := by
  unfold Ppu.writeAddr
  split <;> rfl

theorem ppuRegWrite_memInv {s : State} (r : Nat) (d : Byte) (h : MemInv s) : MemInv (ppuRegWrite s r d) := by
  have hlatch : MemInv (setIoLatch s d) := h.congr rfl
  unfold ppuRegWrite
  dsimp only
  split
  · exact h.congr rfl
  · exact h.congr rfl
  · exact h.congr rfl
  · exact writeOamData_memInv d hlatch
  · exact hlatch.congr (writeScroll_memories _ d)
  · exact hlatch.congr (writeAddr_memories _ d)
  · exact (ppuWrite_memInv _ d hlatch).congr rfl
  · exact hlatch

theorem dmaCopy_memInv (v : Byte) (is : List Nat) {s : State} (h : MemInv s) : MemInv (dmaCopy v is s) := by
  induction is generalizing s with
  | nil => exact h
  | cons i is ih =>
    have hread := busRead_memInv (word v (BitVec.ofNat 8 i)) h
    exact ih { hread with oam := fits_write _ hread.oam (Nat.mod_lt _ (by decide)) }

theorem busWrite_memInv {s : State} (a : Word) (v : Byte) (h : MemInv s) : MemInv (busWrite s a v) := by
  have hram : a.toNat &&& 0x07FF < 2048 := Nat.and_lt_two_pow _ (by decide : 0x07FF < 2 ^ 11)
  unfold busWrite
  dsimp only
  split
  · exact { h with ram := fits_write v h.ram hram }
  split
  · exact ppuRegWrite_memInv _ v h
  split
  · exact (dmaCopy_memInv v (List.range 256) h).congr (memories_withDevices _ _ _ _ _)
  split
  · exact h.congr rfl
  split
  · exact h.congr (memories_withDevices s _ _ _ _)
  split
  · exact h
  split
  · exact { h with prgRam := fits_write v h.prgRam (by omega) }
  · exact h.congr rfl

theorem memInv_keptByBus : KeptByBus MemInv where
  cpu h heq := h.congr (by rw [heq]; rfl)
  read a h := busRead_memInv a h
  write a v h := busWrite_memInv a v h

/-! ## The picture unit's dots (62 R348) -/

theorem vblankSet_memInv {s : State} (h : MemInv s) : MemInv (vblankSet s) := by
  have hpublished : MemInv { s with ppu := s.ppu.publishFrame } :=
    { h with
      frameDraw := h.frameShown
      drawSix := h.shownSix
      frameShown := h.frameDraw
      shownSix := h.drawSix }
  exact iteInduction (fun _ => hpublished.congr rfl) fun _ => hpublished.congr rfl

theorem backgroundDot_memories (s : State) : memories { s with ppu := backgroundDot s } = memories s := by
  unfold backgroundDot
  dsimp only
  split <;> rfl

theorem evaluateSprites_memories (s : State) :
    memories { s with ppu := s.ppu.evaluateSprites } = memories s := by
  unfold Ppu.evaluateSprites
  split <;> rfl

theorem memInv_keptByDot : KeptByDot MemInv where
  clear h := h.congr rfl
  vblank h := vblankSet_memInv h
  pixel hpx hline h :=
    { h with
      frameDraw := fits_write _ h.frameDraw (by omega)
      drawSix := sixBit_write h.drawSix (sixBits_toNat_lt _) }
  background h := h.congr (backgroundDot_memories _)
  address _ h := h.congr rfl
  sprites h := h.congr (evaluateSprites_memories _)
  hook h := h.congr rfl

theorem advance_memories (s : State) : memories { s with ppu := s.ppu.advance } = memories s := by
  unfold Ppu.advance
  split
  · rfl
  split
  · split <;> rfl
  · rfl

theorem ppuStep_memInv {s : State} (h : MemInv s) : MemInv (ppuStep s) :=
  (memInv_keptByDot.ppuDot h).congr (advance_memories _)

/-! ## The audio tick (63 R402) -/

theorem fetchSample_memories (s : State) : memories (fetchSample s) = memories s :=
  (memories_withDevices _ _ _ _ _).trans (busRead_memories s s.apu.dmc.curAddr)

theorem dmcOutputBit_memories (s : State) : memories (dmcOutputBit s) = memories s := by
  unfold dmcOutputBit
  dsimp only
  split
  · split
    · exact (memories_withDevices _ _ _ _ _).trans (fetchSample_memories _)
    · rfl
  · rfl

theorem dmcTimer_memories (s : State) : memories (dmcTimer s) = memories s := by
  unfold dmcTimer
  dsimp only
  split
  · exact (dmcOutputBit_memories _).trans (memories_withDevices s _ _ _ _)
  · rfl

theorem apuTick_memories (s : State) : memories (apuTick s) = memories s :=
  (dmcTimer_memories _).trans (memories_withDevices s _ _ _ _)

/-! ## The step -/

theorem rearmIrq_memories (s : State) : memories (rearmIrq s) = memories s := rfl

theorem deviceTicks_memInv {s : State} (h : MemInv s) : MemInv (deviceTicks s) := by
  have hdots : MemInv (ppuTicks s) := ppuStep_memInv (ppuStep_memInv (ppuStep_memInv h))
  have haudio : MemInv (apuTick (ppuTicks s)) := hdots.congr (apuTick_memories _)
  have hhook : MemInv { apuTick (ppuTicks s) with mapper := (apuTick (ppuTicks s)).mapper.cycleHook } :=
    haudio.congr (memories_withDevices _ _ _ _ _)
  exact hhook.congr (rearmIrq_memories _)

/-- Settles O59: changes of the CPU leave the memories, each store of the bus and of a dot is at an index inside its
memory, and the audio tick stores nothing. -/
theorem stepKeepsMemoryInvariant : Obligations.StepKeepsMemoryInvariant := fun _ _ hinv hstep =>
  memInv_keptByBus.step deviceTicks_memInv hinv hstep

end Sys2Proof.Machine
end

section
/-! The devices' invariant under every step (62 R330, R331, 63 R392, R411), in its two halves: the picture unit's
position, sprite count and status, and the audio unit's counters and noise register. -/

namespace Sys2Proof.Machine

/-! ## The two halves -/

/-- The picture unit's half of the invariant. -/
structure Ppu.InRange (p : Ppu) : Prop where
  scanline : p.scanline ≤ 261
  dot : p.dot ≤ 340
  spriteCount : p.spriteCount ≤ 8
  status : p.status &&& 0x1F = 0

/-- The audio unit's half of the invariant. -/
structure Apu.InRange (a : Apu) : Prop where
  bitsLeft : 1 ≤ a.dmc.bitsLeft ∧ a.dmc.bitsLeft ≤ 8
  lfsr : a.noise.lfsr ≠ 0
  fsStep : a.fsStep.toNat < 5

theorem deviceInv_iff {s : State} : DeviceInv s ↔ s.ppu.InRange ∧ s.apu.InRange where
  mp := fun ⟨hline, hdot, hcount, hstatus, hbits, hlfsr, hstep⟩ => ⟨⟨hline, hdot, hcount, hstatus⟩, hbits, hlfsr, hstep⟩
  mpr := fun ⟨⟨hline, hdot, hcount, hstatus⟩, hbits, hlfsr, hstep⟩ =>
    ⟨hline, hdot, hcount, hstatus, hbits, hlfsr, hstep⟩

/-! ## The audio unit's operations -/

theorem noiseWrite_lfsr (n : Noise) (offset : Nat) (d : Byte) : (n.write offset d).lfsr = n.lfsr := by
  unfold Noise.write
  split <;> rfl

theorem dmcWrite_bitsLeft (c : Dmc) (offset : Nat) (d : Byte) : (c.write offset d).bitsLeft = c.bitsLeft := by
  unfold Dmc.write
  split <;> rfl

theorem dmcEnable_bitsLeft (c : Dmc) (on : Bool) : (c.enable on).bitsLeft = c.bitsLeft := by
  simp only [Dmc.enable, apply_ite Dmc.bitsLeft, ite_self]

theorem dmcFetched_bitsLeft (c : Dmc) (b : Byte) : (c.fetched b).bitsLeft = c.bitsLeft := by
  simp only [Dmc.fetched, apply_ite Dmc.bitsLeft, ite_self]

theorem quarterFrame_inRange {a : Apu} (h : a.InRange) : a.quarterFrame.InRange := ⟨h.bitsLeft, h.lfsr, h.fsStep⟩

theorem halfFrame_inRange {a : Apu} (h : a.InRange) : a.halfFrame.InRange := ⟨h.bitsLeft, h.lfsr, h.fsStep⟩

theorem doStep_inRange {a : Apu} (step : Nat) (h : a.InRange) : (a.doStep step).InRange := by
  have hquarter := quarterFrame_inRange h
  unfold Apu.doStep
  extract_lets clocked quartered halved
  have hclocked : clocked.InRange := iteInduction (fun _ => hquarter) fun _ => h
  have hhalved : halved.InRange := iteInduction (fun _ => halfFrame_inRange hquarter) fun _ => hquarter
  split
  · exact iteInduction (fun _ => halfFrame_inRange hclocked) fun _ => hclocked
  · exact ⟨hhalved.bitsLeft, hhalved.lfsr, hhalved.fsStep⟩

/-- The step after a step is counted modulo 4 or 5, so below 5 in three bits (63 R418). -/
theorem nextStep_toNat (n : Nat) (five : Bool) :
    (BitVec.ofNat 3 ((n + 1) % if five then 5 else 4)).toNat = (n + 1) % if five then 5 else 4 := by
  rw [BitVec.toNat_ofNat]
  cases five <;> simp <;> omega

theorem frameSequencer_inRange {a : Apu} (period : Nat) (h : a.InRange) : (a.frameSequencer period).InRange := by
  have hstep := doStep_inRange a.fsStep.toNat h
  refine iteInduction (fun _ => ⟨hstep.bitsLeft, hstep.lfsr, ?_⟩) fun _ => ⟨h.bitsLeft, h.lfsr, h.fsStep⟩
  rw [nextStep_toNat]
  split <;> omega

theorem writeEnables_inRange {a : Apu} (d : Byte) (h : a.InRange) : (a.writeEnables d).InRange :=
  ⟨(dmcEnable_bitsLeft a.dmc (bitOf d 4)).symm ▸ h.bitsLeft, h.lfsr, h.fsStep⟩

theorem writeSequencer_inRange {a : Apu} (d : Byte) (h : a.InRange) : (a.writeSequencer d).InRange := by
  unfold Apu.writeSequencer
  extract_lets restarted
  have hrestarted : restarted.InRange := ⟨h.bitsLeft, h.lfsr, show (0 : BitVec 3).toNat < 5 by decide⟩
  exact iteInduction (fun _ => halfFrame_inRange (quarterFrame_inRange hrestarted)) fun _ => hrestarted

theorem writeReg_inRange {a : Apu} (r : Nat) (d : Byte) (h : a.InRange) : (a.writeReg r d).InRange := by
  obtain ⟨hbits, hlfsr, hstep⟩ := h
  unfold Apu.writeReg
  split
  · exact ⟨hbits, hlfsr, hstep⟩
  split
  · exact ⟨hbits, hlfsr, hstep⟩
  split
  · exact ⟨hbits, hlfsr, hstep⟩
  split
  · exact ⟨hbits, (noiseWrite_lfsr _ _ _).symm ▸ hlfsr, hstep⟩
  split
  · exact ⟨(dmcWrite_bitsLeft _ _ _).symm ▸ hbits, hlfsr, hstep⟩
  split
  · exact writeEnables_inRange d ⟨hbits, hlfsr, hstep⟩
  split
  · exact writeSequencer_inRange d ⟨hbits, hlfsr, hstep⟩
  · exact ⟨hbits, hlfsr, hstep⟩

/-- A register that is not 0 does not shift to 0: the last 1 to leave at the bottom comes back at the top
(63 R411). -/
theorem nextLfsr_ne_zero {n : Noise} (h : n.lfsr ≠ 0) : n.nextLfsr ≠ 0 := by
  intro hzero
  have hbit : ∀ j, n.nextLfsr.getLsbD j = false := fun j => by rw [hzero]; simp
  simp only [Noise.nextLfsr, BitVec.getLsbD_or, BitVec.getLsbD_ushiftRight, Bool.or_eq_false_iff] at hbit
  have hhigh : ∀ j, 1 ≤ j → n.lfsr.getLsbD j = false := fun j hj => by
    have hshifted := (hbit (j - 1)).1
    rwa [Nat.add_sub_cancel' hj] at hshifted
  have hlow : n.lfsr.getLsbD 0 = true := by
    by_contra hclear
    refine h (BitVec.eq_of_getLsbD_eq fun j _ => ?_)
    cases j with
    | zero => simpa using hclear
    | succ j => simpa using hhigh (j + 1) (by omega)
  have hfeedback : (bitOf n.lfsr 0 ^^ if n.mode then bitOf n.lfsr 6 else bitOf n.lfsr 1) = true := by
    simp only [bitOf, hlow, hhigh 6 (by decide), hhigh 1 (by decide), ite_self, Bool.xor_false]
  have htop := (hbit 14).2
  rw [if_pos hfeedback] at htop
  exact absurd htop (by decide)

theorem tickBefore_inRange {a : Apu} (h : a.InRange) : a.tickBefore.InRange := by
  refine ⟨h.bitsLeft, ?_, h.fsStep⟩
  refine iteInduction (motive := fun n : Noise => n.lfsr ≠ 0) (fun _ => h.lfsr) fun _ => ?_
  exact iteInduction (motive := fun n : Noise => n.lfsr ≠ 0) (fun _ => nextLfsr_ne_zero h.lfsr) fun _ => h.lfsr

theorem tickPulses_inRange {a : Apu} (h : a.InRange) : a.tickPulses.InRange :=
  iteInduction (fun _ => h) fun _ => ⟨h.bitsLeft, h.lfsr, h.fsStep⟩

/-! ## The bus -/

/-- The state bits stay clear when the status loses bits, and when it gets a bit above them. -/
theorem stateBits_and {status mask : Byte} (h : status &&& 0x1F = 0) : (status &&& mask) &&& 0x1F = 0 := by
  rw [BitVec.and_assoc, BitVec.and_comm mask, ← BitVec.and_assoc, h]
  exact BitVec.zero_and

theorem stateBits_or {status bit : Byte} (h : status &&& 0x1F = 0) (hbit : bit &&& 0x1F = 0) :
    (status ||| bit) &&& 0x1F = 0 := by
  rw [BitVec.and_comm, BitVec.and_or_distrib_left, BitVec.and_comm, h, BitVec.and_comm, hbit]
  exact BitVec.zero_or

/-- A read of PPUSTATUS clears bit 7 of the status; no other read writes the status (62 R338). -/
theorem busRead_status (s : State) (a : Word) :
    (busRead s a).2.ppu.status = s.ppu.status ∨ (busRead s a).2.ppu.status = s.ppu.status &&& 0x7F := by
  unfold busRead
  dsimp only
  split
  · exact .inl rfl
  split
  · unfold ppuRegRead
    split
    · exact .inr rfl
    · exact .inl rfl
    · exact .inl rfl
    · exact .inl rfl
  all_goals (repeat' split) <;> exact .inl rfl

theorem busRead_ppu_inRange {s : State} (a : Word) (h : s.ppu.InRange) : (busRead s a).2.ppu.InRange := by
  have hstatus : (busRead s a).2.ppu.status &&& 0x1F = 0 := by
    obtain hkept | hcleared := busRead_status s a
    · rw [hkept, h.status]
    · rw [hcleared, stateBits_and h.status]
  rw [busRead_changes]
  exact ⟨h.scanline, h.dot, h.spriteCount, hstatus⟩

theorem busRead_apu_inRange {s : State} (a : Word) (h : s.apu.InRange) : (busRead s a).2.apu.InRange := by
  rw [busRead_changes]
  exact ⟨h.bitsLeft, h.lfsr, h.fsStep⟩

theorem ppuRegWrite_apu (s : State) (r : Nat) (d : Byte) : (ppuRegWrite s r d).apu = s.apu := by
  unfold ppuRegWrite writePpuData ppuWrite writeChr setIoLatch
  dsimp only
  repeat' split
  all_goals rfl

theorem ppuRegWrite_inRange {s : State} (r : Nat) (d : Byte) (h : s.ppu.InRange) : (ppuRegWrite s r d).ppu.InRange := by
  obtain ⟨hline, hdot, hcount, hstatus⟩ := h
  unfold ppuRegWrite Ppu.writeScroll Ppu.writeAddr writePpuData ppuWrite writeChr setIoLatch
  dsimp only
  repeat' split
  all_goals exact ⟨hline, hdot, hcount, hstatus⟩

theorem busRead_deviceInv {s : State} (a : Word) (h : DeviceInv s) : DeviceInv (busRead s a).2 := by
  obtain ⟨hppu, hapu⟩ := deviceInv_iff.1 h
  exact deviceInv_iff.2 ⟨busRead_ppu_inRange a hppu, busRead_apu_inRange a hapu⟩

theorem dmaCopy_deviceInv (v : Byte) (is : List Nat) {s : State} (h : DeviceInv s) : DeviceInv (dmaCopy v is s) := by
  induction is generalizing s with
  | nil => exact h
  | cons i is ih =>
    obtain ⟨⟨hline, hdot, hcount, hstatus⟩, hapu⟩ := deviceInv_iff.1 (busRead_deviceInv (word v (BitVec.ofNat 8 i)) h)
    exact ih (deviceInv_iff.2 ⟨⟨hline, hdot, hcount, hstatus⟩, hapu⟩)

theorem busWrite_deviceInv {s : State} (a : Word) (v : Byte) (h : DeviceInv s) : DeviceInv (busWrite s a v) := by
  have hcopied := deviceInv_iff.1 (dmaCopy_deviceInv v (List.range 256) h)
  rw [deviceInv_iff] at h ⊢
  obtain ⟨hppu, hapu⟩ := h
  unfold busWrite
  dsimp only
  split
  · exact ⟨hppu, hapu⟩
  split
  · exact ⟨ppuRegWrite_inRange _ v hppu, (ppuRegWrite_apu s _ v).symm ▸ hapu⟩
  split
  · unfold oamDma
    exact hcopied
  split
  · exact ⟨hppu, hapu⟩
  split
  · refine ⟨hppu, ?_⟩
    dsimp only
    exact writeReg_inRange _ v hapu
  split
  · exact ⟨hppu, hapu⟩
  split
  · exact ⟨hppu, hapu⟩
  · exact ⟨⟨hppu.scanline, hppu.dot, hppu.spriteCount, hppu.status⟩, hapu⟩

theorem deviceInv_keptByBus : KeptByBus DeviceInv where
  cpu h heq := by
    obtain ⟨hline, hdot, hcount, hstatus, hbits, hlfsr, hstep⟩ := h
    rw [heq]
    exact ⟨hline, hdot, hcount, hstatus, hbits, hlfsr, hstep⟩
  read a h := busRead_deviceInv a h
  write a v h := busWrite_deviceInv a v h

/-! ## The dots (62 R348) -/

theorem scanSprites_count_le (oam : Memory) (line h : Nat) (is : List Nat) {list : Vector (BitVec 6) 8} {count : Nat}
    (hcount : count ≤ 8) : (scanSprites oam line h is list count).2.1 ≤ 8 := by
  induction is generalizing list count with
  | nil => exact hcount
  | cons i is ih =>
    unfold scanSprites
    dsimp only
    split
    · split
      · exact ih (by omega)
      · exact hcount
    · exact ih hcount

theorem evaluateSprites_inRange {p : Ppu} (h : p.InRange) : p.evaluateSprites.InRange := by
  obtain ⟨hline, hdot, hcount, hstatus⟩ := h
  have hlisted := scanSprites_count_le p.oam p.scanline p.spriteHeight (List.range 64) (list := p.spriteList)
    (Nat.zero_le 8)
  unfold Ppu.evaluateSprites
  extract_lets r
  refine iteInduction (fun _ => ⟨hline, hdot, show (0 : BitVec 4) ≤ 8 by decide, hstatus⟩) fun _ => ⟨hline, hdot, ?_, ?_⟩
  · rw [BitVec.le_def, BitVec.toNat_ofNat, Nat.mod_eq_of_lt (Nat.lt_of_le_of_lt hlisted (by decide))]
    exact hlisted
  · exact iteInduction (motive := fun b : Byte => b &&& 0x1F = 0) (fun _ => stateBits_or hstatus (by decide))
      fun _ => hstatus

theorem backgroundDot_inRange {s : State} (h : s.ppu.InRange) : (backgroundDot s).InRange := by
  obtain ⟨hline, hdot, hcount, hstatus⟩ := h
  unfold backgroundDot
  dsimp only
  split <;> exact ⟨hline, hdot, hcount, hstatus⟩

theorem vblankSet_inRange {s : State} (h : s.ppu.InRange) : (vblankSet s).ppu.InRange := by
  obtain ⟨hline, hdot, hcount, hstatus⟩ := h
  unfold vblankSet
  extract_lets p fire
  split
  · exact ⟨hline, hdot, hcount, hstatus⟩
  · exact ⟨hline, hdot, hcount, stateBits_or hstatus (by decide)⟩

theorem ppu_inRange_keptByDot : KeptByDot fun s => s.ppu.InRange where
  clear := fun ⟨hline, hdot, hcount, hstatus⟩ =>
    ⟨hline, hdot, hcount, stateBits_and hstatus⟩
  vblank h := vblankSet_inRange h
  pixel := fun _ _ ⟨hline, hdot, hcount, hstatus⟩ =>
    ⟨hline, hdot, hcount, iteInduction (motive := fun b : Byte => b &&& 0x1F = 0)
      (fun _ => stateBits_or hstatus (by decide)) fun _ => hstatus⟩
  background h := backgroundDot_inRange h
  address _ h := ⟨h.scanline, h.dot, h.spriteCount, h.status⟩
  sprites h := evaluateSprites_inRange h
  hook h := h

theorem advance_inRange {p : Ppu} (h : p.InRange) : p.advance.InRange := by
  obtain ⟨hline, hdot, hcount, hstatus⟩ := h
  unfold Ppu.advance
  split
  · exact ⟨Nat.zero_le _, Nat.zero_le _, hcount, hstatus⟩
  split
  · split
    · exact ⟨Nat.zero_le _, Nat.zero_le _, hcount, hstatus⟩
    next hlast => exact ⟨show p.scanline + 1 ≤ 261 by omega, Nat.zero_le _, hcount, hstatus⟩
  next hlast => exact ⟨hline, show p.dot + 1 ≤ 340 by omega, hcount, hstatus⟩

theorem ppuStep_inRange {s : State} (h : s.ppu.InRange) : (ppuStep s).ppu.InRange :=
  advance_inRange (ppu_inRange_keptByDot.ppuDot h)

/-- The audio unit and the dots of the picture unit do not meet. -/
theorem apu_keptByDot (a : Apu) : KeptByDot fun s => s.apu = a where
  clear h := h
  vblank h := by
    unfold vblankSet
    extract_lets p fire
    split <;> exact h
  pixel _ _ h := h
  background h := h
  address _ h := h
  sprites h := h
  hook h := h

theorem ppuStep_apu (s : State) : (ppuStep s).apu = s.apu := (apu_keptByDot s.apu).ppuDot rfl

theorem ppuTicks_deviceInv {s : State} (h : DeviceInv s) : DeviceInv (ppuTicks s) := by
  obtain ⟨hppu, hapu⟩ := deviceInv_iff.1 h
  have hkept : (ppuTicks s).apu = s.apu := by simp only [ppuTicks, ppuStep_apu]
  exact deviceInv_iff.2 ⟨ppuStep_inRange (ppuStep_inRange (ppuStep_inRange hppu)), hkept ▸ hapu⟩

/-! ## The audio tick (63 R402) -/

/-- The devices with another delta channel, its bits left in range. -/
theorem deviceInv_withDmc {s : State} {c : Dmc} (h : DeviceInv s) (hbits : 1 ≤ c.bitsLeft ∧ c.bitsLeft ≤ 8) :
    DeviceInv { s with apu := { s.apu with dmc := c } } :=
  ⟨h.scanline, h.dot, h.spriteCount, h.status, hbits, h.lfsr, h.fsStep⟩

theorem fetchSample_deviceInv {s : State} (h : DeviceInv s) : DeviceInv (fetchSample s) := by
  have hread := busRead_deviceInv s.apu.dmc.curAddr h
  exact ⟨hread.scanline, hread.dot, hread.spriteCount, hread.status,
    (dmcFetched_bitsLeft _ _).symm ▸ hread.bitsLeft, hread.lfsr, hread.fsStep⟩

theorem dmcOutputBit_deviceInv {s : State} (h : DeviceInv s) : DeviceInv (dmcOutputBit s) := by
  have hfull : (1 : BitVec 4) ≤ 8 ∧ (8 : BitVec 4) ≤ 8 := by decide
  unfold dmcOutputBit
  extract_lets c d full reloaded fetched
  have hreloaded : DeviceInv reloaded := deviceInv_withDmc h hfull
  split
  · split
    · exact deviceInv_withDmc (fetchSample_deviceInv hreloaded) (fetchSample_deviceInv hreloaded).bitsLeft
    · exact deviceInv_withDmc hreloaded hfull
  next hleft =>
    refine deviceInv_withDmc h ?_
    have hdown : ∀ b : BitVec 4, 1 ≤ b ∧ b ≤ 8 → b - 1 ≠ 0 → 1 ≤ b - 1 ∧ b - 1 ≤ 8 := by decide
    exact hdown _ h.bitsLeft hleft

theorem dmcTimer_deviceInv {s : State} (h : DeviceInv s) : DeviceInv (dmcTimer s) := by
  unfold dmcTimer
  dsimp only
  split
  · exact dmcOutputBit_deviceInv (deviceInv_withDmc h h.bitsLeft)
  · exact deviceInv_withDmc h h.bitsLeft

theorem resample_deviceInv {s : State} (h : DeviceInv s) : DeviceInv (resample s) :=
  ⟨h.scanline, h.dot, h.spriteCount, h.status, h.bitsLeft, h.lfsr, h.fsStep⟩

theorem apuTick_deviceInv {s : State} (h : DeviceInv s) : DeviceInv (apuTick s) := by
  obtain ⟨hppu, hapu⟩ := deviceInv_iff.1 h
  have hbefore : DeviceInv { s with apu := s.apu.tickBefore } := deviceInv_iff.2 ⟨hppu, tickBefore_inRange hapu⟩
  obtain ⟨hppu', hapu'⟩ := deviceInv_iff.1 (dmcTimer_deviceInv hbefore)
  exact resample_deviceInv (deviceInv_iff.2 ⟨hppu', frameSequencer_inRange _ (tickPulses_inRange hapu')⟩)

/-! ## The step -/

theorem rearmIrq_deviceInv {s : State} (h : DeviceInv s) : DeviceInv (rearmIrq s) :=
  ⟨h.scanline, h.dot, h.spriteCount, h.status, h.bitsLeft, h.lfsr, h.fsStep⟩

theorem deviceInv_withMapper {s : State} (m : Mapper) (h : DeviceInv s) : DeviceInv { s with mapper := m } :=
  ⟨h.scanline, h.dot, h.spriteCount, h.status, h.bitsLeft, h.lfsr, h.fsStep⟩

theorem deviceTicks_deviceInv {s : State} (h : DeviceInv s) : DeviceInv (deviceTicks s) := by
  unfold deviceTicks
  exact rearmIrq_deviceInv (deviceInv_withMapper _ (apuTick_deviceInv (ppuTicks_deviceInv h)))

/-- Settles O60: no bus access takes a counter out of its range; a dot advances the position inside the frame and lists
at most eight sprites; a tick reloads the delta channel's bits at 0 and feeds the noise register's last 1 back. -/
theorem stepKeepsDeviceInvariant : Obligations.StepKeepsDeviceInvariant := fun _ _ hinv hstep =>
  deviceInv_keptByBus.step deviceTicks_deviceInv hinv hstep

end Sys2Proof.Machine
end

section
/-! The bus (61 R302 to R312): the memory windows, the ROM window's writes, OAM DMA and the controllers. -/

namespace Sys2Proof.Machine

/-! ## Work RAM, PRG RAM, and the addresses with nothing behind them (61 R302, R305, R306) -/

theorem MemInv.prgRamWf {s : State} (hi : MemInv s) : s.prgRam.wf = true :=
  (Bool.and_eq_true_iff.mp hi.prgRam).1

theorem MemInv.oamWf {s : State} (hi : MemInv s) : s.ppu.oam.wf = true :=
  (Bool.and_eq_true_iff.mp hi.oam).1

/-- A write to PRG RAM changes the one byte written (61 R305). -/
theorem byteAt_write_prgRam {s : State} (hi : MemInv s) {a b : Word} (v : Byte) (ha : 0x6000 ≤ a.toNat)
    (ha' : a.toNat < 0x8000) (hb : isMemory b) : byteAt (busWrite s a v) b = if b = a then v else byteAt s b := by
  split
  next heq =>
    rw [heq]
    exact storedAt_busWrite hi.ramWf hi.prgRamWf a v (.inr ⟨ha, ha'⟩) a (.inr rfl)
  next hne =>
    refine (storeFrame_busWrite s a v).cpu b hb ?_ (.inl ha')
    rintro (⟨hram, -⟩ | heq)
    · omega
    · exact hne heq.symm

theorem busRead_unmapped (s : State) {a : Word} (h : 0x4018 ≤ a.toNat) (h' : a.toNat < 0x6000) :
    busRead s a = (s.cfg.unmappedRead, s) := by
  unfold busRead
  dsimp only
  rw [if_neg (by omega), if_neg (by omega), if_neg (by omega), if_neg (by omega), if_neg (by omega), if_pos h']

theorem busWrite_unmapped (s : State) {a : Word} (v : Byte) (h : 0x4018 ≤ a.toNat) (h' : a.toNat < 0x6000) :
    busWrite s a v = s := by
  unfold busWrite
  dsimp only
  rw [if_neg (by omega), if_neg (by omega), if_neg (by omega), if_neg (by omega), if_neg (by omega), if_pos h']

/-- The audio registers and the DMA register are write-only: they read the constant (D16, D21). -/
theorem busRead_writeOnly (s : State) {a : Word} (h : 0x4000 ≤ a.toNat) (h' : a.toNat ≤ 0x4014) :
    busRead s a = (s.cfg.unmappedRead, s) := by
  unfold busRead
  dsimp only
  rw [if_neg (by omega), if_neg (by omega), if_neg (by omega), if_neg (by omega), if_neg (by omega),
    if_pos (by omega)]

/-- Settles O34: each window by the bus's lemma for it, the bytes after a write by `byteAt_write_ram` and
`byteAt_write_prgRam`. -/
theorem memoryWindows : Obligations.MemoryWindows := by
  intro s a v hi
  refine ⟨fun h => ⟨?_, fun b hb => byteAt_write_ram hi.ramWf v h hb, ?_⟩,
    fun h h' => ⟨busRead_prgRam_window s h h', fun b hb => byteAt_write_prgRam hi v h h' hb, ?_⟩,
    fun h h' => ⟨busRead_unmapped s h h', busWrite_unmapped s v h h'⟩, fun h h' => busRead_writeOnly s h h'⟩
  · rw [busRead_ram_window s h, and_7FF]
  · rw [busWrite_ram_window s v h]
  · rw [busWrite_prgRam_window s v h h']

/-! ## The ROM window (61 R307, 64 R453, R456, R460, R470) -/

theorem byteAt_rom (s : State) {a : Word} (h : 0x8000 ≤ a.toNat) :
    byteAt s a = s.cart.prg.read (prgOffset s.cart s.mapper a) := by
  rw [byteAt, busRead_rom_window s h, readPrg]

theorem writePrg_nrom {s : State} (a : Word) (v : Byte) (h : s.mapper = .nrom) : writePrg s a v = s := by
  cases s
  cases h
  rfl

theorem prgOffset_nrom (c : Cartridge) (a : Word) :
    prgOffset c .nrom a = (a.toNat - 0x8000) % 32768 % (16384 * c.prgUnits) := by
  simp [prgOffset, prgWindow, Cartridge.prgSize]

/-- Mapper 2 shows the selected bank at `$8000` and the last one at `$C000`. -/
theorem prgOffset_uxrom {c : Cartridge} {bank : Byte} {a : Word} (hbank : bank.toNat < c.prgUnits)
    (h : 0x8000 ≤ a.toNat) :
    prgOffset c (.uxrom bank) a =
      16384 * (if a.toNat < 0xC000 then bank.toNat else c.prgUnits - 1) + a.toNat % 16384 := by
  have ha := a.isLt
  have hsize : 16384 * c.prgUnits / 16384 = c.prgUnits := Nat.mul_div_cancel_left _ (by decide)
  simp only [prgOffset, prgWindow, Cartridge.prgSize, hsize]
  split <;> split <;> (try omega) <;> rw [Nat.mod_eq_of_lt] <;> omega

/-- Settles O35: the write is `writePrg`, which mapper 0 ignores; the bytes then shown are at `prgOffset_nrom` and
`prgOffset_uxrom`. -/
theorem romWindowWrites : Obligations.RomWindowWrites := by
  intro s a v ha t
  have ht : t = writePrg s a v := busWrite_rom_window s v ha
  refine ⟨by rw [ht]; rfl, fun hmap hunits => ⟨ht.trans (writePrg_nrom a v hmap), fun hone => ?_, fun htwo => ?_⟩,
    fun bank hmap hunits hv b => ?_⟩
  · rw [byteAt_rom s ha, hmap, prgOffset_nrom, hone]
    exact congrArg s.cart.prg.read (by omega)
  · have := a.isLt
    rw [byteAt_rom s ha, hmap, prgOffset_nrom, htwo]
    exact congrArg s.cart.prg.read (by omega)
  · have hshown : ∀ h : 0x8000 ≤ b.toNat, byteAt t b =
        s.cart.prg.read (16384 * (if b.toNat < 0xC000 then v.toNat else s.cart.prgUnits - 1) + b.toNat % 16384) := by
      intro h
      rw [byteAt_rom t h, ht, writePrg, hmap]
      dsimp only [mapperWrite]
      rw [prgOffset_uxrom hv h]
    have hb := b.isLt
    refine ⟨fun h h' => ?_, fun h => ?_⟩
    · rw [hshown h, if_pos h']
      exact congrArg s.cart.prg.read (by omega)
    · rw [hshown (by omega), if_neg (by omega)]
      exact congrArg s.cart.prg.read (by omega)

/-! ## OAM DMA (61 R308, 50 R250) -/

/-- A memory after the stores of `f 0` to `f (n - 1)` at `index 0` to `index (n - 1)`, in order. -/
def Memory.writeEach (index : Nat → Nat) (f : Nat → Byte) (is : List Nat) (m : Memory) : Memory :=
  is.foldl (fun m i => m.write (index i) (f i)) m

theorem writeEach_range_succ (index : Nat → Nat) (f : Nat → Byte) (n : Nat) (m : Memory) :
    m.writeEach index f (List.range (n + 1)) = (m.writeEach index f (List.range n)).write (index n) (f n) := by
  simp [Memory.writeEach, List.range_succ, List.foldl_append]

theorem wf_writeEach (index : Nat → Nat) (f : Nat → Byte) (n : Nat) {m : Memory} (hm : m.wf = true) :
    (m.writeEach index f (List.range n)).wf = true := by
  induction n with
  | zero => exact hm
  | succ n ih =>
    rw [writeEach_range_succ]
    exact wf_write _ _ ih

/-- Stores at indexes that differ from each other are all read back. -/
theorem read_writeEach {index : Nat → Nat} (f : Nat → Byte) {n : Nat} {m : Memory} (hm : m.wf = true)
    (hindex : ∀ i j, i < n → j < n → index i = index j → i = j) {i : Nat} (hi : i < n) :
    (m.writeEach index f (List.range n)).read (index i) = f i := by
  induction n with
  | zero => omega
  | succ n ih =>
    rw [writeEach_range_succ, read_write (low := 0) (wf_writeEach index f n hm)]
    split
    next heq => rw [hindex i n hi (by omega) heq]
    next hne =>
      have hlt : i < n := Nat.lt_of_le_of_ne (by omega) fun heq => hne (heq ▸ rfl)
      exact ih (fun i j hi hj => hindex i j (by omega) (by omega)) hlt

/-- A page of work RAM, PRG RAM or PRG ROM. -/
theorem isMemory_page {v : Byte} (h : v.toNat < 0x20 ∨ 0x60 ≤ v.toNat) (b : Byte) : isMemory (word v b) := by
  have hb := b.isLt
  rw [isMemory, word_toNat]
  omega

/-- The copy from a page of memory stores the page's bytes in OAM and changes nothing else. -/
theorem dmaCopy_memory {v : Byte} (hv : v.toNat < 0x20 ∨ 0x60 ≤ v.toNat) (is : List Nat) (s : State) :
    dmaCopy v is s =
      { s with
        ppu := { s.ppu with
          oam := s.ppu.oam.writeEach (fun i => (s.ppu.oamAddr.toNat + i) % 256)
            (fun i => byteAt s (word v (BitVec.ofNat 8 i))) is } } := by
  induction is generalizing s with
  | nil => rfl
  | cons i is ih =>
    have hbyte : ∀ (m : Memory) (j : Nat),
        byteAt { s with ppu := { s.ppu with oam := m } } (word v (BitVec.ofNat 8 j)) =
          byteAt s (word v (BitVec.ofNat 8 j)) :=
      fun _ j => byteAt_congr (by rfl) (by rfl) (by rfl) (by rfl) (isMemory_page hv _)
    rw [dmaCopy, busRead_isMemory s (isMemory_page hv _), ih]
    simp only [hbyte]
    rfl

/-- Everything of the CPU that a DMA changes: its stall. -/
theorem busWrite_dma_cpu (s : State) (v : Byte) :
    (busWrite s 0x4014 v).cpu =
      { s.cpu with skip := s.cpu.skip + if bitOf s.cpu.cyclesTotal 0 then 514 else 513 } := by
  rw [busWrite_dma s v rfl, oamDma, dmaCopy_changes, ← dmaStall_eq]

theorem busWrite_dma_oamAddr (s : State) (v : Byte) :
    (busWrite s 0x4014 v).ppu.oamAddr = s.ppu.oamAddr := by
  rw [busWrite_dma s v rfl, oamDma, dmaCopy_changes]

theorem word_ofNat (v : Byte) {i : Nat} (hi : i < 256) :
    word v (BitVec.ofNat 8 i) = BitVec.ofNat 16 (256 * v.toNat + i) := by
  have hv := v.isLt
  apply BitVec.eq_of_toNat_eq
  rw [word_toNat, BitVec.toNat_ofNat, BitVec.toNat_ofNat]
  omega

/-- Settles O36: the copy of a page of memory is `dmaCopy_memory`, its 256 stores at different places. -/
theorem oamDmaCopiesPage : Obligations.OamDmaCopiesPage := by
  intro s v t
  refine ⟨⟨busWrite_dma_oamAddr s v, busWrite_dma_cpu s v⟩, fun hi hv => ?_⟩
  have ht : t = oamDma s v := busWrite_dma s v rfl
  rw [oamDma, dmaCopy_memory hv] at ht
  have hcopied (i : Nat) (hlt : i < 256) := read_writeEach (index := fun i => (s.ppu.oamAddr.toNat + i) % 256)
    (fun i => byteAt s (word v (BitVec.ofNat 8 i))) hi.oamWf
    (fun i j hi hj (heq : (s.ppu.oamAddr.toNat + i) % 256 = (s.ppu.oamAddr.toNat + j) % 256) => by omega) hlt
  generalize s.ppu.oam.writeEach _ _ (List.range 256) = m at ht hcopied
  rw [ht]
  refine ⟨fun i hlt => ?_, rfl⟩
  rw [← word_ofNat v hlt]
  exact hcopied i hlt

/-! ## The controllers (61 R310 to R312) -/

/-- The byte of a controller read: bit 0 of what is shifted out over the open bus's `$40` (61 R311). -/
theorem controllerByte_eq (shift : Byte) :
    (0x40 : Byte) ||| (shift &&& 1) = if bitOf shift 0 = true then 0x41 else 0x40 := by
  have h : ∀ b : Byte, (0x40 : Byte) ||| (b &&& 1) = if bitOf b 0 = true then 0x41 else 0x40 := by decide
  exact h shift

theorem bitOf_shiftRight_zero (b : Byte) (n : Nat) : bitOf (b >>> n) 0 = bitOf b n := by
  simp [bitOf]

/-- No read moves the strobe or the buttons. -/
theorem readTimes_strobe_buttons (a : Word) (n : Nat) (s : State) :
    (readTimes a n s).pad.strobe = s.pad.strobe ∧ (readTimes a n s).pad.buttons0 = s.pad.buttons0 ∧
      (readTimes a n s).pad.buttons1 = s.pad.buttons1 := by
  induction n generalizing s with
  | zero => exact ⟨rfl, rfl, rfl⟩
  | succ n ih =>
    have hread := ih (busRead s a).2
    rw [busRead_changes] at hread
    rw [readTimes, busRead_changes]
    exact hread

/-- With the strobe clear, a register that each read shifts by one is shifted by `n` after `n` reads. -/
theorem readTimes_shift {a : Word} {shift : Pad → Byte}
    (hread : ∀ u : State, u.pad.strobe = false → shift (busRead u a).2.pad = shift u.pad >>> 1) (n : Nat) {s : State}
    (h : s.pad.strobe = false) : shift (readTimes a n s).pad = shift s.pad >>> n := by
  induction n generalizing s with
  | zero => simp [readTimes]
  | succ n ih =>
    have hstrobe : (busRead s a).2.pad.strobe = false := (readTimes_strobe_buttons a 1 s).1.trans h
    rw [readTimes, ih hstrobe, hread s h, ← BitVec.shiftRight_add, Nat.add_comm]

theorem busRead_port0_byte (s : State) :
    (busRead s 0x4016).1 =
      if bitOf (if s.pad.strobe then s.pad.buttons0 else s.pad.shift0) 0 = true then 0x41 else 0x40 :=
  controllerByte_eq _

theorem busRead_port1_byte (s : State) :
    (busRead s 0x4017).1 =
      if bitOf (if s.pad.strobe then s.pad.buttons1 else s.pad.shift1) 0 = true then 0x41 else 0x40 :=
  controllerByte_eq _

theorem busRead_port0_shift {s : State} (h : s.pad.strobe = false) :
    (busRead s 0x4016).2.pad.shift0 = s.pad.shift0 >>> 1 := by
  show (if s.pad.strobe then s.pad.buttons0 else s.pad.shift0) >>> 1 = _
  rw [h, if_neg Bool.false_ne_true]

theorem busRead_port1_shift {s : State} (h : s.pad.strobe = false) :
    (busRead s 0x4017).2.pad.shift1 = s.pad.shift1 >>> 1 := by
  show (if s.pad.strobe then s.pad.buttons1 else s.pad.shift1) >>> 1 = _
  rw [h, if_neg Bool.false_ne_true]

/-- A write with bit 0 set loads the buttons and holds the strobe; one with bit 0 clear lets it go (61 R310). -/
theorem busWrite_strobe_set (s : State) {v : Byte} (h : bitOf v 0 = true) :
    (busWrite s 0x4016 v).pad =
      { s.pad with strobe := true, shift0 := s.pad.buttons0, shift1 := s.pad.buttons1 } :=
  if_pos h

theorem busWrite_strobe_clear (s : State) {v : Byte} (h : bitOf v 0 = false) :
    (busWrite s 0x4016 v).pad = { s.pad with strobe := false } :=
  if_neg (ne_true_of_eq_false h)

/-- Settles O37: with the strobe set a read gives the present buttons; with it clear, the registers it loaded, shifted
once by each read. -/
theorem controllersShiftButtons : Obligations.ControllersShiftButtons := by
  intro s n d e hd he held ready bitByte
  have hheld := busWrite_strobe_set s hd
  have hready : ready.pad = { held.pad with strobe := false } := busWrite_strobe_clear held he
  have hclear : ready.pad.strobe = false := by rw [hready]
  have hset (a : Word) := readTimes_strobe_buttons a n held
  have hstrobe (a : Word) := (readTimes_strobe_buttons a n ready).1.trans hclear
  refine ⟨?_, ?_, ?_, ?_⟩
  · rw [busRead_port0_byte, hstrobe, if_neg Bool.false_ne_true,
      readTimes_shift (shift := Pad.shift0) (fun _ => busRead_port0_shift) n hclear, bitOf_shiftRight_zero, hready, hheld]
  · rw [busRead_port1_byte, hstrobe, if_neg Bool.false_ne_true,
      readTimes_shift (shift := Pad.shift1) (fun _ => busRead_port1_shift) n hclear, bitOf_shiftRight_zero, hready, hheld]
  · obtain ⟨hstrobe, hbuttons, -⟩ := hset 0x4016
    rw [busRead_port0_byte, hstrobe, hbuttons, hheld, if_pos rfl]
  · obtain ⟨hstrobe, -, hbuttons⟩ := hset 0x4017
    rw [busRead_port1_byte, hstrobe, hbuttons, hheld, if_pos rfl]

end Sys2Proof.Machine
end

section
/-! The picture unit's register port (62 R335 to R342, R363, 61 R303). -/

namespace Sys2Proof.Machine

/-! ## The port's eight registers (61 R303) -/

theorem busRead_ppuRegister (s : State) {a : Word} {r : Nat} (h : isPpuRegister a r) :
    busRead s a = ppuRegRead s r := by
  obtain ⟨hlow, hhigh, hr⟩ := h
  unfold busRead
  dsimp only
  rw [if_neg (by omega), if_pos hhigh, and_7, hr]

theorem busWrite_ppuRegister (s : State) {a : Word} {r : Nat} (h : isPpuRegister a r) (v : Byte) :
    busWrite s a v = ppuRegWrite s r v := by
  obtain ⟨hlow, hhigh, hr⟩ := h
  rw [busWrite_ppu_window s v hlow hhigh, and_7, hr]

/-- Every write goes into the I/O latch (62 R335). -/
theorem ppuRegWrite_ioLatch (s : State) (r : Nat) (d : Byte) : (ppuRegWrite s r d).ppu.ioLatch = d := by
  unfold ppuRegWrite Ppu.writeScroll Ppu.writeAddr writePpuData ppuWrite writeChr setIoLatch
  dsimp only
  repeat' split
  all_goals rfl

/-- A register other than PPUSTATUS, OAMDATA and PPUDATA reads the I/O latch (62 R335). -/
theorem ppuRegRead_writeOnly (s : State) {r : Nat} (h2 : r ≠ 2) (h4 : r ≠ 4) (h7 : r ≠ 7) :
    ppuRegRead s r = (s.ppu.ioLatch, s) := by
  unfold ppuRegRead
  split
  · exact absurd rfl h2
  · exact absurd rfl h4
  · exact absurd rfl h7
  · rfl

/-! ## OAMDATA (62 R340) -/

theorem onRenderLine_iff (p : Ppu) : p.onRenderLine = true ↔ p.scanline ≤ 239 ∨ p.scanline = 261 := by
  simp [Ppu.onRenderLine]

theorem rendering_iff (p : Ppu) : p.rendering = true ↔ bitOf p.mask 3 = true ∨ bitOf p.mask 4 = true := by
  simp [Ppu.rendering]

theorem readOamData_eq (s : State) {b : Byte}
    (hb : b =
      (if (bitOf s.ppu.mask 3 = true ∨ bitOf s.ppu.mask 4 = true) ∧ (s.ppu.scanline ≤ 239 ∨ s.ppu.scanline = 261) then
        0xFF
      else s.ppu.oam.read s.ppu.oamAddr.toNat)) :
    readOamData s = (b, { s with ppu := { s.ppu with ioLatch := b } }) := by
  simp only [readOamData, Bool.and_eq_true, rendering_iff, onRenderLine_iff, ← hb]

/-- Settles O38: each register's own read and write, which the address's low three bits select. -/
theorem registerPortAndOam : Obligations.RegisterPortAndOam := by
  intro s a v r ha
  have hread := busRead_ppuRegister s ha
  have hwrite := busWrite_ppuRegister s ha v
  refine ⟨?latch, fun h2 h4 h7 => hread.trans (ppuRegRead_writeOnly s h2 h4 h7), fun b hb => ?mirrors,
    ?mask, ?status, ?oamAddr, ?oamData⟩
  case latch => rw [hwrite, ppuRegWrite_ioLatch]
  case mirrors => exact ⟨(busRead_ppuRegister s hb).trans hread.symm, (busWrite_ppuRegister s hb v).trans hwrite.symm⟩
  case mask => rintro rfl; exact hwrite
  case status => rintro rfl; exact hwrite
  case oamAddr => rintro rfl; exact hwrite
  case oamData =>
    rintro rfl hi
    rw [hwrite, hread]
    exact ⟨fun b hb => readOamData_eq s hb, rfl, fun i => read_write (low := 0) hi.oamWf _ i v⟩

/-! ## PPUSTATUS (62 R338, R362) -/

/-- Settles O39: the read is `readStatus`, its bytes taken bit by bit. -/
theorem statusReadClearsVblank : Obligations.StatusReadClearsVblank := by
  intro s a ha r
  have hr : r = readStatus s := busRead_ppuRegister s ha
  rw [hr]
  refine ⟨fun j hj => ?_, fun j hj => ?_, fun ⟨hline, hdot⟩ => ?_, fun hnot => ?_, rfl⟩
  · interval_cases j <;> simp [readStatus, bitOf]
  · interval_cases j <;> simp [readStatus, bitOf]
  · simp [readStatus, hline, hdot]
  · have hrace : (s.ppu.scanline == 241 && s.ppu.dot == 1) = false := by
      rw [Bool.eq_false_iff]
      simpa [atDot] using hnot
    simp [readStatus, hrace]

/-! ## The scroll address as four fields (62 R341, R355, R356) -/

/-- The fields of a scroll address: fine Y, nametables, coarse Y, coarse X. -/
def scrollAddress (fineY : BitVec 3) (tables : BitVec 2) (coarseY coarseX : BitVec 5) : BitVec 15 :=
  fineY ++ tables ++ coarseY ++ coarseX

def fineY (v : BitVec 15) : BitVec 3 := v.extractLsb' 12 3
def tables (v : BitVec 15) : BitVec 2 := v.extractLsb' 10 2
def coarseY (v : BitVec 15) : BitVec 5 := v.extractLsb' 5 5
def coarseX (v : BitVec 15) : BitVec 5 := v.extractLsb' 0 5

theorem scrollAddress_toNat (fineY : BitVec 3) (tables : BitVec 2) (coarseY coarseX : BitVec 5) :
    (scrollAddress fineY tables coarseY coarseX).toNat =
      4096 * fineY.toNat + 1024 * tables.toNat + 32 * coarseY.toNat + coarseX.toNat := by
  have happend : ∀ {m n : Nat} (h : BitVec m) (l : BitVec n), (h ++ l).toNat = 2 ^ n * h.toNat + l.toNat := by
    intro m n h l
    rw [BitVec.toNat_append, Nat.shiftLeft_eq, Nat.mul_comm, Nat.two_pow_add_eq_or_of_lt l.isLt]
  simp only [scrollAddress, happend]
  omega

theorem scrollAddress_getLsbD (fineY : BitVec 3) (tables : BitVec 2) (coarseY coarseX : BitVec 5) (j : Nat) :
    (scrollAddress fineY tables coarseY coarseX).getLsbD j =
      if j < 5 then coarseX.getLsbD j else if j < 10 then coarseY.getLsbD (j - 5)
      else if j < 12 then tables.getLsbD (j - 10) else fineY.getLsbD (j - 12) := by
  have h10 : j - 5 < 5 ↔ j < 10 := by omega
  have h12 : j - 5 - 5 < 2 ↔ j < 12 := by omega
  change (fineY ++ tables ++ coarseY ++ coarseX : BitVec (3 + 2 + 5 + 5)).getLsbD j = _
  simp only [BitVec.getLsbD_append, h10, h12]
  simp only [Nat.sub_sub, Nat.reduceAdd]

theorem fineY_toNat (v : BitVec 15) : (fineY v).toNat = v.toNat / 4096 := by
  have hv := v.isLt
  rw [fineY, BitVec.extractLsb'_toNat, Nat.shiftRight_eq_div_pow]
  omega

theorem tables_toNat (v : BitVec 15) : (tables v).toNat = v.toNat / 1024 % 4 := by
  rw [tables, BitVec.extractLsb'_toNat, Nat.shiftRight_eq_div_pow]

theorem coarseY_toNat (v : BitVec 15) : (coarseY v).toNat = v.toNat / 32 % 32 := by
  rw [coarseY, BitVec.extractLsb'_toNat, Nat.shiftRight_eq_div_pow]

theorem coarseX_toNat (v : BitVec 15) : (coarseX v).toNat = v.toNat % 32 := by
  rw [coarseX, BitVec.extractLsb'_toNat, Nat.shiftRight_zero]

/-- Settles the bits of a scroll address one by one. -/
theorem eq_scrollAddress {v : BitVec 15} {fineY : BitVec 3} {tables : BitVec 2} {coarseY coarseX : BitVec 5}
    (h : ∀ j, j < 15 → v.getLsbD j =
      if j < 5 then coarseX.getLsbD j else if j < 10 then coarseY.getLsbD (j - 5)
      else if j < 12 then tables.getLsbD (j - 10) else fineY.getLsbD (j - 12)) :
    v = scrollAddress fineY tables coarseY coarseX :=
  BitVec.eq_of_getLsbD_eq fun j hj => (h j hj).trans (scrollAddress_getLsbD _ _ _ _ j).symm

/-! ## PPUSCROLL and PPUADDR (62 R341, R342) -/

/-- What the two writes of PPUSCROLL leave in `t`: coarse X of the first byte, coarse and fine Y of the second, the
nametables of before. -/
theorem scrollWrites_eq (t : BitVec 15) (c d : Byte) :
    (((t &&& 0x7FE0) ||| (c >>> 3).setWidth 15) &&& 0x0C1F) ||| ((d &&& 7).setWidth 15 <<< 12) |||
        ((d >>> 3).setWidth 15 <<< 5) =
      scrollAddress (d.extractLsb' 0 3) (tables t) (d.extractLsb' 3 5) (c.extractLsb' 3 5) := by
  refine eq_scrollAddress fun j hj => ?_
  interval_cases j <;> simp [tables]

/-- What the two writes of PPUADDR leave in `t`: the six low bits of the first byte over the second byte. -/
theorem addressWrites_eq (t : BitVec 15) (c d : Byte) :
    (((t &&& 0x00FF) ||| ((c &&& 0x3F).setWidth 15 <<< 8)) &&& 0x7F00) ||| d.setWidth 15 =
      (c &&& 0x3F).setWidth 15 <<< 8 ||| d.setWidth 15 := by
  refine BitVec.eq_of_getLsbD_eq fun j hj => ?_
  interval_cases j <;> simp

theorem addressWrites_toNat (c d : Byte) :
    ((c &&& 0x3F).setWidth 15 <<< 8 ||| d.setWidth 15).toNat = c.toNat % 64 * 256 + d.toNat := by
  have hc : (c &&& 0x3F).toNat = c.toNat % 64 := by
    rw [BitVec.toNat_and]
    exact Nat.and_two_pow_sub_one_eq_mod c.toNat 6
  have hlow : c.toNat % 64 % 2 ^ 15 * 2 ^ 8 % 2 ^ 15 = 2 ^ 8 * (c.toNat % 64) := by omega
  rw [BitVec.toNat_or, BitVec.toNat_shiftLeft, BitVec.toNat_setWidth, BitVec.toNat_setWidth, hc, Nat.shiftLeft_eq,
    hlow, Nat.mod_eq_of_lt (by omega : d.toNat < 2 ^ 15), ← Nat.two_pow_add_eq_or_of_lt d.isLt, Nat.mul_comm]

theorem Ppu.writeScroll_twice {p : Ppu} (h : p.w = false) (c d : Byte) :
    ({ p.writeScroll c with ioLatch := d } : Ppu).writeScroll d =
      { p with
        t := scrollAddress (d.extractLsb' 0 3) (tables p.t) (d.extractLsb' 3 5) (c.extractLsb' 3 5)
        x := c.extractLsb' 0 3
        w := false
        ioLatch := d } := by
  have hfirst : p.writeScroll c =
      { p with t := (p.t &&& 0x7FE0) ||| (c >>> 3).setWidth 15, x := c.extractLsb' 0 3, w := true } :=
    if_neg (ne_true_of_eq_false h)
  rw [hfirst, writeScroll, if_pos rfl, ← scrollWrites_eq]

theorem Ppu.writeAddr_twice {p : Ppu} (h : p.w = false) (c d : Byte) :
    ({ p.writeAddr c with ioLatch := d } : Ppu).writeAddr d =
      { p with
        t := (c &&& 0x3F).setWidth 15 <<< 8 ||| d.setWidth 15
        v := (c &&& 0x3F).setWidth 15 <<< 8 ||| d.setWidth 15
        w := false
        ioLatch := d } := by
  have hfirst : p.writeAddr c =
      { p with t := (p.t &&& 0x00FF) ||| ((c &&& 0x3F).setWidth 15 <<< 8), w := true } :=
    if_neg (ne_true_of_eq_false h)
  rw [hfirst, writeAddr, if_pos rfl, ← addressWrites_eq p.t]
  rfl

theorem busWrite_twice (s : State) {a b : Word} {r : Nat} (ha : isPpuRegister a r) (hb : isPpuRegister b r) (c d : Byte) :
    busWrite (busWrite s a c) b d = ppuRegWrite (ppuRegWrite s r c) r d := by
  rw [busWrite_ppuRegister s ha, busWrite_ppuRegister _ hb]

/-- Settles O40: the first write sets `w` and the second finds it set. -/
theorem twoWriteRegisters : Obligations.TwoWriteRegisters := by
  intro s a b c d hw
  refine ⟨fun ha hb => ?scroll, fun ha hb => ?address⟩
  case scroll =>
    have ht := (congrArg State.ppu (busWrite_twice s ha hb c d)).trans
      (Ppu.writeScroll_twice (p := { s.ppu with ioLatch := c }) hw c d)
    intro t
    rw [ht]
    refine ⟨rfl, rfl, by rw [BitVec.extractLsb'_toNat, Nat.shiftRight_zero], ?_⟩
    rw [scrollAddress_toNat, tables_toNat]
    simp only [BitVec.extractLsb'_toNat, Nat.shiftRight_eq_div_pow]
    omega
  case address =>
    have ht := (congrArg State.ppu (busWrite_twice s ha hb c d)).trans
      (Ppu.writeAddr_twice (p := { s.ppu with ioLatch := c }) hw c d)
    intro t
    rw [ht]
    exact ⟨rfl, rfl, rfl, addressWrites_toNat c d⟩

/-! ## PPUCTRL (62 R336, R363) -/

/-- Settles O44: the write is `writeCtrl`, its bytes taken bit by bit. -/
theorem ctrlWriteMayFireNmi : Obligations.CtrlWriteMayFireNmi := by
  intro s a d ha t fires
  have ht : t = writeCtrl (setIoLatch s d) d := busWrite_ppuRegister s ha d
  have hfires : s.ppu.ctrlFiresNmi d = true ↔ fires := by
    simp [Ppu.ctrlFiresNmi, fires, and_assoc]
  rw [ht]
  refine ⟨rfl, fun j hj => ?tables, ?request, ?sent, rfl⟩
  case tables => interval_cases j <;> simp [writeCtrl, setIoLatch, bitOf]
  case request =>
    show (s.cpu.latch.nmi || s.ppu.ctrlFiresNmi d) = true ↔ _
    rw [Bool.or_eq_true, hfires]
  case sent =>
    show (s.ppu.nmiSent || s.ppu.ctrlFiresNmi d) = true ↔ _
    rw [Bool.or_eq_true, hfires]

/-! ## The scroll increments (62 R355, R356) -/

theorem flipHorizontal_eq (v : BitVec 15) :
    (v &&& 0x7FE0) ^^^ 0x0400 = scrollAddress (fineY v) (tables v ^^^ 1) (coarseY v) 0 := by
  refine eq_scrollAddress fun j hj => ?_
  interval_cases j <;> simp [fineY, tables, coarseY]

theorem flipVertical_eq (v : BitVec 15) :
    (v &&& 0x0FFF &&& 0x7C1F) ^^^ 0x0800 = scrollAddress 0 (tables v ^^^ 2) 0 (coarseX v) := by
  refine eq_scrollAddress fun j hj => ?_
  interval_cases j <;> simp [tables, coarseX]

theorem clearY_eq (v : BitVec 15) : v &&& 0x0FFF &&& 0x7C1F = scrollAddress 0 (tables v) 0 (coarseX v) := by
  refine eq_scrollAddress fun j hj => ?_
  interval_cases j <;> simp [tables, coarseX]

theorem and_fineY_toNat (v : BitVec 15) : (v &&& 0x7000).toNat = 4096 * (v.toNat / 4096) := by
  have hfield : v &&& 0x7000 = scrollAddress (fineY v) 0 0 0 := by
    refine eq_scrollAddress fun j hj => ?_
    interval_cases j <;> simp [fineY]
  rw [hfield, scrollAddress_toNat, fineY_toNat]
  rfl

theorem and_coarseY_toNat (v : BitVec 15) : (v &&& 0x0FFF &&& 0x03E0).toNat = 32 * (v.toNat / 32 % 32) := by
  have hfield : v &&& 0x0FFF &&& 0x03E0 = scrollAddress 0 0 (coarseY v) 0 := by
    refine eq_scrollAddress fun j hj => ?_
    interval_cases j <;> simp [coarseY]
  rw [hfield, scrollAddress_toNat, coarseY_toNat]
  show 4096 * 0 + 1024 * 0 + 32 * (v.toNat / 32 % 32) + 0 = _
  omega

theorem and_coarseX_toNat (v : BitVec 15) : (v &&& 0x001F).toNat = v.toNat % 32 := by
  rw [BitVec.toNat_and]
  exact Nat.and_two_pow_sub_one_eq_mod v.toNat 5

theorem and_0FFF_toNat (v : BitVec 15) : (v &&& 0x0FFF).toNat = v.toNat % 4096 := by
  rw [BitVec.toNat_and]
  exact Nat.and_two_pow_sub_one_eq_mod v.toNat 12

/-- The other nametable to the side, and below or above. -/
theorem tables_xor_toNat (t : BitVec 2) :
    (t ^^^ 1).toNat = (if t.toNat % 2 = 1 then t.toNat - 1 else t.toNat + 1) ∧
    (t ^^^ 2).toNat = (if 2 ≤ t.toNat then t.toNat - 2 else t.toNat + 2) := by
  revert t
  decide

theorem incCoarseX_toNat (v : BitVec 15) :
    (incCoarseX v).toNat =
      if v.toNat % 32 = 31 then
        (scrollAddress (fineY v) (tables v ^^^ 1) (coarseY v) 0).toNat
      else v.toNat + 1 := by
  have hv := v.isLt
  have hlast : v &&& 0x001F = 0x001F ↔ v.toNat % 32 = 31 := by
    rw [← BitVec.toNat_inj, and_coarseX_toNat]
    rfl
  simp only [incCoarseX, hlast]
  split
  · rw [flipHorizontal_eq]
  · rw [BitVec.toNat_add, Nat.mod_eq_of_lt]
    · rfl
    · show v.toNat + 1 < 2 ^ 15
      omega

theorem incY_toNat (v : BitVec 15) :
    (incY v).toNat =
      if v.toNat / 4096 < 7 then v.toNat + 4096
      else if v.toNat / 32 % 32 = 29 then (scrollAddress 0 (tables v ^^^ 2) 0 (coarseX v)).toNat
      else if v.toNat / 32 % 32 = 31 then (scrollAddress 0 (tables v) 0 (coarseX v)).toNat
      else v.toNat % 4096 + 32 := by
  have hv := v.isLt
  have hfine : v &&& 0x7000 ≠ 0x7000 ↔ v.toNat / 4096 < 7 := by
    rw [ne_eq, ← BitVec.toNat_inj, and_fineY_toNat]
    show ¬ 4096 * (v.toNat / 4096) = 0x7000 ↔ _
    omega
  have hwrap : v &&& 0x0FFF &&& 0x03E0 = 0x03A0 ↔ v.toNat / 32 % 32 = 29 := by
    rw [← BitVec.toNat_inj, and_coarseY_toNat]
    show 32 * (v.toNat / 32 % 32) = 0x03A0 ↔ _
    omega
  have hlast : v &&& 0x0FFF &&& 0x03E0 = 0x03E0 ↔ v.toNat / 32 % 32 = 31 := by
    rw [← BitVec.toNat_inj, and_coarseY_toNat]
    show 32 * (v.toNat / 32 % 32) = 0x03E0 ↔ _
    omega
  simp only [incY, hfine, hwrap, hlast]
  split
  · rw [BitVec.toNat_add]
    show (v.toNat + 4096) % 2 ^ 15 = _
    omega
  split
  · rw [flipVertical_eq]
  split
  · rw [clearY_eq]
  · rw [BitVec.toNat_add, and_0FFF_toNat]
    show (v.toNat % 4096 + 32) % 2 ^ 15 = _
    omega

/-- Settles O46: where the carry ends a field it is the flipped or cleared address, elsewhere an addition. -/
theorem scrollIncrements : Obligations.ScrollIncrements := by
  intro v fY cY cX tabs pack
  have hv := v.isLt
  obtain ⟨hright, hbelow⟩ := tables_xor_toNat (tables v)
  have hzero : (0 : BitVec 5).toNat = 0 ∧ (0 : BitVec 3).toNat = 0 := ⟨rfl, rfl⟩
  rw [incCoarseX_toNat, incY_toNat]
  simp only [scrollAddress_toNat, hright, hbelow, hzero, fineY_toNat, tables_toNat, coarseY_toNat, coarseX_toNat,
    fY, cY, cX, tabs, pack]
  constructor
  · split
    · rfl
    · omega
  · split
    · omega
    split
    · rfl
    split
    · rfl
    · omega

end Sys2Proof.Machine
end

section
/-! The picture unit's address space and PPUDATA (62 R343 to R347). -/

namespace Sys2Proof.Machine

/-! ## Index formulas (62 R346, R347) -/

theorem and_1F (n : Nat) : n &&& 0x1F = n % 32 := Nat.and_two_pow_sub_one_eq_mod n 5

/-- Each of the four background entries of the sprite palettes is the entry 16 below it. -/
theorem palIndex_eq {i : Nat} (h : i < 32) : palIndex i = if 0x10 ≤ i ∧ i % 4 = 0 then i - 0x10 else i := by
  have hall : ∀ i : Fin 32, palIndex i = if 0x10 ≤ i.val ∧ i.val % 4 = 0 then i.val - 0x10 else i.val := by decide
  exact hall ⟨i, h⟩

theorem ppuRead_palette (s : State) {a : Nat} (h : 0x3F00 ≤ a) :
    ppuRead s a = s.ppu.pal.read (palIndex (a % 32)) := by
  rw [ppuRead, if_neg (by omega), if_neg (by omega), and_1F]

theorem ppuRead_nametable (s : State) {a : Nat} (h : 0x2000 ≤ a) (h' : a < 0x3F00) :
    ppuRead s a = s.ppu.vram.read (ntIndex s.ppu.mirroring a) := by
  rw [ppuRead, if_neg (by omega), if_pos h']

theorem ppuRead_pattern (s : State) {a : Nat} (h : a < 0x2000) : ppuRead s a = readChr s a := if_pos h

/-- Settles O42: `palIndex_eq`, through the palette's 32-byte mirrors. -/
theorem paletteMirrors : Obligations.PaletteMirrors := by
  intro s i hlow hhigh hmod
  have hmirror : palIndex i = i - 0x10 := by rw [palIndex_eq hhigh, if_pos ⟨hlow, hmod⟩]
  have hbase : palIndex (i - 0x10) = i - 0x10 := by rw [palIndex_eq (by omega), if_neg (by omega)]
  refine ⟨hmirror, ?_, fun j hj hnot => by rw [palIndex_eq hj, if_neg hnot]⟩
  have hread : (0x3F00 + i) % 32 = i ∧ (0x3F00 + i - 0x10) % 32 = i - 0x10 := by omega
  rw [ppuRead_palette s (by omega), ppuRead_palette s (by omega), hread.1, hread.2, hmirror, hbase]

/-! ## A store, read at every address (62 R345) -/

theorem MemInv.chrRamWf {s : State} (hi : MemInv s) : s.chrRam.wf = true := (Bool.and_eq_true_iff.mp hi.chrRam).1
theorem MemInv.vramWf {s : State} (hi : MemInv s) : s.ppu.vram.wf = true := (Bool.and_eq_true_iff.mp hi.vram).1
theorem MemInv.palWf {s : State} (hi : MemInv s) : s.ppu.pal.wf = true := (Bool.and_eq_true_iff.mp hi.pal).1

/-- CHR RAM reads back at every address that shows the stored byte's place; CHR ROM ignores the store (64 R454). -/
theorem readChr_writeChr {s : State} (hi : MemInv s) (a b : Nat) (d : Byte) :
    readChr (writeChr s a d) b =
      if usesChrRam s.cart s.mapper = true ∧ chrIndex s.cart s.mapper b = chrIndex s.cart s.mapper a then d
      else readChr s b := by
  unfold writeChr
  split
  next hram =>
    simp only [readChr, hram, if_true, true_and]
    exact read_write (low := 0) hi.chrRamWf _ _ d
  next hrom => rw [if_neg (fun h => hrom h.1)]

theorem ppuRead_ppuWrite {s : State} (hi : MemInv s) (a b : Nat) (d : Byte) :
    ppuRead (ppuWrite s a d) b =
      if a < 0x2000 then
        (if usesChrRam s.cart s.mapper = true ∧ b < 0x2000 ∧
            chrIndex s.cart s.mapper b = chrIndex s.cart s.mapper a then d else ppuRead s b)
      else if a < 0x3F00 then
        (if 0x2000 ≤ b ∧ b < 0x3F00 ∧ ntIndex s.ppu.mirroring b = ntIndex s.ppu.mirroring a then d
          else ppuRead s b)
      else
        (if 0x3F00 ≤ b ∧ palIndex (b % 32) = palIndex (a % 32) then d &&& 0x3F else ppuRead s b) := by
  unfold ppuWrite
  split
  next ha =>
    by_cases hb : b < 0x2000
    · rw [ppuRead_pattern _ hb, readChr_writeChr hi, ppuRead_pattern s hb]
      simp only [hb, true_and]
    · rw [if_neg (fun h => hb h.2.1)]
      unfold writeChr
      split
      · unfold ppuRead
        rw [if_neg hb, if_neg hb]
      · rfl
  split
  next ha ha' =>
    by_cases hb : 0x2000 ≤ b ∧ b < 0x3F00
    · rw [ppuRead_nametable _ hb.1 hb.2, ppuRead_nametable s hb.1 hb.2]
      simp only [hb, true_and]
      exact read_write (low := 0) hi.vramWf _ _ d
    · rw [if_neg (fun h => hb ⟨h.1, h.2.1⟩)]
      unfold ppuRead
      split
      · rfl
      · rw [if_neg (by omega), if_neg (by omega)]
  next ha ha' =>
    by_cases hb : 0x3F00 ≤ b
    · rw [ppuRead_palette _ hb, ppuRead_palette s hb, and_1F]
      simp only [hb, true_and]
      exact read_write (low := 0) hi.palWf _ _ _
    · rw [if_neg (fun h => hb h.1)]
      unfold ppuRead
      split
      · rfl
      · rw [if_pos (by omega), if_pos (by omega)]

/-! ## PPUDATA (62 R343, R344) -/

theorem ntIndex_table {b : Nat} :
    ntIndex .horizontal b = 1024 * (b / 2048 % 2) + b % 1024 ∧
    ntIndex .vertical b = 1024 * (b / 1024 % 2) + b % 1024 ∧
    ntIndex .singleLower b = b % 1024 ∧ ntIndex .singleUpper b = 1024 + b % 1024 := by
  unfold ntIndex
  dsimp only
  refine ⟨?_, ?_, ?_, ?_⟩ <;> omega

/-- A store moves neither `v` nor the step that PPUCTRL selects. -/
theorem ppuWrite_stepAddress (s : State) (a : Nat) (d : Byte) :
    (ppuWrite s a d).ppu.stepAddress = s.ppu.stepAddress := by
  unfold ppuWrite writeChr
  split
  · split <;> rfl
  · split <;> rfl

/-- Settles O41: the write is one `ppuWrite`, whose byte `ppuRead_ppuWrite` finds again; the read is `readPpuData`. -/
theorem dataPortAccesses : Obligations.DataPortAccesses := by
  intro s d hi a t r v
  refine ⟨?step, fun b _ => ?stored, fun b h h' => ⟨ppuRead_nametable s h h', ntIndex_table⟩, rfl, ?read⟩
  case step => exact ppuWrite_stepAddress (setIoLatch s d) a d
  case stored => exact ppuRead_ppuWrite (s := setIoLatch s d) (hi.congr rfl) a b d
  case read =>
    have hbuffer : ppuRead s (if a < 0x3F00 then a else a - 0x1000) =
        if a < 0x3F00 then ppuRead s a else ppuRead s (a - 0x1000) := apply_ite _ _ _ _
    rw [hbuffer]
    rfl

end Sys2Proof.Machine
end

section
/-! The dot state machine (62 R331 to R333, R352, R359, R361, R362): the position, the dot that begins vblank, and the
sprite evaluation. -/

namespace Sys2Proof.Machine

/-! ## The position (62 R332, R352) -/

/-- What the position's advance reads. -/
structure DotPosition where
  scanline : Nat
  dot : Nat
  frame : BitVec 32
  mask : Byte

def Ppu.position (p : Ppu) : DotPosition where
  scanline := p.scanline
  dot := p.dot
  frame := p.frame
  mask := p.mask

theorem backgroundDot_position (s : State) : (backgroundDot s).position = s.ppu.position := by
  unfold backgroundDot
  dsimp only
  split <;> rfl

theorem evaluateSprites_position (p : Ppu) : p.evaluateSprites.position = p.position := by
  unfold Ppu.evaluateSprites
  split <;> rfl

theorem vblankSet_position (s : State) : (vblankSet s).ppu.position = s.ppu.position := by
  unfold vblankSet
  dsimp only
  split <;> rfl

/-- No work of a dot moves the position. -/
theorem position_keptByDot (x : DotPosition) : KeptByDot fun s => s.ppu.position = x where
  clear h := h
  vblank h := (vblankSet_position _).trans h
  pixel _ _ h := h
  background h := (backgroundDot_position _).trans h
  address _ h := h
  sprites h := (evaluateSprites_position _).trans h
  hook h := h

theorem ppuDot_position (s : State) : (ppuDot s).ppu.position = s.ppu.position :=
  (position_keptByDot s.ppu.position).ppuDot rfl

/-- The position after a dot: the last dot of the frame, which an odd frame with rendering enabled takes one dot
early, the last dot of another line, and any other dot (62 R332, R352). -/
def DotPosition.next (x : DotPosition) : DotPosition :=
  if (x.scanline = 261 ∧ x.dot = 340) ∨
      ((x.scanline = 261 ∧ x.dot = 339) ∧ bitOf x.frame 0 = true ∧ (bitOf x.mask 3 = true ∨ bitOf x.mask 4 = true)) then
    { x with scanline := 0, dot := 0, frame := x.frame + 1 }
  else if x.dot = 340 then { x with scanline := x.scanline + 1, dot := 0 }
  else { x with dot := x.dot + 1 }

theorem advance_position (p : Ppu) : p.advance.position = p.position.next := by
  unfold Ppu.advance
  simp only [rendering_iff]
  split
  next hskip =>
    obtain ⟨hline, hdot, hodd⟩ := hskip
    exact (if_pos (.inr ⟨⟨hline, hdot⟩, hodd⟩)).symm
  next hskip =>
    have hskip' : ¬ ((p.scanline = 261 ∧ p.dot = 339) ∧ bitOf p.frame 0 = true ∧
        (bitOf p.mask 3 = true ∨ bitOf p.mask 4 = true)) := fun ⟨⟨hline, hdot⟩, hodd⟩ => hskip ⟨hline, hdot, hodd⟩
    split
    next hdot =>
      split
      next hline => exact (if_pos (.inl ⟨hline, hdot⟩)).symm
      next hline => exact ((if_neg (not_or.2 ⟨fun h => hline h.1, hskip'⟩)).trans (if_pos hdot)).symm
    next hdot => exact ((if_neg (not_or.2 ⟨fun h => hdot h.2, hskip'⟩)).trans (if_neg hdot)).symm

theorem ppuStep_position (s : State) : (ppuStep s).ppu.position = s.ppu.position.next :=
  (advance_position _).trans (congrArg DotPosition.next (ppuDot_position s))

theorem atDot_of_position {s : State} {x : DotPosition} (h : s.ppu.position = x) :
    atDot s x.scanline x.dot ∧ s.ppu.frame = x.frame :=
  ⟨⟨congrArg DotPosition.scanline h, congrArg DotPosition.dot h⟩, congrArg DotPosition.frame h⟩

/-- Settles O45: the branches of `DotPosition.next`. -/
theorem positionAdvances : Obligations.PositionAdvances := by
  intro s _ t rendering
  have hnext : t.ppu.position = s.ppu.position.next := ppuStep_position s
  refine ⟨fun hdot hskip => ?dot, fun hdot hline => ?line, fun hlast => ?last⟩
  case dot =>
    have hlast : ¬ (atDot s 261 340 ∨ (atDot s 261 339 ∧ bitOf s.ppu.frame 0 = true ∧ rendering)) :=
      not_or.2 ⟨fun h => absurd h.2 (by omega), hskip⟩
    exact atDot_of_position (hnext.trans ((if_neg hlast).trans (if_neg (by show s.ppu.dot ≠ 340; omega))))
  case line =>
    have hlast : ¬ (atDot s 261 340 ∨ (atDot s 261 339 ∧ bitOf s.ppu.frame 0 = true ∧ rendering)) :=
      not_or.2 ⟨fun h => absurd h.1 (by omega), fun h => absurd h.1.1 (by omega)⟩
    exact atDot_of_position (hnext.trans ((if_neg hlast).trans (if_pos hdot)))
  case last => exact atDot_of_position (hnext.trans (if_pos hlast))

/-! ## The dot (241, 1) (61 R322, 62 R361, R362) -/

/-- The dot that begins vblank does nothing else. -/
theorem ppuDot_vblank {s : State} (h : atDot s 241 1) : ppuDot s = vblankSet s := by
  obtain ⟨hline, hdot⟩ := h
  unfold ppuDot
  simp [hline, hdot]

theorem ppuStep_vblank {s : State} (h : atDot s 241 1) :
    ppuStep s = { vblankSet s with ppu := { (vblankSet s).ppu with dot := 2 } } := by
  have hposition := vblankSet_position s
  simp only [Ppu.position, DotPosition.mk.injEq, h.1, h.2] at hposition
  obtain ⟨hline, hdot, -⟩ := hposition
  rw [ppuStep, ppuDot_vblank h, Ppu.advance, if_neg (by omega), if_neg (by omega), hdot]

/-- Settles O43: the dot is `vblankSet`, in its two cases. -/
theorem vblankStart : Obligations.VblankStart := by
  intro s h t
  have ht : t = { vblankSet s with ppu := { (vblankSet s).ppu with dot := 2 } } := ppuStep_vblank h
  have hline : s.ppu.scanline = 241 := h.1
  rw [ht]
  cases hsuppress : s.ppu.suppressVbl with
  | true =>
    have hvblank : vblankSet s = { s with ppu := { s.ppu.publishFrame with suppressVbl := false } } := if_pos hsuppress
    rw [hvblank]
    exact ⟨rfl, ⟨hline, rfl⟩, rfl, fun h => absurd h.symm Bool.false_ne_true, fun _ => ⟨rfl, rfl, rfl⟩, rfl⟩
  | false =>
    have hvblank : vblankSet s =
        { s with
          ppu := { s.ppu.publishFrame with
            status := s.ppu.status ||| 0x80, nmiSent := s.ppu.nmiSent || bitOf s.ppu.ctrl 7 }
          cpu := { s.cpu with latch := { s.cpu.latch with nmi := s.cpu.latch.nmi || bitOf s.ppu.ctrl 7 } } } :=
      if_neg (ne_true_of_eq_false hsuppress)
    rw [hvblank]
    exact ⟨rfl, ⟨hline, rfl⟩, hsuppress, fun _ => ⟨by simp [bitOf], rfl, rfl⟩,
      fun h => absurd h Bool.false_ne_true, rfl⟩

/-! ## Sprite evaluation (62 R359) -/

/-- The sprites that the first `count` entries of a list name. -/
def listedSprites (list : Vector (BitVec 6) 8) (count : Nat) : List Nat := (list.toList.take count).map BitVec.toNat

theorem listedSprites_set8 (list : Vector (BitVec 6) 8) {count i : Nat} (hcount : count < 8) (hi : i < 64) :
    listedSprites (set8 list (BitVec.ofNat 3 count) (BitVec.ofNat 6 i)) (count + 1) =
      listedSprites list count ++ [i] := by
  have hindex : (BitVec.ofNat 3 count).toNat = count := by simp; omega
  have hsprite : (BitVec.ofNat 6 i).toNat = i := by simp; omega
  have hlength : count < (list.toList.set count (BitVec.ofNat 6 i)).length := by simpa using hcount
  simp only [listedSprites, set8, Vector.toList_set, hindex]
  rw [List.take_add_one, List.take_set, List.set_eq_of_length_le (by simp), List.getElem?_eq_getElem hlength,
    List.getElem_set_self]
  simp only [Option.toList_some, List.map_append, List.map_cons, List.map_nil, hsprite]

/-- 62 R359: the scan goes on from `count` sprites listed, adds those in range up to the eighth, and reports
whether there was a ninth. -/
theorem scanSprites_eq (oam : Memory) (line h : Nat) (is : List Nat) (list : Vector (BitVec 6) 8) {count : Nat}
    (hcount : count ≤ 8) (his : ∀ i ∈ is, i < 64) :
    let hits := is.filter (inSpriteRange oam line h)
    let r := scanSprites oam line h is list count
    listedSprites r.1 r.2.1 = listedSprites list count ++ hits.take (8 - count) ∧
    r.2.2 = decide (9 ≤ count + hits.length) := by
  induction is generalizing list count with
  | nil => simp [scanSprites]; omega
  | cons i is ih =>
    obtain ⟨hi, his⟩ := List.forall_mem_cons.mp his
    unfold scanSprites
    by_cases hrange : (oam.read (4 * i)).toNat ≤ line ∧ line < (oam.read (4 * i)).toNat + h
    · have hhit : inSpriteRange oam line h i = true := by simpa [inSpriteRange] using hrange
      rw [List.filter_cons_of_pos hhit]
      by_cases hlt : count < 8
      · obtain ⟨hlist, hninth⟩ := ih (set8 list (BitVec.ofNat 3 count) (BitVec.ofNat 6 i)) hlt his
        have hleft : 8 - count = 8 - (count + 1) + 1 := by omega
        dsimp only
        rw [if_pos hrange, if_pos hlt, hlist, hninth, listedSprites_set8 list hlt hi, hleft, List.take_succ_cons,
          List.append_assoc, List.singleton_append, List.length_cons]
        exact ⟨rfl, by rw [Nat.succ_add_eq_add_succ]⟩
      · dsimp only
        rw [if_pos hrange, if_neg hlt, Nat.sub_eq_zero_of_le (Nat.le_of_not_lt hlt)]
        exact ⟨by simp, by simp; omega⟩
    · have hmiss : ¬ inSpriteRange oam line h i = true := by simpa [inSpriteRange] using hrange
      rw [List.filter_cons_of_neg hmiss]
      dsimp only
      rw [if_neg hrange]
      exact ih list hcount his

/-- Settles O47: the scan of all 64 sprites from an empty list. -/
theorem spriteEvaluation : Obligations.SpriteEvaluation := by
  intro p hline hrendering hits q
  have hscan := scanSprites_eq p.oam p.scanline p.spriteHeight (List.range 64) p.spriteList (Nat.zero_le 8)
    (fun i hi => List.mem_range.mp hi)
  have hcount := scanSprites_count_le p.oam p.scanline p.spriteHeight (List.range 64) (list := p.spriteList)
    (Nat.zero_le 8)
  obtain ⟨hlist, hninth⟩ := hscan
  have hq : q = _ := if_neg (by simp [hline, hrendering])
  rw [hq]
  refine ⟨?_, fun j hj => ?_, rfl⟩
  · simp only [Ppu.sprites]
    rw [BitVec.toNat_ofNat, Nat.mod_eq_of_lt (by omega)]
    exact hlist.trans (List.nil_append _)
  · dsimp only
    rw [hninth, Nat.zero_add]
    by_cases hnine : 9 ≤ ((List.range 64).filter (inSpriteRange p.oam p.scanline p.spriteHeight)).length
    · rw [if_pos (decide_eq_true hnine), decide_eq_true hnine, Bool.and_true]
      interval_cases j <;> simp [bitOf]
    · rw [if_neg (by simpa using hnine), decide_eq_false hnine, Bool.and_false, Bool.or_false]

end Sys2Proof.Machine
end

section
/-! The audio unit's ports, frame sequencer and sample fetch (63 R399 to R401, R418 to R420, R425, R427, R428). -/

namespace Sys2Proof.Machine

/-! ## The frame sequencer's registers -/

/-- The frame sequencer's registers and the two interrupt flags. -/
structure SequencerRegs where
  mode : Bool
  inhibit : Bool
  count : BitVec 13
  step : BitVec 3
  frameIrq : Bool
  dmcIrq : Bool

def Apu.sequencer (a : Apu) : SequencerRegs where
  mode := a.fsMode
  inhibit := a.fsInhibit
  count := a.fsCount
  step := a.fsStep
  frameIrq := a.frameIrq
  dmcIrq := a.dmcIrq

@[simp] theorem quarterFrame_sequencer (a : Apu) : a.quarterFrame.sequencer = a.sequencer := rfl

@[simp] theorem halfFrame_sequencer (a : Apu) : a.halfFrame.sequencer = a.sequencer := rfl

/-- 63 R419, R420: of the sequencer, a step changes the frame flag alone. -/
theorem doStep_sequencer (a : Apu) (step : Nat) :
    (a.doStep step).sequencer =
      { a.sequencer with frameIrq := a.frameIrq || (!a.fsMode && (step == 3 && !a.fsInhibit)) } := by
  unfold Apu.doStep
  cases hmode : a.fsMode with
  | true =>
    simp only [if_true, apply_ite Apu.sequencer, halfFrame_sequencer, quarterFrame_sequencer, ite_self,
      Bool.not_true, Bool.false_and, Bool.or_false]
    rfl
  | false =>
    rw [if_neg Bool.false_ne_true]
    extract_lets quartered halved
    have hhalved : halved.sequencer = a.sequencer := by
      simp only [halved, quartered, apply_ite Apu.sequencer, halfFrame_sequencer, quarterFrame_sequencer, ite_self]
    simp only [Apu.sequencer, SequencerRegs.mk.injEq] at hhalved
    obtain ⟨hmode', hinhibit, hcount, hstep, hframe, hdmc⟩ := hhalved
    simp only [Apu.sequencer, hmode', hinhibit, hcount, hstep, hframe, hdmc, Bool.not_false, Bool.true_and]
    rfl

/-- Settles O49: when the step is due, `doStep_sequencer`. -/
theorem frameFlagRule : Obligations.FrameFlagRule := by
  intro a period b due
  by_cases hdue : due
  · have hb : b = { a.doStep a.fsStep.toNat with
        fsCount := 0, fsStep := BitVec.ofNat 3 ((a.fsStep.toNat + 1) % (if a.fsMode then 5 else 4)) } := if_pos hdue
    have hregs := doStep_sequencer a a.fsStep.toNat
    simp only [Apu.sequencer, SequencerRegs.mk.injEq] at hregs
    obtain ⟨hmode, hinhibit, -, -, hframe, hdmc⟩ := hregs
    rw [hb]
    refine ⟨?_, fun _ => ⟨rfl, nextStep_toNat _ _⟩, fun h => absurd hdue h, hmode, hinhibit, hdmc⟩
    have hthree : a.fsStep.toNat = 3 ↔ a.fsStep = 3 := BitVec.toNat_inj (y := 3)
    dsimp only
    rw [hframe]
    simp [hdue, hthree, and_comm (a := a.fsStep = 3#3)]
  · have hb : b = { a with fsCount := a.fsCount + 1 } := if_neg hdue
    rw [hb]
    exact ⟨by simp [hdue], fun h => absurd h hdue, fun _ => rfl, rfl, rfl, rfl⟩

/-! ## The ports -/

theorem statusByte_bits (a : Apu) {j : Nat} (hj : j < 8) :
    bitOf a.statusByte j =
      if j = 0 then decide (a.pulse1.length ≠ 0)
      else if j = 1 then decide (a.pulse2.length ≠ 0)
      else if j = 2 then decide (a.triangle.length ≠ 0)
      else if j = 3 then decide (a.noise.length ≠ 0)
      else if j = 4 then decide (a.dmc.bytesLeft ≠ 0)
      else if j = 6 then a.frameIrq
      else if j = 7 then a.dmcIrq
      else false := by
  have hbit (b : Bool) (i : Nat) : (boolByte b).getLsbD i = (b && decide (i = 0)) := by
    cases b <;> simp [boolByte]
  simp only [bitOf, Apu.statusByte, BitVec.getLsbD_or, BitVec.getLsbD_shiftLeft, hbit]
  interval_cases j <;> simp [bne, beq_eq_decide]

theorem writeSequencer_sequencer (a : Apu) (d : Byte) :
    (a.writeSequencer d).sequencer =
      { mode := bitOf d 7, inhibit := bitOf d 6, count := 0, step := 0
        frameIrq := a.frameIrq && !bitOf d 6, dmcIrq := a.dmcIrq } := by
  unfold Apu.writeSequencer
  extract_lets restarted
  rw [apply_ite Apu.sequencer, halfFrame_sequencer, quarterFrame_sequencer, ite_self]
  simp only [restarted, Apu.sequencer]
  cases bitOf d 6 <;> simp

theorem busRead_apuStatus (s : State) : busRead s 0x4015 = apuStatusRead s := by
  have haddr : (0x4015 : Word).toNat = 0x4015 := by decide
  unfold busRead
  dsimp only
  rw [haddr, if_neg (by omega), if_neg (by omega), if_pos rfl]

theorem busWrite_apuControl (s : State) {a : Word} (v : Byte) (h : a.toNat = 0x4015 ∨ a.toNat = 0x4017) :
    busWrite s a v = { s with apu := s.apu.writeReg (a.toNat - 0x4000) v } := by
  unfold busWrite
  dsimp only
  rw [if_neg (by omega), if_neg (by omega), if_neg (by omega), if_neg (by omega), if_pos (by omega)]

theorem busWrite_enables (s : State) (d : Byte) :
    busWrite s 0x4015 d = { s with apu := s.apu.writeEnables d } := by
  have hoffset : (0x4015 : Word).toNat - 0x4000 = 0x15 := by decide
  rw [busWrite_apuControl s d (.inl (by decide)), hoffset]
  rfl

theorem busWrite_sequencer (s : State) (d : Byte) :
    busWrite s 0x4017 d = { s with apu := s.apu.writeSequencer d } := by
  have hoffset : (0x4017 : Word).toNat - 0x4000 = 0x17 := by decide
  rw [busWrite_apuControl s d (.inr (by decide)), hoffset]
  rfl

theorem dmcEnable_bytesLeft (c : Dmc) (on : Bool) :
    (c.enable on).bytesLeft =
      if on = false then 0 else if c.bytesLeft = 0 then c.sampleLen else c.bytesLeft := by
  cases on <;> simp [Dmc.enable, apply_ite Dmc.bytesLeft]

theorem sameMemory_withApu (s : State) (a : Apu) : SameMemory s { s with apu := a } :=
  sameMemory_of_eq rfl rfl rfl rfl rfl rfl rfl rfl

/-- Settles O48, port by port. -/
theorem audioControlPort : Obligations.AudioControlPort := by
  intro s d
  have hregs := writeSequencer_sequencer s.apu d
  simp only [Apu.sequencer, SequencerRegs.mk.injEq] at hregs
  rw [busRead_apuStatus, busWrite_enables, busWrite_sequencer]
  refine ⟨⟨fun j hj => statusByte_bits s.apu hj, rfl⟩, ?enables, hregs, sameMemory_withApu s _,
    sameMemory_withApu s _⟩
  exact ⟨rfl, rfl, rfl, rfl, rfl, rfl, rfl, rfl, dmcEnable_bytesLeft s.apu.dmc (bitOf d 4), rfl, rfl⟩

/-! ## The sample fetch -/

theorem nextSampleAddr_eq (a : Word) : nextSampleAddr a = if a.toNat = 0xFFFF then 0x8000 else a + 1 :=
  if_congr (BitVec.toNat_inj (y := 0xFFFF)).symm rfl rfl

theorem bytesLeft_last (n : BitVec 12) : n - 1 = 0 ↔ n = 1 := by bv_omega

/-- 63 R427, R428: the delta channel after the fetch of a byte. -/
theorem dmcFetched_cases (c : Dmc) (b : Byte) :
    (¬ (c.bytesLeft = 1 ∧ c.loop = true) →
      c.fetched b = { c with shift := b, curAddr := nextSampleAddr c.curAddr, bytesLeft := c.bytesLeft - 1 }) ∧
    (c.bytesLeft = 1 → c.loop = true →
      c.fetched b = { c with shift := b, curAddr := c.sampleAddr, bytesLeft := c.sampleLen }) := by
  simp only [Dmc.fetched, ← bytesLeft_last]
  exact ⟨fun h => if_neg fun hboth => h (by simpa using hboth),
    fun hlast hloop => if_pos (by rw [decide_eq_true hlast, hloop]; rfl)⟩

theorem dmcFetched_shift (c : Dmc) (b : Byte) : (c.fetched b).shift = b := by
  simp only [Dmc.fetched, apply_ite Dmc.shift, ite_self]

theorem endsWithIrq_iff (c : Dmc) :
    c.endsWithIrq = true ↔ c.bytesLeft = 1 ∧ c.loop = false ∧ c.irqEnable = true := by
  simp only [Dmc.endsWithIrq, Bool.and_eq_true, beq_iff_eq, bytesLeft_last, Bool.not_eq_true', and_assoc]

/-- The delta channel whose shift register has just been emptied, its timer reloaded. -/
def Dmc.emptied (c : Dmc) : Dmc :=
  { c with
    timer := BitVec.ofNat 9 (dmcRate.getD c.rateIdx.toNat 0 - 1), level := c.nextLevel, shift := c.shift >>> 1
    bitsLeft := 8 }

/-- 63 R425, 61 R309: the last bit leaves the shift register with bytes left, so one is fetched. -/
theorem dmcTimer_fetch {s : State} (htimer : s.apu.dmc.timer = 0) (hbits : s.apu.dmc.bitsLeft = 1)
    (hbytes : s.apu.dmc.bytesLeft ≠ 0) (hmemory : isMemory s.apu.dmc.curAddr) :
    dmcTimer s =
      { s with
        apu := { s.apu with
          dmc := { s.apu.dmc.emptied.fetched (byteAt s s.apu.dmc.curAddr) with silence := false }
          dmcIrq := s.apu.dmcIrq || s.apu.dmc.endsWithIrq } } := by
  have hempty : s.apu.dmc.bitsLeft - 1 = 0 := by rw [hbits]; rfl
  let u : State := { s with apu := { s.apu with dmc := s.apu.dmc.emptied } }
  have hread : busRead u s.apu.dmc.curAddr = (byteAt s s.apu.dmc.curAddr, u) :=
    (busRead_isMemory u hmemory).trans
      (congrArg (·, u) (byteAt_congr (s := s) (t := u) rfl rfl rfl rfl hmemory))
  have hfetch : dmcTimer s = { fetchSample u with
      apu := { (fetchSample u).apu with dmc := { (fetchSample u).apu.dmc with silence := false } } } := by
    rw [dmcTimer, if_pos htimer]
    exact (if_pos hempty).trans (if_pos hbytes)
  have hu : fetchSample u = { u with apu := { u.apu with
      dmc := u.apu.dmc.fetched (byteAt s s.apu.dmc.curAddr), dmcIrq := u.apu.dmcIrq || u.apu.dmc.endsWithIrq } } := by
    rw [fetchSample]
    exact congrArg (fun r : Byte × State => { r.2 with apu := { r.2.apu with
      dmc := r.2.apu.dmc.fetched r.1, dmcIrq := r.2.apu.dmcIrq || r.2.apu.dmc.endsWithIrq } }) hread
  rw [hfetch, hu]
  rfl

/-- Settles O50: the fetch is `dmcTimer_fetch`, its two endings `dmcFetched_cases`. -/
theorem sampleFetch : Obligations.SampleFetch := by
  intro s
  refine ⟨dmcTimer_cpu s, fun htimer hbits hbytes hmemory => ?_⟩
  intro c d last
  have htick := dmcTimer_fetch htimer hbits hbytes hmemory
  have hd : d = { s.apu.dmc.emptied.fetched (byteAt s s.apu.dmc.curAddr) with silence := false } :=
    congrArg (fun t : State => t.apu.dmc) htick
  obtain ⟨hnext, hloop⟩ := dmcFetched_cases s.apu.dmc.emptied (byteAt s s.apu.dmc.curAddr)
  rw [hd, htick]
  refine ⟨?_, dmcFetched_bitsLeft _ _, rfl, fun h => ?_, fun hlast h => ?_, ?_⟩
  · exact dmcFetched_shift _ _
  · rw [hnext h]
    exact ⟨rfl, nextSampleAddr_eq c.curAddr⟩
  · rw [hloop hlast h]
    exact ⟨rfl, rfl⟩
  · exact (Bool.or_eq_true_iff ..).trans (or_congr_right (endsWithIrq_iff c))

end Sys2Proof.Machine
end

section
/-! The mappers' registers and counters (64 R463, R464, R480, R481, R489). -/

namespace Sys2Proof.Machine

/-- A write to `$8000-$FFFF` changes the mapper by its register write (64 R460). -/
theorem busWrite_mapper_rom (s : State) {a : Word} (d : Byte) (h : 0x8000 ≤ a.toNat) :
    (busWrite s a d).mapper = mapperWrite s.mapper a d := by
  rw [busWrite_rom_window s d h]
  rfl

/-! ## The serial load of mapper 1 (64 R463) -/

/-- The serial register after bit `b` has come in at the top. -/
def serialShift (shift : BitVec 5) (b : Bool) : BitVec 5 := (shift >>> 1) ||| (if b then 0x10 else 0)

theorem mmc1Write_restart (r : Mmc1) (a : Word) {d : Byte} (h : bitOf d 7 = true) :
    mmc1Write r a d = { r with shift := 0x10, control := r.control ||| 0x0C } := if_pos h

theorem mmc1Write_collect {r : Mmc1} (a : Word) {d : Byte} (h : bitOf d 7 = false) (hshift : bitOf r.shift 0 = false) :
    mmc1Write r a d = { r with shift := serialShift r.shift (bitOf d 0) } :=
  (if_neg (ne_true_of_eq_false h)).trans (if_neg (ne_true_of_eq_false hshift))

/-- The fifth bit fills the register that address bits 14:13 select. -/
theorem mmc1Write_load {r : Mmc1} {a : Word} {d : Byte} (ha : 0x8000 ≤ a.toNat) (h : bitOf d 7 = false)
    (hshift : bitOf r.shift 0 = true) :
    mmc1Write r a d =
      if a.toNat < 0xA000 then { r with shift := 0x10, control := serialShift r.shift (bitOf d 0) }
      else if a.toNat < 0xC000 then { r with shift := 0x10, chr0 := serialShift r.shift (bitOf d 0) }
      else if a.toNat < 0xE000 then { r with shift := 0x10, chr1 := serialShift r.shift (bitOf d 0) }
      else { r with shift := 0x10, prg := serialShift r.shift (bitOf d 0) } := by
  have hselect : (a.extractLsb' 13 2).toNat = a.toNat / 8192 % 4 := by
    rw [BitVec.extractLsb'_toNat, Nat.shiftRight_eq_div_pow]
  have hlt := a.isLt
  refine (if_neg (ne_true_of_eq_false h)).trans ((if_pos hshift).trans ?_)
  by_cases hcontrol : a.toNat < 0xA000
  · have hselected : (a.extractLsb' 13 2).toNat = 0 := by omega
    rw [if_pos hcontrol, hselected]
    rfl
  by_cases hchr0 : a.toNat < 0xC000
  · have hselected : (a.extractLsb' 13 2).toNat = 1 := by omega
    rw [if_neg hcontrol, if_pos hchr0, hselected]
    rfl
  by_cases hchr1 : a.toNat < 0xE000
  · have hselected : (a.extractLsb' 13 2).toNat = 2 := by omega
    rw [if_neg hcontrol, if_neg hchr0, if_pos hchr1, hselected]
    rfl
  · have hselected : (a.extractLsb' 13 2).toNat = 3 := by omega
    rw [if_neg hcontrol, if_neg hchr0, if_neg hchr1, hselected]
    rfl

/-- Five bits from the empty register: the marker reaches bit 0 after four of them, and the fifth leaves the value. -/
theorem serialShift_five (b0 b1 b2 b3 b4 : Bool) :
    let x1 := serialShift 0x10 b0
    let x2 := serialShift x1 b1
    let x3 := serialShift x2 b2
    let x4 := serialShift x3 b3
    bitOf x1 0 = false ∧ bitOf x2 0 = false ∧ bitOf x3 0 = false ∧ bitOf x4 0 = true ∧
    serialShift x4 b4 = BitVec.ofNat 5 (b0.toNat + 2 * b1.toNat + 4 * b2.toNat + 8 * b3.toNat + 16 * b4.toNat) := by
  revert b0 b1 b2 b3 b4
  decide

theorem toNat_mod_two (d : Byte) : d.toNat % 2 = (bitOf d 0).toNat := by
  rcases Nat.mod_two_eq_zero_or_one d.toNat with h | h <;> simp [bitOf, BitVec.getLsbD, h]

/-- Settles O52: four bits are collected (`mmc1Write_collect`), the fifth loads (`mmc1Write_load`). -/
theorem mmc1SerialLoad : Obligations.Mmc1SerialLoad := by
  intro s r a0 a1 a2 a3 a4 d0 d1 d2 d3 d4 hmapper hempty ha hd value
  refine ⟨?_, fun a d r' u ha hu h => ?_⟩
  · obtain ⟨ha0, ha1, ha2, ha3, ha4⟩ := by simpa using ha
    obtain ⟨hd0, hd1, hd2, hd3, hd4⟩ := by simpa using hd
    obtain ⟨hx1, hx2, hx3, hx4, hvalue⟩ :=
      serialShift_five (bitOf d0 0) (bitOf d1 0) (bitOf d2 0) (bitOf d3 0) (bitOf d4 0)
    have hnumber : BitVec.ofNat 5 value = _ :=
      (congrArg (BitVec.ofNat 5) (by simp only [value, toNat_mod_two])).trans hvalue.symm
    have hx0 : bitOf (0x10 : BitVec 5) 0 = false := by decide
    cases r
    dsimp only at hempty
    subst hempty
    rw [hnumber]
    simp only [writeAll, busWrite_mapper_rom _ _ ha0, busWrite_mapper_rom _ _ ha1, busWrite_mapper_rom _ _ ha2,
      busWrite_mapper_rom _ _ ha3, busWrite_mapper_rom _ _ ha4, hmapper, mapperWrite]
    rw [mmc1Write_collect a0 hd0 (by exact hx0), mmc1Write_collect a1 hd1 hx1, mmc1Write_collect a2 hd2 hx2,
      mmc1Write_collect a3 hd3 hx3, mmc1Write_load ha4 hd4 hx4]
  · rw [busWrite_mapper_rom u d ha, hu]
    exact congrArg Mapper.mmc1 (mmc1Write_restart r' a h)

/-! ## The counters (64 R480, R481, R489) -/

/-- The two registers at `$E000-$FFFF`, by the address's bit 0. -/
theorem irqRegister {a : Word} (h : 0xE000 ≤ a.toNat) :
    a &&& 0xE001 = if a.toNat % 2 = 0 then 0xE000 else 0xE001 := by
  have hlt := a.isLt
  have hbit (i : Nat) : a.getLsbD i = decide (a.toNat / 2 ^ i % 2 = 1) := Nat.testBit_eq_decide_div_mod_eq
  have h13 : a.toNat / 8192 % 2 = 1 := by omega
  have h14 : a.toNat / 16384 % 2 = 1 := by omega
  have h15 : a.toNat / 32768 % 2 = 1 := by omega
  refine BitVec.eq_of_getLsbD_eq fun i hi => ?_
  split <;> interval_cases i <;> simp only [BitVec.getLsbD_and, hbit] <;> simp_all

theorem mmc3Write_irq (r : Mmc3) {a : Word} (d : Byte) (h : 0xE000 ≤ a.toNat) :
    mmc3Write r a d =
      if a.toNat % 2 = 0 then { r with irqEnable := false, irqFlag := false } else { r with irqEnable := true } := by
  rw [mmc3Write, irqRegister h]
  by_cases heven : a.toNat % 2 = 0
  · rw [if_pos heven, if_pos heven]
    rfl
  · rw [if_neg heven, if_neg heven]
    rfl

/-- 64 R481: with or without a reload, the request is gone afterwards. -/
theorem mmc3Count_eq (r : Mmc3) :
    let c := if r.irqCounter = 0 ∨ r.irqReload = true then r.irqLatch else r.irqCounter - 1
    mmc3Count r =
      { r with irqCounter := c, irqReload := false, irqFlag := r.irqFlag || (decide (c = 0) && r.irqEnable) } := by
  unfold mmc3Count
  by_cases hreload : r.irqCounter = 0 ∨ r.irqReload = true
  · have htest : (decide (r.irqCounter = 0) || r.irqReload) = true := by simpa using hreload
    simp only [if_pos htest, if_pos hreload]
    rfl
  · have htest : ¬ (decide (r.irqCounter = 0) || r.irqReload) = true := by simpa using hreload
    have hnone : r.irqReload = false := by simpa using fun h => hreload (.inr h)
    simp only [if_neg htest, if_neg hreload]
    rw [hnone]
    rfl

theorem m65Count_eq (r : Mapper65) :
    m65Count r =
      if r.irqEnable = true ∧ 0 < r.irqCounter.toNat then
        { r with irqCounter := r.irqCounter - 1, irqFlag := r.irqFlag || decide (r.irqCounter.toNat = 1) }
      else r := by
  have hpos : (r.irqEnable && r.irqCounter != 0) = true ↔ r.irqEnable = true ∧ 0 < r.irqCounter.toNat := by
    simp only [Bool.and_eq_true, bne_iff_ne]
    exact and_congr_right fun _ => by bv_omega
  have hone : (r.irqCounter == 1) = decide (r.irqCounter.toNat = 1) :=
    decide_eq_decide.mpr (BitVec.toNat_inj (y := 1)).symm
  rw [m65Count, hone]
  exact if_congr hpos rfl rfl

/-- Settles O53, hook by hook. -/
theorem mapperCounters : Obligations.MapperCounters := by
  refine ⟨fun r => ⟨⟨_, congrArg Mapper.mmc3 (mmc3Count_eq r), rfl⟩, fun s a d hmapper ha => ?_⟩,
    fun m => ⟨fun r hm => ?_, fun hm => ?_, fun hm => ?_⟩⟩
  · rw [busWrite_mapper_rom s d (by omega), hmapper]
    exact congrArg Mapper.mmc3 (mmc3Write_irq r d ha)
  · rw [hm]
    exact congrArg Mapper.m65 (m65Count_eq r)
  · cases m with
    | m65 r => exact absurd rfl (hm r)
    | mmc3 r => exact ⟨rfl, fun _ => ⟨r, rfl⟩⟩
    | _ => exact ⟨rfl, fun h => absurd h Bool.false_ne_true⟩
  · cases m with
    | mmc3 r => exact absurd rfl (hm r)
    | _ => rfl

end Sys2Proof.Machine
end

section
/-! Save and load (65 R501, R503 to R510): a field reads back what its bytes hold, a record reads back what its fields
hold, and so does the file. -/

namespace Sys2Proof.Machine

/-! ## Fields

A field is read by its index in the record, so a record's reader goes through its fields one after the other. -/

@[simp] theorem fieldBits_succ (n : Nat) (f : List Byte) (fs : List (List Byte)) (i : Nat) :
    fieldBits n (f :: fs) (i + 1) = fieldBits n fs i := rfl

@[simp] theorem fieldBits_byte (b : Byte) (fs : List (List Byte)) : fieldBits 8 ([b] :: fs) 0 = b := by
  simp [fieldBits, leNat]

@[simp] theorem fieldBits_number {n k : Nat} (v : BitVec n) (fs : List (List Byte)) (h : n ≤ 8 * k) :
    fieldBits n (leBytes k v.toNat :: fs) 0 = v := by
  have hlt : v.toNat < 256 ^ k := calc
    v.toNat < 2 ^ n := v.isLt
    _ ≤ 2 ^ (8 * k) := Nat.pow_le_pow_right (by decide) h
    _ = 256 ^ k := Nat.pow_mul 2 8 k
  simp [fieldBits, leNat_leBytes, Nat.mod_eq_of_lt hlt]

@[simp] theorem fieldFlag_succ (f : List Byte) (fs : List (List Byte)) (i : Nat) :
    fieldFlag (f :: fs) (i + 1) = fieldFlag fs i := rfl

@[simp] theorem fieldFlag_flag (b : Bool) (fs : List (List Byte)) : fieldFlag (flagField b :: fs) 0 = b := by
  rw [fieldFlag, flagField, fieldBits_byte]
  cases b <;> rfl

@[simp] theorem fieldMemory_succ (f : List Byte) (fs : List (List Byte)) (i : Nat) :
    fieldMemory (f :: fs) (i + 1) = fieldMemory fs i := rfl

theorem fieldMemory_drop (fs : List (List Byte)) (i : Nat) : fieldMemory fs i = fieldMemory (fs.drop i) 0 := by
  simp [fieldMemory]

theorem fieldMemory_memory {size : Nat} {m : Memory} (h : m.fits size = true) (fs : List (List Byte)) :
    fieldMemory (m.toBytes size :: fs) 0 = m := ofBytes_toBytes h

@[simp] theorem fieldEight_succ (f : List Byte) (fs : List (List Byte)) (i : Nat) :
    fieldEight (f :: fs) (i + 1) = fieldEight fs i := rfl

@[simp] theorem fieldEight_vector (v : Vector Byte 8) (fs : List (List Byte)) : fieldEight (v.toList :: fs) 0 = v := by
  refine Vector.ext fun j hj => ?_
  simp [fieldEight, fieldByte]

@[simp] theorem fieldSprites_succ (f : List Byte) (fs : List (List Byte)) (i : Nat) :
    fieldSprites (f :: fs) (i + 1) = fieldSprites fs i := rfl

@[simp] theorem fieldSprites_vector (v : Vector (BitVec 6) 8) (fs : List (List Byte)) :
    fieldSprites (v.toList.map (BitVec.setWidth 8) :: fs) 0 = v := by
  refine Vector.ext fun j hj => ?_
  simp [fieldSprites, fieldByte]

/-! ## Records -/

@[simp] theorem latch_latchByte (l : Latch) :
    ({ nmi := bitOf (latchByte l) 0, irq := bitOf (latchByte l) 1, brk := bitOf (latchByte l) 2 } : Latch) = l := by
  obtain ⟨nmi, irq, brk⟩ := l
  revert nmi irq brk
  decide

@[simp] theorem kindOfByte_kindByte (k : Option IntKind) : kindOfByte (kindByte k) = k := by
  cases k with
  | none => rfl
  | some k => cases k <;> rfl

@[simp] theorem ofCode_code (m : Mirroring) : Mirroring.ofCode m.code = m := by
  cases m <;> rfl

/-- A status with its fixed bits is loaded as it is (10 R26). -/
theorem loadedStatus_of_statusOk {p : Byte} (h : statusOk p = true) : loadedStatus p = p := by
  obtain ⟨hfive, hfour⟩ := (statusOk_iff p).mp h
  refine byte_ext fun j _ => ?_
  rw [bitOf_loadedStatus]
  split
  next hj => rw [hj, hfive]
  · split
    next hj => rw [hj, hfour]
    · rfl

/-- 65 R503: a loaded status has its fixed bits. -/
theorem cpuOfRecord_status (fs : List (List Byte)) : statusOk (cpuOfRecord fs).p = true := statusOk_loadedStatus _

/-- 65 R503. -/
theorem cpuOfRecord_cpuRecord {c : Cpu} (h : statusOk c.p = true) (rest : List (List Byte)) :
    cpuOfRecord (cpuRecord c ++ rest) = c := by
  simp [cpuOfRecord, cpuRecord, loadedStatus_of_statusOk h]

/-- 65 R507. -/
theorem mapperOfRecord_mapperRecord (m : Mapper) (rest : List (List Byte)) :
    mapperOfRecord m (mapperRecord m ++ rest) = m := by
  cases m <;> simp [mapperOfRecord, mapperRecord]

/-- The field of a number that fits in it, read as a number: the scanline, the dot and the mirroring code. -/
theorem leNat_field {k n : Nat} (h : n < 256 ^ k) : leNat (leBytes k n) = n := by
  rw [leNat_leBytes, Nat.mod_eq_of_lt h]

theorem mirroringCode_lt (m : Mirroring) : m.code < 256 ^ 1 := by
  cases m <;> decide

/-- 65 R506: the position's sixteen bits hold it while it is inside the frame. -/
theorem ppuOfRecord_ppuRecord {p : Ppu} (hrange : p.InRange) (hvram : p.vram.fits 2048 = true)
    (hpal : p.pal.fits 32 = true) (hoam : p.oam.fits 256 = true) (rest : List (List Byte)) :
    ppuOfRecord p (ppuRecord p ++ rest) = p := by
  have hscanline : leNat (leBytes 2 p.scanline) = p.scanline :=
    leNat_field (Nat.lt_of_le_of_lt hrange.scanline (by decide))
  have hdot : leNat (leBytes 2 p.dot) = p.dot := leNat_field (Nat.lt_of_le_of_lt hrange.dot (by decide))
  have hmirroring := leNat_field (mirroringCode_lt p.mirroring)
  simp [ppuOfRecord, ppuRecord, hscanline, hdot, hmirroring, fieldMemory_memory hvram, fieldMemory_memory hpal,
    fieldMemory_memory hoam]

/-- 65 R508: each channel's reader finds the channel's fields after those of the channels before it. -/
theorem apuOfRecord_apuRecord (a : Apu) : apuOfRecord (apuRecord a) = a := by
  simp [apuOfRecord, apuRecord, pulseOfRecord, pulseRecord, envelopeOfRecord, envelopeRecord, triangleOfRecord,
    triangleRecord, noiseOfRecord, noiseRecord, dmcOfRecord, dmcRecord]

/-! ## The file -/

/-- 65 R501: every record stands where `applySave` looks for it. -/
theorem applySave_saveFields {s : State} (h : Inv s) : applySave s (saveFields s) = s := by
  obtain ⟨hppu, -⟩ := deviceInv_iff.1 h.device
  let fromChr := chrRecord s ++ apuRecord s.apu
  let fromMapper := mapperRecord s.mapper ++ fromChr
  let fromPpu := ppuRecord s.ppu ++ fromMapper
  let fromCpu := cpuRecord s.cpu ++ fromPpu
  have hfields : saveFields s = s.ram.toBytes 2048 :: fromCpu := by
    simp only [saveFields, List.append_assoc, List.cons_append, List.nil_append, fromCpu, fromPpu, fromMapper, fromChr]
  have hcpu : (saveFields s).drop 1 = fromCpu := by rw [hfields]; rfl
  have hppuPart : (saveFields s).drop 13 = fromPpu := by rw [hfields]; rfl
  have hmapper : (saveFields s).drop 42 = fromMapper := by rw [hfields]; rfl
  have hchr : (saveFields s).drop (42 + (mapperRecord s.mapper).length) = fromChr := by
    rw [← List.drop_drop, hmapper, List.drop_left]
  have hapu : (saveFields s).drop (42 + (mapperRecord s.mapper).length + (chrRecord s).length) = apuRecord s.apu := by
    rw [← List.drop_drop, hchr, List.drop_left]
  have hram : fieldMemory (saveFields s) 0 = s.ram := by rw [hfields, fieldMemory_memory h.mem.ram]
  have hchrRam : (if usesChrRam s.cart s.mapper then fieldMemory (saveFields s) (42 + (mapperRecord s.mapper).length)
      else s.chrRam) = s.chrRam := by
    refine ite_eq_right_iff.mpr fun huses => ?_
    have hrecord : chrRecord s = [s.chrRam.toBytes 8192] := if_pos huses
    rw [fieldMemory_drop, hchr]
    simp only [fromChr, hrecord, List.cons_append, List.nil_append, fieldMemory_memory h.mem.chrRam]
  rw [applySave, hram, hcpu, hppuPart, hmapper, hchrRam, hapu, cpuOfRecord_cpuRecord h.cpu.status,
    ppuOfRecord_ppuRecord hppu h.mem.vram h.mem.pal h.mem.oam, mapperOfRecord_mapperRecord, apuOfRecord_apuRecord]

/-- Settles O55: the machine accepts its own file, the fields are cut where they were joined, and each is read back. -/
theorem saveThenLoadRestores : Obligations.SaveThenLoadRestores := by
  intro s h
  have hbody : (save s).drop 8 = (saveFields s).flatten := List.drop_left' (saveHeader_length s.cfg)
  rw [load_eq, if_pos (saveAccepted_save s), hbody, cutFields_flatten, applySave_saveFields h]

/-! ## All or nothing -/

theorem save_header (s : State) : (save s).take 8 = saveHeader s.cfg := List.take_left' (saveHeader_length s.cfg)

theorem save_length (s : State) : (save s).length = 8 + ((saveFields s).map List.length).sum := by
  rw [save, List.length_append, saveHeader_length, List.length_flatten]

/-- 65 R505: a file is accepted exactly if its header and its length are those of a save. -/
theorem saveAccepted_iff (s : State) (file : List Byte) :
    saveAccepted s file = true ↔ file.take 8 = (save s).take 8 ∧ file.length = (save s).length := by
  rw [save_header, save_length, saveAccepted, Bool.and_eq_true, beq_iff_eq, beq_iff_eq]

/-- 65 R509: what is in no record stays. -/
theorem applySave_unsaved (s : State) (fs : List (List Byte)) :
    (applySave s fs).cfg = s.cfg ∧ (applySave s fs).cart = s.cart ∧ (applySave s fs).prgRam = s.prgRam ∧
    (applySave s fs).pad = s.pad ∧ (applySave s fs).audio = s.audio ∧
    (applySave s fs).ppu.frameDraw = s.ppu.frameDraw ∧ (applySave s fs).ppu.frameShown = s.ppu.frameShown :=
  ⟨rfl, rfl, rfl, rfl, rfl, rfl, rfl⟩

/-- Settles O56: the two answers of `load_eq`. -/
theorem loadIsAllOrNothing : Obligations.LoadIsAllOrNothing := by
  intro s file r
  have hr : r = _ := load_eq s file
  by_cases haccepted : saveAccepted s file = true
  · rw [if_pos haccepted] at hr
    obtain ⟨hheader, hlength⟩ := (saveAccepted_iff s file).mp haccepted
    rw [hr]
    exact ⟨fun h => absurd h (by simp [hheader, hlength]), fun h => absurd h.symm Bool.false_ne_true,
      fun _ => cpuOfRecord_status _, applySave_unsaved s _⟩
  · rw [if_neg haccepted] at hr
    rw [hr]
    exact ⟨fun _ => rfl, fun _ => rfl, fun h => absurd h Bool.false_ne_true, rfl, rfl, rfl, rfl, rfl, rfl, rfl⟩

end Sys2Proof.Machine
end

section
/-! Reset and the zero-page pointers (70 R520 to R522, R528). -/

namespace Sys2Proof.Machine

/-! ## Pointers in the zero page (70 R528) -/

theorem zext16_eq {b : Byte} {n : Nat} (h : b.toNat = n % 256) : zext16 b = BitVec.ofNat 16 (n % 256) := by
  apply BitVec.eq_of_toNat_eq
  rw [zext16_toNat, h, BitVec.toNat_ofNat]
  omega

/-- A pointer read at `n`, both bytes inside the zero page, changes nothing. -/
theorem readPair_pointer (s : State) {b : Byte} {n : Nat} (h : b.toNat = n % 256) :
    (readPair s (zext16 b) (zext16 (b + 1))).1.toNat =
      (byteAt s (BitVec.ofNat 16 (n % 256))).toNat + 256 * (byteAt s (BitVec.ofNat 16 ((n + 1) % 256))).toNat ∧
    (readPair s (zext16 b) (zext16 (b + 1))).2 = s := by
  have hnext : (b + 1).toNat = (n + 1) % 256 := by
    rw [BitVec.toNat_add, h]
    exact Nat.mod_add_mod n 256 1
  rw [readPair_zeroPage, zext16_eq h, zext16_eq hnext]
  exact ⟨(word_toNat _ _).trans (Nat.add_comm _ _), rfl⟩

/-- Settles O15: the indexed forms by `zext16_add_toNat`, the pointers by `readPair_pointer`. -/
theorem pointersWrapInZeroPage : Obligations.PointersWrapInZeroPage := by
  intro s b pointer
  refine ⟨zext16_add_toNat b s.cpu.x, zext16_add_toNat b s.cpu.y,
    readPair_pointer s (BitVec.toNat_add b s.cpu.x), ?izy⟩
  obtain ⟨haddr, hstate⟩ := readPair_pointer s (n := b.toNat) (Nat.mod_eq_of_lt b.isLt).symm
  have hpointer : (readPair s (zext16 b) (zext16 (b + 1))).1.toNat = pointer b.toNat := haddr
  have hindexed := indexed_spec s (readPair s (zext16 b) (zext16 (b + 1))).1 s.cpu.y
  have heffective : effAddr (.izy b) s = indexed s (readPair s (zext16 b) (zext16 (b + 1))).1 s.cpu.y := by
    simp only [effAddr, hstate]
  rw [heffective, ← hpointer]
  exact hindexed

/-! ## Reset (70 R520 to R522) -/

/-- The last two 8 KB banks of an image of 16 KB units. -/
theorem lastBanks (c : Cartridge) : c.prgSize / 8192 - 2 = 2 * c.prgUnits - 2 := by
  unfold Cartridge.prgSize
  omega

/-- Mapper 1 alone notifies a mirroring mode at reset (64 R466, R477). -/
theorem resetMirroring_none {m : Mapper} (h : ∀ r, m ≠ .mmc1 r) : m.resetMirroring = none := by
  cases m with
  | mmc1 r => exact absurd rfl (h r)
  | _ => rfl

/-- The host's part and the CPU's memories stay. -/
theorem hostReset_unchanged (s : State) :
    (hostReset s).ram = s.ram ∧ (hostReset s).prgRam = s.prgRam ∧ (hostReset s).chrRam = s.chrRam ∧
    (hostReset s).cart = s.cart ∧ (hostReset s).cfg = s.cfg := by
  rw [hostReset_eq]
  exact ⟨rfl, rfl, rfl, rfl, rfl⟩

/-- Settles O54: `hostReset_eq`, unit by unit. -/
theorem resetSetsRegisters : Obligations.ResetSetsRegisters := by
  intro s t silent
  have ht : t = _ := hostReset_eq s
  have hmapper : t.mapper = s.mapper.afterReset s.cart := congrArg State.mapper ht
  have hppu : t.ppu = { s.ppu.afterReset with mirroring := s.mapper.resetMirroring.getD s.ppu.mirroring } :=
    congrArg State.ppu ht
  have hmirroring : t.ppu.mirroring = s.mapper.resetMirroring.getD s.ppu.mirroring := congrArg Ppu.mirroring hppu
  refine ⟨congrArg State.cpu ht, ?ppu, fun hm => ?kept, congrArg State.apu ht, congrArg State.pad ht, fun hm => ?nrom,
    fun r hm => ?mmc1, fun b hm => ?uxrom, fun b hm => ?cnrom, fun r hm => ?mmc3, fun r hm => ?m65, hostReset_unchanged s⟩
  case ppu =>
    rw [hppu]
    rfl
  case kept => rw [hmirroring, resetMirroring_none hm, Option.getD_none]
  case mmc1 =>
    rw [hmapper, hmirroring, hm]
    exact ⟨rfl, rfl⟩
  case m65 =>
    rw [hmapper, hm, ← lastBanks]
    rfl
  case nrom | uxrom | cnrom | mmc3 =>
    rw [hmapper, hm]
    rfl

end Sys2Proof.Machine
end
